-- ==== Sys2Proof/Word.lean ====
section
/-! DEFINITION. The word types of RS-CORE that are plain bits (00_scope.md R8). -/

namespace Sys2Proof

/-- A byte, 8 bits, value 0..255 (00_scope.md R8). -/
abbrev Byte := BitVec 8

end Sys2Proof
end

