-- ==== Sys2Proof/Config.lean ====
section
/-! DEFINITION. What an implementation of RS-CORE fixes and what the spec leaves free: the named constants of
00_scope.md R5, the parameter record `P` of R6 with its printed defaults, and the free values (opaque constants). -/

namespace Sys2Proof

/-! ## The constants of 00_scope.md R5, each taken from this one place -/

/-- MASK_LEN: bytes of the keystream. -/
@[simp] abbrev Config.maskLen : Nat := 64
/-- HEADLEN: preamble bits compared. -/
@[simp] abbrev Config.headLen : Nat := 32
/-- REFLEN: bits of the reference pattern. -/
@[simp] abbrev Config.refLen : Nat := 64
/-- NDATA_LEN: the standard frame length. -/
@[simp] abbrev Config.ndataLen : Nat := 320
/-- FRAME_LEN: the extended (maximum) frame length, the size of RF. -/
@[simp] abbrev Config.frameLen : Nat := 518
/-- CW_N: bytes of a codeword. -/
@[simp] abbrev Config.cwN : Nat := 255
/-- CW_R: parity bytes of a codeword. -/
@[simp] abbrev Config.cwR : Nat := 24
/-- CW_K: message bytes of a codeword. -/
@[simp] abbrev Config.cwK : Nat := 231
/-- CW_T: correctable byte errors of a codeword. -/
@[simp] abbrev Config.cwT : Nat := 12
/-- CRC_POLY. -/
@[simp] abbrev Config.crcPoly : BitVec 16 := 0x1021#16
/-- CRC_INIT. -/
@[simp] abbrev Config.crcInit : BitVec 16 := 0xFFFF#16
/-- AVG_LEN: taps of the moving average. -/
@[simp] abbrev Config.avgLen : Nat := 3
/-- VAR_BITS: bit periods of the variance window. -/
@[simp] abbrev Config.varBits : Nat := 32
/-- VAR_RATIO.num, of the threshold 3/2. -/
@[simp] abbrev Config.varRatioNum : Nat := 3
/-- VAR_RATIO.den, of the threshold 3/2. -/
@[simp] abbrev Config.varRatioDen : Nat := 2
/-- VAR_LAG: distance in bytes to the reference variance, exactly 300 (decision D21 of the spec). -/
@[simp] abbrev Config.varLag : Nat := 300
/-- SUSPECT_MAX: consecutive suspect bytes that trigger truncation. -/
@[simp] abbrev Config.suspectMax : Nat := 4
/-- FT_STD: the marker of a standard frame. -/
@[simp] abbrev Config.ftStd : Byte := 0x0F#8
/-- FT_EXT: the marker of an extended frame. -/
@[simp] abbrev Config.ftExt : Byte := 0xF0#8
/-- NSUB_FIXED: the fixed sub-block type markers that the FEC retry forces. -/
@[simp] abbrev Config.nsubFixed : Nat := 5
/-- Capacity of VRING in entries (10_state.md R28). -/
@[simp] abbrev Config.vringCap : Nat := 8192

/-! ## The parameter record P (00_scope.md R6) -/

/-- The parameter record `P`: every value the source names without printing. Plain data; the constraints of
00_scope.md R7 are `Params.wf` (WellFormed.lean). The function parameter `EccDecode` is `Config.eccDecode` below. -/
structure Params where
  /-- MASK[0..63], the XOR keystream (40_descrambler.md R131). -/
  mask : Vector Byte Config.maskLen
  /-- REFPAT[0..63], bit `i` of the vector being REFPAT[i], index 0 first on air (42_synchronizer.md R171). -/
  refpat : BitVec Config.refLen
  /-- HEADOFS: offset of the compared bits inside REFPAT. -/
  headofs : Nat
  /-- FRAMESTART: byte index at which assembly starts. -/
  framestart : Nat
  /-- PARPOS: first parity byte of codeword 1. -/
  parpos : Nat
  /-- MSGPOS: first interleaved message byte. -/
  msgpos : Nat
  /-- POS_FTYPE: position of the frame-type marker. -/
  posFtype : Nat
  /-- POS_FRAME: start of the Frame/ID sub-block. -/
  posFrame : Nat
  /-- POS_PTU: start of the PTU sub-block. -/
  posPtu : Nat
  /-- POS_GPS1: start of the GPS1 sub-block. -/
  posGps1 : Nat
  /-- POS_GPS2: start of the GPS2 sub-block. -/
  posGps2 : Nat
  /-- POS_GPS3: start of the GPS3 sub-block. -/
  posGps3 : Nat
  /-- POS_AUX: start of the variable-length region. -/
  posAux : Nat
  /-- TAG_FRAME: expected type tag of Frame/ID. -/
  tagFrame : BitVec 16
  /-- TAG_PTU: expected type tag of PTU. -/
  tagPtu : BitVec 16
  /-- TAG_GPS1: expected type tag of GPS1. -/
  tagGps1 : BitVec 16
  /-- TAG_GPS2: expected type tag of GPS2. -/
  tagGps2 : BitVec 16
  /-- TAG_GPS3: expected type tag of GPS3. -/
  tagGps3 : BitVec 16
  /-- TAG_AUX_HI: expected high tag byte of an AUX/xdata block. -/
  tagAuxHi : Byte
  /-- TAG_ZERO_HI: expected high tag byte of the zero-padding block. -/
  tagZeroHi : Byte
  /-- SENT_CW1: FEC status when codeword 1 alone failed. -/
  sentCw1 : Int
  /-- SENT_CW2: FEC status when codeword 2 alone failed. -/
  sentCw2 : Int
  /-- SENT_BOTH: FEC status when both codewords failed. -/
  sentBoth : Int
  /-- FT_RETRY_STD_MIN: smallest score the retry reads as "standard frame". -/
  ftRetryStdMin : Int
  /-- RETRY_ZERO_LO: first index the retry zeroes. -/
  retryZeroLo : Nat
  /-- RETRY_ZERO_HI: the index after the last the retry zeroes. -/
  retryZeroHi : Nat
  /-- ECC_SELECTOR: opaque to RS-CORE (43_fec.md R205). -/
  eccSelector : Nat
  /-- CRC_STORE_BE: whether a stored CRC is high byte first (44_crc.md R232). -/
  crcStoreBe : Bool
  deriving DecidableEq, Repr

/-- The defaults printed by 00_scope.md R6, 40_descrambler.md R131 and 42_synchronizer.md R171.
PRESUMED (unsafe): the spec itself marks them as general knowledge of the RS41 air format (log entry 1);
ECC_SELECTOR has no default in the spec and is 0 here, DESIGN CHOICE (log entry 14). -/
def Config.defaultParams : Params where
  mask := #v[0x96, 0x83, 0x3E, 0x51, 0xB1, 0x49, 0x08, 0x98,
             0x32, 0x05, 0x59, 0x0E, 0xF9, 0x44, 0xC6, 0x26,
             0x21, 0x60, 0xC2, 0xEA, 0x79, 0x5D, 0x6D, 0xA1,
             0x54, 0x69, 0x47, 0x0C, 0xDC, 0xE8, 0x5C, 0xF1,
             0xF7, 0x76, 0x82, 0x7F, 0x07, 0x99, 0xA2, 0x2C,
             0x93, 0x7C, 0x30, 0x63, 0xF5, 0x10, 0x2E, 0x61,
             0xD0, 0xBC, 0xB4, 0xB6, 0x06, 0xAA, 0xF4, 0x23,
             0x78, 0x6E, 0x3B, 0xAE, 0xBF, 0x7B, 0x4C, 0xC1]
  refpat := 0xF812962211CAB610#64
  headofs := 24
  framestart := 7
  parpos := 8
  msgpos := 56
  posFtype := 56
  posFrame := 57
  posPtu := 101
  posGps1 := 147
  posGps2 := 181
  posGps3 := 274
  posAux := 299
  tagFrame := 0x7928#16
  tagPtu := 0x7A2A#16
  tagGps1 := 0x7C1E#16
  tagGps2 := 0x7D59#16
  tagGps3 := 0x7B15#16
  tagAuxHi := 0x7E#8
  tagZeroHi := 0x76#8
  sentCw1 := -1
  sentCw2 := -2
  sentBoth := -3
  ftRetryStdMin := -2
  retryZeroLo := 320
  retryZeroHi := 518
  eccSelector := 0
  crcStoreBe := true

/-! ## The ECC service (43_fec.md R203, R204) -/

/-- A codeword as it travels to and from the ECC service: 255 bytes, index 0 first (43_fec.md R203). -/
abbrev Codeword := Vector Byte Config.cwN

/-- The service's answer to one codeword. The error count is 0..12 by its type (43_fec.md R204 (e)). -/
inductive EccAnswer where
  /-- `Corrected(c, e)`: a word of 255 bytes and an error count. -/
  | corrected (c : Codeword) (e : Fin (Config.cwT + 1))
  /-- The failure sentinel. -/
  | failure
  deriving DecidableEq, Repr, Inhabited

/-- A decoding service: its answer to a word, given whether it has been initialised (the one hidden bit of
10_state.md R41). The operations take the service as an argument, as 43_fec.md R203 asks. -/
abbrev Ecc := Bool → Codeword → EccAnswer

/-- FREE VALUE (93_implementation_defined.md U1, U10, U2; log entries 6 and 21). `EccDecode`: what the external service
answers. Nothing is known of it but the range of the count. -/
opaque Config.eccDecode : Ecc

/-- The number of byte positions in which two words differ (43_fec.md R204). -/
def Codeword.distance (a b : Codeword) : Nat :=
  ((List.range Config.cwN).filter fun i => decide (a[i]? ≠ b[i]?)).length

/-- The contract of 43_fec.md R204 that a statement may assume of a service, for the set `C` of valid codewords: (c)
correctness, of which (b) idempotence is the case of distance 0. (a) and (e) hold by the type `Ecc`; (d) leaves the
answer free. -/
def EccContract (C : Codeword → Prop) (ecc : Ecc) : Prop :=
  ∀ c w, C c → Codeword.distance w c ≤ Config.cwT →
    ecc true w = .corrected c (Fin.ofNat (Config.cwT + 1) (Codeword.distance w c))

/-! ## Other free values -/

/-- FREE VALUE (log entry 7). The quotient of a rational by zero. No rule divides by zero
(46_arithmetic_and_sequencing.md R281); the spec states no result where an operation is run in a state in which its
divisor is zero. The argument is the dividend. -/
opaque Config.quotientByZero : Rat → Rat

/-- FREE VALUE (log entry 8). The remainder that becomes VPOS when DEM.VAR runs with VWIN = 0 (no ratio
written), which 41_demodulator.md R152 leaves undefined; a 13-bit value. The argument is the dividend. -/
opaque Config.vposUnconfigured : Nat → Fin 8192

end Sys2Proof
end

