-- ==== Sys2Proof/Syntax.lean ====
section
/-! DEFINITION. The operations of RS-CORE as syntax: one constructor of `Instr` per row of spec/opcode_table.json
(00_scope.md R11), and the words an operation is read from. -/

namespace Sys2Proof

/-- A bit symbol (00_scope.md R9): 0, 1, or the non-binary bit X. -/
inductive Bit3 where
  | zero
  | one
  | x
  deriving DecidableEq, Repr, Inhabited

/-- Which codeword of the pair an operation works on (43_fec.md R203, R210). -/
inductive CwSel where
  | cw1
  | cw2
  deriving DecidableEq, Repr

/-- The operations of RS-CORE. Host commands carry the ARG fields of 30_encoding.md R94 as bits; internal operations
carry the operands of their rules. -/
inductive Instr where
  -- host commands, format CMD32
  /-- NOP (45_host_commands.md R261). -/
  | nop
  /-- RESET (R262). -/
  | reset
  /-- CFGW c, c = ARG[7:0] (R264). -/
  | cfgw (c : BitVec 8)
  /-- SPBW n d, n = ARG[23:8], d = ARG[7:0] (R263). -/
  | spbw (n : BitVec 16) (d : BitVec 8)
  /-- SAMPLE v, v = ARG[15:0] in two's complement (R265). -/
  | sample (v : BitVec 16)
  /-- EOS (R269). -/
  | eos
  /-- BIT b (R266). -/
  | bit (b : Bit3)
  /-- FLOAD idx val, idx = ARG[17:8], val = ARG[7:0] (R267). -/
  | fload (idx : BitVec 10) (val : Byte)
  /-- FRUN len, len = ARG[9:0] (R268). -/
  | frun (len : BitVec 10)
  /-- ACK (R270). -/
  | ack
  -- data-selected checks, format TAG16
  /-- CHK.FRAME: the check of the Frame/ID sub-block (44_crc.md R234). -/
  | chkFrame
  /-- CHK.PTU: the check of the PTU sub-block (R234). -/
  | chkPtu
  /-- CHK.GPS1: the check of the GPS1 sub-block (R234). -/
  | chkGps1
  /-- CHK.GPS2: the check of the GPS2 sub-block (R234). -/
  | chkGps2
  /-- CHK.GPS3: the check of the GPS3 sub-block (R234). -/
  | chkGps3
  /-- CHK.AUX: the check of an AUX/xdata block that starts at `pos` (R235). -/
  | chkAux (pos : Nat)
  /-- CHK.ZERO: the check of the zero-padding block at `pos` (R236). -/
  | chkZero (pos : Nat)
  -- marker classes, format FTM8
  /-- FTM.STD: the marker 0x0F (42_synchronizer.md R180). -/
  | ftmStd
  /-- FTM.EXT: the marker 0xF0 (R180). -/
  | ftmExt
  /-- FTM.OTHER: any other marker `m` (R180). -/
  | ftmOther (m : Byte)
  -- internal operations, format UOP8
  /-- DSC.XOR(v, i) (40_descrambler.md R130). -/
  | dscXor (v : Byte) (i : Nat)
  /-- DEM.SAMPLE(raw) (41_demodulator.md R140). -/
  | demSample (raw : BitVec 16)
  /-- DEM.AVG(raw) (R141). -/
  | demAvg (raw : BitVec 16)
  /-- DEM.ZC(y) (R143). -/
  | demZc (y : Rat)
  /-- DEM.LEN(y) (R144). -/
  | demLen (y : Rat)
  /-- DEM.EMIT(L) (R145). -/
  | demEmit (l : Rat)
  /-- DEM.ENTERINT(y) (R147). -/
  | demEnterint (y : Rat)
  /-- DEM.INT(y) (R148). -/
  | demInt (y : Rat)
  /-- DEM.INTCHK(y) (R149). -/
  | demIntchk (y : Rat)
  /-- DEM.LEAVEINT(y) (R151). -/
  | demLeaveint (y : Rat)
  /-- DEM.VAR(y) (R152). -/
  | demVar (y : Rat)
  /-- DEM.EOS() (R154). -/
  | demEos
  /-- SYN.BIT(b) (42_synchronizer.md R170). -/
  | synBit (b : Bit3)
  /-- SYN.SHIFT(b) (R172). -/
  | synShift (b : Bit3)
  /-- SYN.CMP() (R173). -/
  | synCmp
  /-- SYN.ACQ() (R174). -/
  | synAcq
  /-- SYN.PACK() (R175). -/
  | synPack
  /-- SYN.BYTE() (R177). -/
  | synByte
  /-- SYN.SCORE(m) (R179). -/
  | synScore (m : Byte)
  /-- SYN.FTM() (R180). -/
  | synFtm
  /-- SYN.SUSP(p) (R181, R182). -/
  | synSusp (p : Nat)
  /-- SYN.DONE(len) (R184). -/
  | synDone (len : Nat)
  /-- SYN.ABORT() (R185). -/
  | synAbort
  /-- FEC.CORRECT(len) (43_fec.md R200). -/
  | fecCorrect (len : Nat)
  /-- FEC.PAD(len) (R201). -/
  | fecPad (len : Nat)
  /-- FEC.GATHER() (R202). -/
  | fecGather
  /-- FEC.DEC(k) (R203). -/
  | fecDec (k : CwSel)
  /-- ECC.INIT(sel) (R205). -/
  | eccInit (sel : Nat)
  /-- FEC.FORCE() (R207). -/
  | fecForce
  /-- FEC.ZTRAIL() (R208). -/
  | fecZtrail
  /-- FEC.SCATTER(k) (R210). -/
  | fecScatter (k : CwSel)
  /-- FEC.STAT(ok1, ok2) (R211). -/
  | fecStat (ok1 ok2 : Bool)
  /-- CRC.UPD(r, b) (44_crc.md R230). -/
  | crcUpd (r : BitVec 16) (b : Byte)
  /-- CRC.CALC(start, n) (R231). -/
  | crcCalc (start n : Nat)
  /-- CRC.CHECK(pos, hi) (R233). -/
  | crcCheck (pos : Nat) (hi : Byte)
  /-- CRC.SCAN() (R234). -/
  | crcScan
  /-- CRC.AUXWALK() (R235, R236). -/
  | crcAuxwalk
  deriving DecidableEq, Repr

/-- The words an operation is read from, one constructor per format of 30_encoding.md R90 and R109.
Only `cmd32` travels on RS-CORE's command port. A `tag16` is the two bytes at `pos` of RF, an `ftm8` the byte at
POS_FTYPE. An internal operation's label travels on no bus (R109): its two operand words are the model's own, so that
a step can run the operation alone (DESIGN CHOICE, log entry 3). -/
inductive Words where
  | cmd32 (w : BitVec 32)
  | tag16 (pos : Nat) (w : BitVec 16)
  | ftm8 (w : BitVec 8)
  | uop8 (label : BitVec 8) (a b : BitVec 32)
  deriving DecidableEq, Repr

end Sys2Proof
end

