-- ==== Sys2Proof/WellFormed.lean ====
section
/-! DEFINITION. Which parameter records and which operations are well formed (00_scope.md R7 and the operand ranges of
the operation rules). -/

namespace Sys2Proof

/-- The types of the table of 00_scope.md R6: HEADOFS 0..32, FRAMESTART 0..8, FT_RETRY_STD_MIN -4..4.
DEDUCED (safe): R7 does not repeat them (log entry 19). -/
def Params.typesOk (P : Params) : Bool :=
  decide (P.headofs ≤ 32) && decide (P.framestart ≤ 8)
    && decide (-4 ≤ P.ftRetryStdMin) && decide (P.ftRetryStdMin ≤ 4)

/-- R7 (a): the compared bits lie inside REFPAT. -/
def Params.headOk (P : Params) : Bool := decide (P.headofs + Config.headLen ≤ Config.refLen)

/-- R7 (b): the first bit after the preamble is bit 0 of byte FRAMESTART. -/
def Params.startOk (P : Params) : Bool :=
  decide (8 * P.framestart = P.headofs + Config.headLen)

/-- R7 (c): the gather stays inside RF. -/
def Params.codewordsOk (P : Params) : Bool :=
  decide (P.parpos + 2 * Config.cwR ≤ P.msgpos)
    && decide (P.msgpos + 2 * Config.cwK ≤ Config.frameLen)

/-- R7 (d): every sub-block's tag lies inside RF, the marker inside a standard frame. -/
def Params.positionsOk (P : Params) : Bool :=
  [P.posFrame, P.posPtu, P.posGps1, P.posGps2, P.posGps3, P.posAux].all
      (fun p => decide (p + 2 ≤ Config.frameLen))
    && decide (P.posFtype < Config.ndataLen)

/-- R7 (e): the sentinels are pairwise distinct and negative. Their lower bound -128 is the model's choice, DEDUCED
(log entry 27): 10_state.md R36 makes FEC_STATUS a signed 8-bit register and 46_arithmetic_and_sequencing.md R280 (d)
says that its 8-bit header field is never out of range, while R6 and R7 bound no sentinel from below. The sentinels may
stand in any order, the model's choice too (DEDUCED, log entry 27): R36 writes the range of FEC_STATUS as SENT_BOTH..24,
R7 (e) orders nothing, and the gate admits SENT_CW1 or SENT_CW2 below SENT_BOTH, which is then a status below that
range. -/
def Params.sentinelsOk (P : Params) : Bool :=
  decide (P.sentCw1 ≠ P.sentCw2) && decide (P.sentCw1 ≠ P.sentBoth)
    && decide (P.sentCw2 ≠ P.sentBoth)
    && decide (P.sentCw1 < 0) && decide (P.sentCw2 < 0) && decide (P.sentBoth < 0)
    && decide (-128 ≤ P.sentCw1) && decide (-128 ≤ P.sentCw2) && decide (-128 ≤ P.sentBoth)

/-- R7 (f): every reference variance was written in the same frame. -/
def Params.lagOk (P : Params) : Bool :=
  decide (P.framestart ≤ Config.ndataLen - Config.varLag)

/-- R7 (g): the region the retry zeroes lies inside RF. -/
def Params.zeroRegionOk (P : Params) : Bool :=
  decide (P.retryZeroLo ≤ P.retryZeroHi) && decide (P.retryZeroHi ≤ Config.frameLen)

/-- Well-formedness of `P` (00_scope.md R7). -/
def Params.wf (P : Params) : Bool :=
  P.typesOk && P.headOk && P.startOk && P.codewordsOk && P.positionsOk && P.sentinelsOk
    && P.lagOk && P.zeroRegionOk

/-- A parameter record with its check: the only kind a state can hold, so that a `P` that violates R7 is refused
where it would be built. -/
abbrev Parameters := { P : Params // P.wf = true }

/-- The check of 00_scope.md R7 as a gate: a record that violates a constraint is refused. -/
def Params.accept (P : Params) : Option Parameters :=
  if h : P.wf = true then some ⟨P, h⟩ else none

/-- The default record, which satisfies R7. -/
def Config.defaultP : Parameters := ⟨Config.defaultParams, by decide⟩

/-- The seven sub-block kinds have pairwise different high tag bytes (true of the defaults of 30_encoding.md R100; not
a constraint of R7). -/
def Params.tagsDistinct (P : Params) : Bool :=
  decide ([P.tagFrame.extractLsb' 8 8, P.tagPtu.extractLsb' 8 8, P.tagGps1.extractLsb' 8 8,
    P.tagGps2.extractLsb' 8 8, P.tagGps3.extractLsb' 8 8, P.tagAuxHi, P.tagZeroHi].Nodup)

/-- A filtered sample (41_demodulator.md R141): a multiple of 1/3 of magnitude at most 32768. -/
def sampleOperandOk (y : Rat) : Bool :=
  decide (y.den = 1 ∨ y.den = 3) && decide (y.num.natAbs ≤ 32768 * y.den)

/-- A run length in bit periods (41_demodulator.md R144) that fits two operand words. -/
def lengthOperandOk (l : Rat) : Bool :=
  decide (0 ≤ l.num) && decide (l.num < 2 ^ 32) && decide (l.den ≤ 2 ^ 32)

/-- A natural that fits one operand word. -/
def natOperandOk (n : Nat) : Bool := decide (n < 2 ^ 32)

/-- The operand ranges the operation rules give. Host commands are well formed with every operand their fields can
hold: what is out of range there is refused by the command itself (30_encoding.md R98). The position of CHK.AUX and
CHK.ZERO is any with two bytes of RF, not only one the walk reaches (DESIGN CHOICE, log entry 28). -/
def Instr.wf : Instr → Bool
  | .nop | .reset | .cfgw _ | .spbw _ _ | .sample _ | .eos | .bit _ | .fload _ _ | .frun _
  | .ack => true
  | .chkFrame | .chkPtu | .chkGps1 | .chkGps2 | .chkGps3 => true
  | .chkAux pos | .chkZero pos => decide (pos + 2 ≤ Config.frameLen)
  | .ftmStd | .ftmExt => true
  | .ftmOther m => decide (m ≠ Config.ftStd) && decide (m ≠ Config.ftExt)
  | .dscXor _ i => natOperandOk i
  | .demSample _ | .demAvg _ => true
  | .demZc y | .demLen y | .demEnterint y | .demInt y | .demIntchk y | .demLeaveint y
  | .demVar y => sampleOperandOk y
  | .demEmit l => lengthOperandOk l
  | .demEos => true
  | .synBit _ | .synShift _ | .synCmp | .synAcq | .synPack | .synByte | .synScore _
  | .synFtm => true
  | .synSusp p => decide (p < Config.frameLen)
  | .synDone len => natOperandOk len
  | .synAbort => true
  | .fecCorrect len => natOperandOk len
  | .fecPad len => decide (len ≤ Config.frameLen)
  | .fecGather | .fecDec _ => true
  | .eccInit sel => natOperandOk sel
  | .fecForce | .fecZtrail | .fecScatter _ | .fecStat _ _ => true
  | .crcUpd _ _ => true
  | .crcCalc start n => decide (n ≤ 255) && decide (start + n ≤ Config.frameLen)
  | .crcCheck pos _ => natOperandOk pos
  | .crcScan | .crcAuxwalk => true

end Sys2Proof
end

