-- ==== Sys2Proof/Decode.lean ====
section
/-! DEFINITION. The decoder, total on any words and rejecting by name (30_encoding.md R91 to R104, R109), the encoder,
and the opcode table's view of both. -/

namespace Sys2Proof

/-- Why words name no operation. -/
inductive DecodeError where
  /-- The OP field is not in the table of 30_encoding.md R92 (R98 (a)). -/
  | illegalOp
  /-- The two tag bytes are not those of a sub-block kind that stands at this position (R100). -/
  | noSuchTag
  /-- The label is not assigned to an internal operation (R109). -/
  | noSuchLabel
  /-- The operand words hold a value outside the operation's operand range. -/
  | operandOutOfRange
  deriving DecidableEq, Repr

/-- The operand of BIT: 0, 1, or X when bit 1 of the field is set (30_encoding.md R94). -/
def bitOfField (f : BitVec 2) : Bit3 :=
  if f.getLsbD 1 then .x else if f.getLsbD 0 then .one else .zero

/-- The field of a bit symbol: 0, 1, or 2 for X (30_encoding.md R110). -/
def fieldOfBit : Bit3 → BitVec 2
  | .zero => 0
  | .one => 1
  | .x => 2

/-- The high tag byte of a 16-bit tag (30_encoding.md R99). -/
def tagHi (t : BitVec 16) : Byte := t.extractLsb' 8 8

/-- The low tag byte of a 16-bit tag, the declared length (30_encoding.md R99). -/
def tagLo (t : BitVec 16) : Byte := t.extractLsb' 0 8

/-! ## Host commands: format CMD32 -/

/-- A command word (30_encoding.md R91, R92, R94): OP = w[31:24], ARG = w[23:0]; unused ARG bits are ignored. -/
def decodeCommand (w : BitVec 32) : Except DecodeError Instr :=
  let op := w.extractLsb' 24 8
  if op = 0x00#8 then .ok .nop
  else if op = 0x01#8 then .ok .reset
  else if op = 0x02#8 then .ok (.cfgw (w.extractLsb' 0 8))
  else if op = 0x03#8 then .ok (.spbw (w.extractLsb' 8 16) (w.extractLsb' 0 8))
  else if op = 0x10#8 then .ok (.sample (w.extractLsb' 0 16))
  else if op = 0x11#8 then .ok .eos
  else if op = 0x12#8 then .ok (.bit (bitOfField (w.extractLsb' 0 2)))
  else if op = 0x13#8 then .ok (.fload (w.extractLsb' 8 10) (w.extractLsb' 0 8))
  else if op = 0x14#8 then .ok (.frun (w.extractLsb' 0 10))
  else if op = 0x20#8 then .ok .ack
  else .error .illegalOp

/-! ## Sub-block tags: format TAG16 -/

/-- The tag at `pos` (30_encoding.md R100, R101): the high byte tells the kind; a fixed kind stands at its fixed
position only. The low byte is the declared length, which the check reads again from RF (44_crc.md R233).
DESIGN CHOICE (log entry 28): only the model's own port hands this a position. There an AUX or zero-padding tag selects
CHK.AUX or CHK.ZERO wherever it stands, also below POS_AUX or at a fixed sub-block's place, where inside a frame the
walk of 44_crc.md R235 never looks for it. -/
def decodeTag (P : Params) (pos : Nat) (w : BitVec 16) : Except DecodeError Instr :=
  let hi := tagHi w
  if hi = tagHi P.tagFrame ∧ pos = P.posFrame then .ok .chkFrame
  else if hi = tagHi P.tagPtu ∧ pos = P.posPtu then .ok .chkPtu
  else if hi = tagHi P.tagGps1 ∧ pos = P.posGps1 then .ok .chkGps1
  else if hi = tagHi P.tagGps2 ∧ pos = P.posGps2 then .ok .chkGps2
  else if hi = tagHi P.tagGps3 ∧ pos = P.posGps3 then .ok .chkGps3
  else if hi = P.tagAuxHi then .ok (.chkAux pos)
  else if hi = P.tagZeroHi then .ok (.chkZero pos)
  else .error .noSuchTag

/-! ## The frame-type marker: format FTM8 -/

/-- The marker byte (30_encoding.md R104): two pure patterns, every other value makes no length decision. -/
def decodeMarker (m : Byte) : Instr :=
  if m = Config.ftStd then .ftmStd
  else if m = Config.ftExt then .ftmExt
  else .ftmOther m

/-! ## Internal operations: format UOP8 -/

/-- A filtered sample as an operand word: three times its value in two's complement. -/
def sampleOfWord (a : BitVec 32) : Rat := mkRat a.toInt 3

/-- The operand word of a filtered sample. -/
def wordOfSample (y : Rat) : BitVec 32 := BitVec.ofInt 32 (y.num * ((3 / y.den : Nat) : Int))

/-- A run length as two operand words: numerator, and denominator less one. -/
def lengthOfWords (a b : BitVec 32) : Rat := mkRat a.toNat (b.toNat + 1)

/-- Which codeword an operand word selects. -/
def cwOfWord (a : BitVec 32) : CwSel := if a.getLsbD 0 then .cw2 else .cw1

/-- The operand word of a codeword selection. -/
def wordOfCw : CwSel → BitVec 32
  | .cw1 => 0
  | .cw2 => 1

/-- The operand word of a Boolean. -/
def wordOfBool (b : Bool) : BitVec 32 := if b then 1 else 0

/-- An internal operation's label (spec/opcode_table.json, format UOP8) with its operand words. -/
def decodeLabel (label : BitVec 8) (a b : BitVec 32) : Option Instr :=
  if label = 0x00#8 then some (.dscXor (a.setWidth 8) b.toNat)
  else if label = 0x10#8 then some (.demSample (a.setWidth 16))
  else if label = 0x11#8 then some (.demAvg (a.setWidth 16))
  else if label = 0x12#8 then some (.demZc (sampleOfWord a))
  else if label = 0x13#8 then some (.demLen (sampleOfWord a))
  else if label = 0x14#8 then some (.demEmit (lengthOfWords a b))
  else if label = 0x15#8 then some (.demEnterint (sampleOfWord a))
  else if label = 0x16#8 then some (.demInt (sampleOfWord a))
  else if label = 0x17#8 then some (.demIntchk (sampleOfWord a))
  else if label = 0x18#8 then some (.demLeaveint (sampleOfWord a))
  else if label = 0x19#8 then some (.demVar (sampleOfWord a))
  else if label = 0x1A#8 then some .demEos
  else if label = 0x20#8 then some (.synBit (bitOfField (a.setWidth 2)))
  else if label = 0x21#8 then some (.synShift (bitOfField (a.setWidth 2)))
  else if label = 0x22#8 then some .synCmp
  else if label = 0x23#8 then some .synAcq
  else if label = 0x24#8 then some .synPack
  else if label = 0x25#8 then some .synByte
  else if label = 0x26#8 then some (.synScore (a.setWidth 8))
  else if label = 0x27#8 then some .synFtm
  else if label = 0x28#8 then some (.synSusp a.toNat)
  else if label = 0x29#8 then some (.synDone a.toNat)
  else if label = 0x2A#8 then some .synAbort
  else if label = 0x30#8 then some (.fecCorrect a.toNat)
  else if label = 0x31#8 then some (.fecPad a.toNat)
  else if label = 0x32#8 then some .fecGather
  else if label = 0x33#8 then some (.fecDec (cwOfWord a))
  else if label = 0x34#8 then some (.eccInit a.toNat)
  else if label = 0x35#8 then some .fecForce
  else if label = 0x36#8 then some .fecZtrail
  else if label = 0x37#8 then some (.fecScatter (cwOfWord a))
  else if label = 0x38#8 then some (.fecStat (a.getLsbD 0) (b.getLsbD 0))
  else if label = 0x40#8 then some (.crcUpd (a.setWidth 16) (b.setWidth 8))
  else if label = 0x41#8 then some (.crcCalc a.toNat b.toNat)
  else if label = 0x42#8 then some (.crcCheck a.toNat (b.setWidth 8))
  else if label = 0x43#8 then some .crcScan
  else if label = 0x44#8 then some .crcAuxwalk
  else none

/-! ## The whole decoder -/

/-- Keep a decoded operation only if its operands are in range. -/
def inRange (i : Instr) : Except DecodeError Instr :=
  if i.wf then .ok i else .error .operandOutOfRange

/-- The operation that words stand for: total on any words, rejecting by name. -/
def decode (P : Params) : Words → Except DecodeError Instr
  | .cmd32 w => decodeCommand w
  | .tag16 pos w =>
    match decodeTag P pos w with
    | .ok i => inRange i
    | .error e => .error e
  | .ftm8 m => .ok (decodeMarker m)
  | .uop8 label a b =>
    match decodeLabel label a b with
    | some i => inRange i
    | none => .error .noSuchLabel

/-! ## The encoder -/

/-- A command word from OP and ARG (30_encoding.md R91). -/
def commandWord (op : BitVec 8) (arg : BitVec 24) : BitVec 32 := op ++ arg

/-- A tag from its high byte and a declared length of 0. -/
def tagWord (hi : Byte) : BitVec 16 := hi ++ 0x00#8

/-- The words of an operation, written from the encoding tables (30_encoding.md R92 to R94, R100, R104, R109).
Ignored bits are written 0; a fixed sub-block's tag is the constant of `P`. -/
def encode (P : Params) : Instr → Words
  | .nop => .cmd32 (commandWord 0x00 0)
  | .reset => .cmd32 (commandWord 0x01 0)
  | .cfgw c => .cmd32 (commandWord 0x02 (c.setWidth 24))
  | .spbw n d => .cmd32 (commandWord 0x03 (n ++ d))
  | .sample v => .cmd32 (commandWord 0x10 (v.setWidth 24))
  | .eos => .cmd32 (commandWord 0x11 0)
  | .bit b => .cmd32 (commandWord 0x12 ((fieldOfBit b).setWidth 24))
  | .fload idx val => .cmd32 (commandWord 0x13 ((idx ++ val).setWidth 24))
  | .frun len => .cmd32 (commandWord 0x14 (len.setWidth 24))
  | .ack => .cmd32 (commandWord 0x20 0)
  | .chkFrame => .tag16 P.posFrame P.tagFrame
  | .chkPtu => .tag16 P.posPtu P.tagPtu
  | .chkGps1 => .tag16 P.posGps1 P.tagGps1
  | .chkGps2 => .tag16 P.posGps2 P.tagGps2
  | .chkGps3 => .tag16 P.posGps3 P.tagGps3
  | .chkAux pos => .tag16 pos (tagWord P.tagAuxHi)
  | .chkZero pos => .tag16 pos (tagWord P.tagZeroHi)
  | .ftmStd => .ftm8 Config.ftStd
  | .ftmExt => .ftm8 Config.ftExt
  | .ftmOther m => .ftm8 m
  | .dscXor v i => .uop8 0x00 (v.setWidth 32) (BitVec.ofNat 32 i)
  | .demSample raw => .uop8 0x10 (raw.setWidth 32) 0
  | .demAvg raw => .uop8 0x11 (raw.setWidth 32) 0
  | .demZc y => .uop8 0x12 (wordOfSample y) 0
  | .demLen y => .uop8 0x13 (wordOfSample y) 0
  | .demEmit l => .uop8 0x14 (BitVec.ofNat 32 l.num.toNat) (BitVec.ofNat 32 (l.den - 1))
  | .demEnterint y => .uop8 0x15 (wordOfSample y) 0
  | .demInt y => .uop8 0x16 (wordOfSample y) 0
  | .demIntchk y => .uop8 0x17 (wordOfSample y) 0
  | .demLeaveint y => .uop8 0x18 (wordOfSample y) 0
  | .demVar y => .uop8 0x19 (wordOfSample y) 0
  | .demEos => .uop8 0x1A 0 0
  | .synBit b => .uop8 0x20 ((fieldOfBit b).setWidth 32) 0
  | .synShift b => .uop8 0x21 ((fieldOfBit b).setWidth 32) 0
  | .synCmp => .uop8 0x22 0 0
  | .synAcq => .uop8 0x23 0 0
  | .synPack => .uop8 0x24 0 0
  | .synByte => .uop8 0x25 0 0
  | .synScore m => .uop8 0x26 (m.setWidth 32) 0
  | .synFtm => .uop8 0x27 0 0
  | .synSusp p => .uop8 0x28 (BitVec.ofNat 32 p) 0
  | .synDone len => .uop8 0x29 (BitVec.ofNat 32 len) 0
  | .synAbort => .uop8 0x2A 0 0
  | .fecCorrect len => .uop8 0x30 (BitVec.ofNat 32 len) 0
  | .fecPad len => .uop8 0x31 (BitVec.ofNat 32 len) 0
  | .fecGather => .uop8 0x32 0 0
  | .fecDec k => .uop8 0x33 (wordOfCw k) 0
  | .eccInit sel => .uop8 0x34 (BitVec.ofNat 32 sel) 0
  | .fecForce => .uop8 0x35 0 0
  | .fecZtrail => .uop8 0x36 0 0
  | .fecScatter k => .uop8 0x37 (wordOfCw k) 0
  | .fecStat ok1 ok2 => .uop8 0x38 (wordOfBool ok1) (wordOfBool ok2)
  | .crcUpd r b => .uop8 0x40 (r.setWidth 32) (b.setWidth 32)
  | .crcCalc start n => .uop8 0x41 (BitVec.ofNat 32 start) (BitVec.ofNat 32 n)
  | .crcCheck pos hi => .uop8 0x42 (BitVec.ofNat 32 pos) (hi.setWidth 32)
  | .crcScan => .uop8 0x43 0 0
  | .crcAuxwalk => .uop8 0x44 0 0

/-! ## The opcode table's words -/

/-- Where RF holds the tag of the kind with high byte `hi`: the fixed position of a fixed kind, else the start of the
variable region (30_encoding.md R100). -/
def tagPosition (P : Params) (hi : Byte) : Nat :=
  if hi = tagHi P.tagFrame then P.posFrame
  else if hi = tagHi P.tagPtu then P.posPtu
  else if hi = tagHi P.tagGps1 then P.posGps1
  else if hi = tagHi P.tagGps2 then P.posGps2
  else if hi = tagHi P.tagGps3 then P.posGps3
  else P.posAux

/-- The words that `nbits` bits of value `w` of a row of spec/opcode_table.json stand for: 32 bits are a command word,
16 a tag at its kind's position, 8 an internal operation's label with operand words 0 or, where the value is no
label, a marker byte. The two 8-bit formats share values; a label wins (DESIGN CHOICE, log entry 4). -/
def tableWords (P : Params) (nbits w : Nat) : Option Words :=
  if nbits = 32 then some (.cmd32 (BitVec.ofNat 32 w))
  else if nbits = 16 then
    some (.tag16 (tagPosition P (tagHi (BitVec.ofNat 16 w))) (BitVec.ofNat 16 w))
  else if nbits = 8 then
    match decodeLabel (BitVec.ofNat 8 w) 0 0 with
    | some _ => some (.uop8 (BitVec.ofNat 8 w) 0 0)
    | none => some (.ftm8 (BitVec.ofNat 8 w))
  else none

/-- The operation the decoder reads from the bits `w` of a table row, with the default tag values the table prints. -/
def decodeTableWord (nbits w : Nat) : Option Instr :=
  match tableWords Config.defaultParams nbits w with
  | some ws =>
    match decode Config.defaultParams ws with
    | .ok i => some i
    | .error _ => none
  | none => none

end Sys2Proof
end

