-- ==== Sys2Proof/Machine/State.lean ====
section
/-! DEFINITION. The state of RS-CORE as plain data (10_state.md R20 to R43), its faults and refusals, and the state
after reset (R42, 70_reset_and_hazards.md R321). -/

namespace Sys2Proof.Machine

/-! ## Sparse buffers -/

/-- A buffer as (index, value) pairs. Canonical form (`cellsWf`, Memory.lean): indices strictly rising and inside the
buffer, no entry equal to what an unlisted index reads as. What an unlisted index reads as is the buffer's reset
contents (log entry 20). -/
abbrev Cells (α : Type) := List (Nat × α)

/-- A byte buffer: RF, CW1, CW2 (20_memory.md R61, R62). -/
abbrev Memory := List Host.Cell

/-- The buffers an index can fall outside of (20_memory.md R60). -/
inductive Space where
  | rf
  | cw1
  | cw2
  | vring
  | varHist
  deriving DecidableEq, Repr

/-! ## Configuration and status (10_state.md R21 to R23) -/

/-- The samples-per-bit ratio and the variance window (10_state.md R22). -/
structure Rate where
  /-- SPBN, 16 bits; 0 means "not configured". -/
  spbn : BitVec 16
  /-- SPBD, 8 bits. -/
  spbd : BitVec 8
  /-- VWIN, samples of the variance window. -/
  vwin : Nat
  deriving DecidableEq, Repr

/-- STATUS.INMODE (10_state.md R23). -/
inductive InMode where
  | none
  | samples
  | bits
  | frames
  deriving DecidableEq, Repr

/-- The stored flags of STATUS (10_state.md R23); SYNC and OUT_VALID are live copies and not stored. -/
structure Status where
  started : Bool
  eos : Bool
  cmderr : Bool
  cfgerr : Bool
  inmode : InMode
  eccReady : Bool
  deriving DecidableEq, Repr

/-! ## Demodulator (10_state.md R24 to R29) -/

/-- DEM_MODE. -/
inductive DemMode where
  | zc
  | int
  deriving DecidableEq, Repr

/-- A sign class, +1 or -1 (00_scope.md R8). -/
inductive Sign where
  | pos
  | neg
  deriving DecidableEq, Repr

/-- The demodulator's registers. -/
structure Dem where
  /-- AVG_RING, entry 0 the newest sample (10_state.md R24). -/
  avgRing : Vector (BitVec 16) Config.avgLen
  /-- DEM_MODE. -/
  mode : DemMode
  /-- RUN_SIGN. -/
  runSign : Sign
  /-- RUN_N. -/
  runN : Nat
  /-- Y_PREV. -/
  yPrev : Rat
  /-- X0. -/
  x0 : Rat
  /-- INT_SUM. -/
  intSum : Rat
  /-- INT_N. -/
  intN : Nat
  /-- INT_K. -/
  intK : Nat
  /-- VRING. -/
  vring : Cells Rat
  /-- VPOS. -/
  vpos : Nat
  /-- VS1. -/
  vs1 : Rat
  /-- VS2. -/
  vs2 : Rat
  /-- SAMPLE_COUNT. -/
  sampleCount : Nat
  deriving DecidableEq, Repr

/-! ## Synchroniser (10_state.md R27, R29 to R32) -/

/-- SYNC_STATE. -/
inductive SyncState where
  | search
  | assemble
  deriving DecidableEq, Repr

/-- The synchroniser's registers. -/
structure Syn where
  /-- BIT_COUNTER. -/
  bitCounter : Nat
  /-- CORR, entry 0 the newest bit. -/
  corr : Vector Bit3 Config.headLen
  /-- SYNC_STATE. -/
  syncState : SyncState
  /-- BYTE_INDEX. -/
  byteIndex : Nat
  /-- BIT_COUNT. -/
  bitCount : Fin 8
  /-- BITBUF, entry 0 the first received. -/
  bitbuf : Vector Bit3 8
  /-- TARGET_LEN. -/
  targetLen : Nat
  /-- SUSPECT_RUN. -/
  suspectRun : Nat
  /-- VAR_HIST. -/
  varHist : Cells Rat
  deriving DecidableEq, Repr

/-! ## FEC and CRC (10_state.md R35 to R37) -/

/-- The FEC unit's registers. -/
structure Fec where
  /-- CW1. -/
  cw1 : Memory
  /-- CW2. -/
  cw2 : Memory
  /-- ERR1. -/
  err1 : Int
  /-- ERR2. -/
  err2 : Int
  /-- FEC_STATUS. -/
  status : Int
  /-- RETRIED. -/
  retried : Bool
  deriving DecidableEq, Repr

/-- The CRC unit's registers. -/
structure Crc where
  /-- CRC_REG. -/
  reg : BitVec 16
  /-- CRC_MASK. -/
  mask : BitVec 7
  /-- AUX_COUNT. -/
  auxCount : Nat
  deriving DecidableEq, Repr

/-! ## Output (10_state.md R40) -/

/-- A FrameOut record. -/
structure FrameOut where
  seq : Nat
  len : Nat
  fecStatus : Int
  crcMask : BitVec 7
  auxCount : Nat
  retried : Bool
  ftMarker : Byte
  /-- The 518 bytes of RF, index 0 first. -/
  frame : List Byte
  deriving DecidableEq, Repr

/-- The output sequence and its counters (10_state.md R29, R40). -/
structure Output where
  /-- OUT. -/
  records : List FrameOut
  /-- RD_PTR. -/
  rdPtr : Nat
  /-- FRAME_SEQ. -/
  frameSeq : Nat
  deriving DecidableEq, Repr

/-! ## The model's own fields (log entries 2, 3, 5) -/

/-- What CRC.CHECK answers (44_crc.md R233). -/
inductive CheckResult where
  | ok
  | mismatchMarker
  | crcFail
  deriving DecidableEq, Repr

/-- The value an internal operation hands back to its caller. It is no state of RS-CORE: where the operation is run as a
step of its own, the model's port shows it (log entry 5). What 10_state.md R43 forbids as state has no constructor here:
the BitEvent of DEM.EMIT and the answer that FEC.DEC passes on live within one step only. -/
inductive Ret where
  /-- No operation with a result has been run as a step of its own. -/
  | none
  /-- DSC.XOR. -/
  | byte (b : Byte)
  /-- DEM.AVG, DEM.LEN. -/
  | rational (q : Rat)
  /-- SYN.CMP. -/
  | bool (b : Bool)
  /-- SYN.PACK: 0..255 or 0x100. -/
  | packed (v : BitVec 9)
  /-- SYN.SCORE. -/
  | score (n : Int)
  /-- CRC.UPD, CRC.CALC. -/
  | word (w : BitVec 16)
  /-- CRC.CHECK and the sub-block checks. -/
  | check (c : CheckResult)
  deriving DecidableEq, Repr

/-- What the next step is to run. Hardware knows `command` only; the others let a step run a data-selected or an
internal operation alone (log entry 3). -/
inductive Pending where
  /-- A word on the command port. -/
  | command (w : BitVec 32)
  /-- The sub-block check selected by the tag at `pos` of RF, any position with two bytes (log entry 28). -/
  | tagAt (pos : Nat)
  /-- The marker class selected by RF[POS_FTYPE]. -/
  | marker
  /-- The internal operation with this label and these operand words. -/
  | operation (label : BitVec 8) (a b : BitVec 32)
  deriving DecidableEq, Repr

/-- The model's own fields, none of them read by a rule of the spec. -/
structure Port where
  /-- The words not yet taken, the next first. -/
  pending : List Pending
  /-- The result of the last internal operation run as a step of its own. -/
  ret : Ret
  deriving DecidableEq, Repr

/-! ## The state -/

/-- The state of RS-CORE: the tuple of 10_state.md R20. Nothing else is state: what R43 lists (a sample of the stream,
a BitEvent, an answer of the ECC service) is in no field of it. -/
structure CoreState where
  /-- CFG (10_state.md R21). -/
  cfg : BitVec 8
  rate : Rate
  status : Status
  dem : Dem
  syn : Syn
  /-- RF, the RawFrame (10_state.md R33). -/
  rf : Memory
  fec : Fec
  crc : Crc
  out : Output
  deriving DecidableEq, Repr

/-- What the host's `step` takes and answers: the state of RS-CORE, the step function's parameter `P`, and the model's
own port. The last two are no state of RS-CORE (10_state.md R20, R43): they stand beside it because the host's step has
no other argument and no other result (log entries 1, 2 and 5). -/
structure State extends CoreState where
  /-- The parameter record `P`, the same after every step. -/
  par : Parameters
  /-- The command port and the value handed back, which no operation reads (Laws/Port.lean). -/
  port : Port
  deriving DecidableEq, Repr

/-! ## Faults and refusals -/

/-- Why a step stops. RS-CORE itself never stops (60_exceptions.md R296); this is the model's. -/
inductive Fault where
  /-- Raised by CRC.CALC, DEM.VAR, SYN.BYTE, SYN.SUSP, every operation that calls one of them, and the fetch of a
  tag, where an index lies outside its buffer (20_memory.md R71). No command reaches it from a state that keeps the
  invariants. Safe: nothing is claimed of an access that the spec says does not happen. -/
  | noSuchIndex (space : Space) (index : Nat)
  deriving DecidableEq, Repr

/-- Why a step has no meaning. -/
inductive Refusal where
  /-- The instruction has no meaning yet. Safe. No arm of exec answers it. -/
  | notModelled (mnemonic : String)
  /-- Raised by step where the words of the model's own injection port name no operation (log entry 3). A command
  word never gets here: an illegal one is refused by RS-CORE itself, a next state (45_host_commands.md R260). Safe. -/
  | noOperation (e : DecodeError)
  deriving DecidableEq, Repr

/-! ## Reset (10_state.md R42) -/

/-- Every piece of state at the value of the table of 10_state.md R42, for the parameter record `P`, with
STATUS.ECC_READY as given (0 during the reset sequence, 1 after it, 70_reset_and_hazards.md R321). RF lists nothing:
its reset contents, HDR_INIT and zeros, are what an unlisted index reads as. -/
def State.atReset (P : Parameters) (eccReady : Bool) (pending : List Pending) : State where
  par := P
  cfg := 0x00#8
  rate := { spbn := 0, spbd := 1, vwin := 0 }
  status := { started := false, eos := false, cmderr := false, cfgerr := false,
              inmode := .none, eccReady := eccReady }
  dem := { avgRing := Vector.replicate Config.avgLen 0, mode := .zc, runSign := .pos, runN := 0, yPrev := 0,
           x0 := 0, intSum := 0, intN := 0, intK := 0, vring := [], vpos := 0, vs1 := 0, vs2 := 0,
           sampleCount := 0 }
  syn := { bitCounter := 0, corr := Vector.replicate Config.headLen .x, syncState := .search,
           byteIndex := P.val.framestart, bitCount := 0, bitbuf := Vector.replicate 8 .zero,
           targetLen := Config.frameLen, suspectRun := 0, varHist := [] }
  rf := []
  fec := { cw1 := [], cw2 := [], err1 := 0, err2 := 0, status := 0, retried := false }
  crc := { reg := Config.crcInit, mask := 0, auxCount := 0 }
  out := { records := [], rdPtr := 0, frameSeq := 0 }
  port := { pending := pending, ret := .none }

/-- The machine right after the reset sequence of 70_reset_and_hazards.md R321, with the default parameter record and
an empty command port. -/
def State.reset : State := State.atReset Config.defaultP true []

end Sys2Proof.Machine
end

