-- ==== Sys2Proof/Machine/Memory.lean ====
section
/-! DEFINITION. The operations over the sparse buffers: what an index reads as, writing one entry, writing a run of
entries, and the canonical form (20_memory.md R60 to R63, R71). -/

namespace Sys2Proof.Machine

/-! ## One entry -/

/-- What index `a` of a buffer holds; `d` is the buffer's reset contents. -/
def cellsGet {α : Type} (d : Nat → α) : Cells α → Nat → α
  | [], a => d a
  | (k, v) :: m, a => if a = k then v else cellsGet d m a

/-- Put an entry at its place in the rising order. -/
def cellsInsert {α : Type} (a : Nat) (v : α) : Cells α → Cells α
  | [] => [(a, v)]
  | (k, w) :: m => if a < k then (a, v) :: (k, w) :: m else (k, w) :: cellsInsert a v m

/-- Drop every entry at index `a`. -/
def cellsErase {α : Type} (a : Nat) (m : Cells α) : Cells α :=
  m.filter fun e => decide (e.1 ≠ a)

/-- Write `v` at index `a`: writing what an unlisted index reads as drops the entry, so that the canonical form is
kept and equal contents are equal data. -/
def cellsSet {α : Type} [DecidableEq α] (d : Nat → α) (m : Cells α) (a : Nat) (v : α) :
    Cells α :=
  if v = d a then cellsErase a m else cellsInsert a v (cellsErase a m)

/-! ## A run of entries: the loops of the spec's pseudocode -/

/-- `for i from 0 to n-1: A[addr i] <- val i`. -/
def cellsWriteRun {α : Type} [DecidableEq α] (d : Nat → α) (m : Cells α) (n : Nat)
    (addr : Nat → Nat) (val : Nat → α) : Cells α :=
  (List.range n).foldl (fun m i => cellsSet d m (addr i) (val i)) m

/-! ## The canonical form -/

/-- Indices strictly rising, every entry accepted by `p`. -/
def cellsRising {α : Type} (p : Nat → α → Bool) : Cells α → Bool
  | [] => true
  | (k, v) :: m => p k v && m.all (fun e => decide (k < e.1)) && cellsRising p m

/-- The canonical form of a buffer of `size` entries with reset contents `d`. -/
def cellsWf {α : Type} [DecidableEq α] (d : Nat → α) (size : Nat) (m : Cells α) : Bool :=
  cellsRising (fun k v => decide (k < size) && decide (v ≠ d k)) m

/-! ## What an unlisted index reads as: the reset contents of 10_state.md R42 -/

/-- `refbyte(i)`: eight bits of REFPAT as a byte, the first on air the least significant (10_state.md R33,
20_memory.md R65). -/
def refbyte (P : Params) (i : Nat) : Byte := P.refpat.extractLsb' (8 * i) 8

/-- MASK[i mod 64], the only way MASK is read (20_memory.md R63). -/
def maskAt (P : Params) (i : Nat) : Byte :=
  P.mask[i % Config.maskLen]'(Nat.mod_lt i (by decide))

/-- HDR_INIT[i], the descrambled image of the reference pattern (10_state.md R33, 42_synchronizer.md R187). -/
def hdrInit (P : Params) (i : Nat) : Byte := refbyte P i ^^^ maskAt P i

/-- The reset contents of RF: HDR_INIT below FRAMESTART, 0 elsewhere (10_state.md R33, R42). -/
def rfReset (P : Params) (a : Nat) : Byte := if a < P.framestart then hdrInit P a else 0

/-- The reset contents of CW1 and CW2: 0 (10_state.md R35). -/
def cwReset (_ : Nat) : Byte := 0

/-- The reset contents of VRING and VAR_HIST: 0 (10_state.md R28, R32). -/
def ratReset (_ : Nat) : Rat := 0

/-- How many entries a buffer has (20_memory.md R60; VRING by its capacity, 10_state.md R28). -/
def spaceSize : Space → Nat
  | .rf => Config.frameLen
  | .cw1 => Config.cwN
  | .cw2 => Config.cwN
  | .vring => Config.vringCap
  | .varHist => Config.frameLen

/-- The canonical form of a byte buffer of `size` bytes with reset contents `d`. -/
def Memory.wf (d : Nat → Byte) (size : Nat) (m : Memory) : Bool := cellsWf d size m

end Sys2Proof.Machine
end

