-- ==== Sys2Proof/Machine/Operands.lean ====
section
/-! DEFINITION. The operand forms of 30_encoding.md R93, R94, the fields of CFG (10_state.md R21), and the exact
arithmetic of 46_arithmetic_and_sequencing.md R280 to R282. -/

namespace Sys2Proof.Machine

/-! ## The fields of CFG (10_state.md R21) -/

/-- LENMODE, with its reserved value. -/
inductive LenMode where
  | auto
  | std
  | ext
  | reserved
  deriving DecidableEq, Repr

/-- CFG.POL. -/
def cfgPol (c : BitVec 8) : Bool := c.getLsbD 0
/-- CFG.PREC. -/
def cfgPrec (c : BitVec 8) : Bool := c.getLsbD 1
/-- CFG.ALT. -/
def cfgAlt (c : BitVec 8) : Bool := c.getLsbD 2
/-- CFG.LENMODE. -/
def cfgLenMode (c : BitVec 8) : LenMode :=
  if c.extractLsb' 3 2 = 0#2 then .auto
  else if c.extractLsb' 3 2 = 1#2 then .std
  else if c.extractLsb' 3 2 = 2#2 then .ext
  else .reserved
/-- CFG.RETRY. -/
def cfgRetry (c : BitVec 8) : Bool := c.getLsbD 5
/-- CFG.AVG. -/
def cfgAvg (c : BitVec 8) : Bool := c.getLsbD 6
/-- A reserved image: bit 7 set or LENMODE = 3 (30_encoding.md R98 (b)). -/
def cfgReserved (c : BitVec 8) : Bool := c.getLsbD 7 || decide (cfgLenMode c = .reserved)

/-! ## Operands of host commands (30_encoding.md R94) -/

/-- SAMPLE: `sext_16(ARG[15:0])` (20_memory.md R67). -/
def sampleValue (v : BitVec 16) : Rat := (v.toInt : Rat)

/-- SPBW: an illegal ratio, `d = 0`, or `n < d`, or `n > 256 * d` (30_encoding.md R98 (c)). -/
def ratioIllegal (n : BitVec 16) (d : BitVec 8) : Bool :=
  decide (d.toNat = 0) || decide (n.toNat < d.toNat) || decide (256 * d.toNat < n.toNat)

/-- SPBW: the window `round_half_up(VAR_BITS * n / d)` in integers (45_host_commands.md R263). -/
def windowLength (n : BitVec 16) (d : BitVec 8) : Nat :=
  (2 * Config.varBits * n.toNat + d.toNat) / (2 * d.toNat)

/-! ## The five fixed sub-blocks -/

/-- The fixed sub-blocks of `P` in the order of their CRC_MASK bits: each position with its tag (00_scope.md R5
NSUB_FIXED, 30_encoding.md R100). -/
def fixedKinds (P : Params) : Vector (Nat × BitVec 16) Config.nsubFixed :=
  #v[(P.posFrame, P.tagFrame), (P.posPtu, P.tagPtu), (P.posGps1, P.tagGps1),
     (P.posGps2, P.tagGps2), (P.posGps3, P.tagGps3)]

/-! ## Exact arithmetic -/

/-- A shift register takes `x` at its entry 0, every other entry moves up one place and the last is dropped: CORR
(42_synchronizer.md R172) and AVG_RING (41_demodulator.md R141). -/
def shiftIn {α : Type} {n : Nat} (x : α) (v : Vector α n) : Vector α n :=
  Vector.ofFn fun i => if i.val = 0 then x else v[i.val - 1]

/-- The exact mean of the samples of a ring (41_demodulator.md R141). -/
def ringMean {n : Nat} (v : Vector (BitVec 16) n) : Rat := (v.toList.map sampleValue).sum / (n : Rat)

/-- `sgn`: zero is positive (00_scope.md R8, 41_demodulator.md R142). -/
def sgn (y : Rat) : Sign := if 0 ≤ y then .pos else .neg

/-- `round_half_up(q) = floor(q + 1/2)` (46_arithmetic_and_sequencing.md R282). -/
def roundHalfUp (q : Rat) : Int := (q + 1 / 2).floor

/-- A quotient of rationals; by zero it is a free value (log entry 7). -/
def quotient (a b : Rat) : Rat := if b = 0 then Config.quotientByZero a else a / b

/-- `(i + 1) mod VWIN`; with no ratio written it is a free value (41_demodulator.md R152, log entry 8). -/
def nextVpos (vwin vpos : Nat) : Nat :=
  if vwin = 0 then (Config.vposUnconfigured (vpos + 1)).val else (vpos + 1) % vwin

/-- CFG.POL inverts a demodulated symbol (41_demodulator.md R145, R150). -/
def applyPolarity (pol : Bool) (symbol : Bool) : Bool := if pol then !symbol else symbol

/-- A binary symbol as a member of Bit3. -/
def bit3OfBool (b : Bool) : Bit3 := if b then .one else .zero

/-- REFPAT[i] as a symbol; no symbol matches beyond the 64 (00_scope.md R9, 42_synchronizer.md R171). -/
def refSymbol (P : Params) (i : Nat) : Bit3 := bit3OfBool (P.refpat.getLsbD i)

end Sys2Proof.Machine
end

