-- ==== Sys2Proof/Machine/Flags.lean ====
section
/-! DEFINITION. Flag and score computations: the STATUS register (10_state.md R23), the frame-type score
(42_synchronizer.md R179), the FEC status (43_fec.md R211), one bit of CRC_MASK (30_encoding.md R106). -/

namespace Sys2Proof.Machine

/-- STATUS.SYNC, a live copy: 1 iff SYNC_STATE = ASSEMBLE (10_state.md R23). -/
def statusSync (s : State) : Bool := decide (s.syn.syncState = .assemble)

/-- STATUS.OUT_VALID, a live copy: 1 iff RD_PTR < length(OUT) (10_state.md R23). -/
def statusOutValid (s : State) : Bool := decide (s.out.rdPtr < s.out.records.length)

/-- The two bits of STATUS.INMODE (10_state.md R23). -/
def inModeField : InMode → BitVec 2
  | .none => 0
  | .samples => 1
  | .bits => 2
  | .frames => 3

/-- The STATUS register as the host reads it (10_state.md R23). -/
def statusWord (s : State) : BitVec 9 :=
  BitVec.ofBool (statusOutValid s) ++ BitVec.ofBool (statusSync s)
    ++ BitVec.ofBool s.status.eccReady ++ inModeField s.status.inmode
    ++ BitVec.ofBool s.status.cfgerr ++ BitVec.ofBool s.status.cmderr
    ++ BitVec.ofBool s.status.eos ++ BitVec.ofBool s.status.started

/-- `popcount(v)`: the number of set bits (00_scope.md R8). -/
def popcount {w : Nat} (v : BitVec w) : Nat :=
  ((List.range w).filter fun i => v.getLsbD i).length

/-- `SYN.SCORE(m) = popcount(m[3:0]) - popcount(m[7:4])` (42_synchronizer.md R179). -/
def frameScore (m : Byte) : Int :=
  (popcount (m.extractLsb' 0 4) : Int) - (popcount (m.extractLsb' 4 4) : Int)

/-- The status of a correction (43_fec.md R211). -/
def correctionStatus (P : Params) (ok1 ok2 : Bool) (err1 err2 : Int) : Int :=
  if ok1 && ok2 then err1 + err2
  else if !ok1 && !ok2 then P.sentBoth
  else if !ok1 then P.sentCw1
  else P.sentCw2

/-- `CRC_MASK[bit] <- 1` (30_encoding.md R106). -/
def setMaskBit (mask : BitVec 7) (bit : Nat) : BitVec 7 := mask ||| BitVec.ofNat 7 (2 ^ bit)

end Sys2Proof.Machine
end

