-- ==== Sys2Proof/Machine/Ops.lean ====
section
/-! DEFINITION. The named operations every meaning is built from: updates of one unit of the state, the byte buffers
as spaces of a state (00_scope.md R10), `refuse` and the acceptance of input commands (45_host_commands.md R260).

Taking an exception: RS-CORE has none. No condition saves state, changes a mode or transfers control, and there is
nothing to return from (60_exceptions.md R296, R297). What stands in its place is `refuse`, which records CMD_REFUSED or
CFG_FAULT in one sticky flag (R290, R295, R304). -/

namespace Sys2Proof.Machine

/-! ## Updates of one unit -/

/-- Replace CFG. -/
def State.withCfg (s : State) (c : BitVec 8) : State := { s with cfg := c }
/-- Replace the ratio registers. -/
def State.withRate (s : State) (r : Rate) : State := { s with rate := r }
/-- Replace the stored flags. -/
def State.withStatus (s : State) (t : Status) : State := { s with status := t }
/-- Replace the demodulator's registers. -/
def State.withDem (s : State) (d : Dem) : State := { s with dem := d }
/-- Replace the synchroniser's registers. -/
def State.withSyn (s : State) (y : Syn) : State := { s with syn := y }
/-- Replace RF. -/
def State.withRf (s : State) (m : Memory) : State := { s with rf := m }
/-- Replace the FEC unit's registers. -/
def State.withFec (s : State) (f : Fec) : State := { s with fec := f }
/-- Replace the CRC unit's registers. -/
def State.withCrc (s : State) (c : Crc) : State := { s with crc := c }
/-- Replace the output. -/
def State.withOut (s : State) (o : Output) : State := { s with out := o }
/-- Replace the model's own port. -/
def State.withPort (s : State) (p : Port) : State := { s with port := p }
/-- Leave the result of an internal operation in the model's own field. -/
def State.withRet (s : State) (r : Ret) : State := s.withPort { s.port with ret := r }

/-! ## Operations that can stop -/

/-- The result of an operation that may index outside a buffer (log entry 9). -/
abbrev Res (α : Type) := Except Fault α

/-- Run one operation after another, keeping the first fault. -/
def andThen {α β : Type} (r : Res α) (f : α → Res β) : Res β :=
  match r with
  | .ok a => f a
  | .error e => .error e

/-- An operation's result as the outcome of an instruction. -/
def toOutcome (r : Res State) : Host.Outcome State Fault Refusal :=
  match r with
  | .ok s => .next s
  | .error e => .fault e

/-! ## The byte buffers of a state -/

/-- RF[a]. -/
def rfByte (s : State) (a : Nat) : Byte := cellsGet (rfReset s.par.val) s.rf a

/-- `MemRead(RF, start, n)`: the bytes at start .. start+n-1, lowest index first (00_scope.md R10). -/
def rfBytes (s : State) (start n : Nat) : List Byte :=
  (List.range n).map fun i => rfByte s (start + i)

/-- `RF[a] <- v`. -/
def rfSet (s : State) (a : Nat) (v : Byte) : State :=
  s.withRf (cellsSet (rfReset s.par.val) s.rf a v)

/-- `for i from 0 to n-1: RF[addr i] <- val i`. -/
def rfWriteRun (s : State) (n : Nat) (addr : Nat → Nat) (val : Nat → Byte) : State :=
  s.withRf (cellsWriteRun (rfReset s.par.val) s.rf n addr val)

/-- `RF[a] <- v` at an index that comes from the state: it faults outside RF (20_memory.md R71, log entry 9). -/
def rfSetChecked (s : State) (a : Nat) (v : Byte) : Res State :=
  if a < Config.frameLen then .ok (rfSet s a v) else .error (.noSuchIndex .rf a)

/-- The buffer CW1 or CW2. -/
def cwCells (k : CwSel) (f : Fec) : Memory :=
  match k with
  | .cw1 => f.cw1
  | .cw2 => f.cw2

/-- CWk[i]. -/
def cwByte (k : CwSel) (s : State) (i : Nat) : Byte := cellsGet cwReset (cwCells k s.fec) i

/-- Replace the buffer CW1 or CW2. -/
def withCw (k : CwSel) (m : Memory) (s : State) : State :=
  match k with
  | .cw1 => s.withFec { s.fec with cw1 := m }
  | .cw2 => s.withFec { s.fec with cw2 := m }

/-- `for i from 0 to n-1: CWk[addr i] <- val i`. -/
def cwWriteRun (k : CwSel) (s : State) (n : Nat) (addr : Nat → Nat) (val : Nat → Byte) : State :=
  withCw k (cellsWriteRun cwReset (cwCells k s.fec) n addr val) s

/-- CWk[0..254] as the word submitted to the service (43_fec.md R203). -/
def cwWord (k : CwSel) (s : State) : Codeword := Vector.ofFn fun i => cwByte k s i.val

/-! ## Quantities computed from registers -/

/-- SPB = SPBN / SPBD as an exact rational (10_state.md R22). -/
def samplesPerBit (s : State) : Rat := quotient (s.rate.spbn.toNat : Rat) (s.rate.spbd.toNat : Rat)

/-- The scaled variance `V() = VWIN * VS2 - VS1 * VS1` (41_demodulator.md R153). -/
def scaledVariance (s : State) : Rat := (s.rate.vwin : Rat) * s.dem.vs2 - s.dem.vs1 * s.dem.vs1

/-- VAR_HIST[p]. -/
def varHistAt (s : State) (p : Nat) : Rat := cellsGet ratReset s.syn.varHist p

/-- VRING[i]. -/
def vringAt (s : State) (i : Nat) : Rat := cellsGet ratReset s.dem.vring i

/-! ## Refusal and acceptance of commands (45_host_commands.md R260) -/

/-- The two sticky flags a refused command can set (60_exceptions.md R299). -/
inductive StickyFlag where
  | cmderr
  | cfgerr
  deriving DecidableEq, Repr

/-- `refuse(F)`: set the sticky flag, change nothing else, end the command (00_scope.md R10). -/
def refuse (f : StickyFlag) (s : State) : State :=
  match f with
  | .cmderr => s.withStatus { s.status with cmderr := true }
  | .cfgerr => s.withStatus { s.status with cfgerr := true }

/-- INPUT_GUARD(mode): whether the guard refuses an input command of this mode (45_host_commands.md R260). All three of
its checks refuse with CMDERR. -/
def inputGuardRefuses (mode : InMode) (s : State) : Bool :=
  s.status.eos || s.status.cfgerr
    || (decide (s.status.inmode ≠ .none) && decide (s.status.inmode ≠ mode))

/-- INPUT_ACCEPT(mode) (45_host_commands.md R260). -/
def inputAccept (mode : InMode) (s : State) : State :=
  s.withStatus { s.status with started := true, inmode := mode }

end Sys2Proof.Machine
end

