-- ==== Sys2Proof/Machine/Crc.lean ====
section
/-! DEFINITION. The CRC-16 sub-block validator (44_crc.md) and the data-selected sub-block checks of format TAG16. -/

namespace Sys2Proof.Machine

/-! ## The checksum -/

/-- One bit of CRC.UPD (44_crc.md R230): shift left, xor the polynomial when bit 15 was set. -/
def crcShift (r : BitVec 16) : BitVec 16 :=
  if r.getLsbD 15 then (r <<< 1) ^^^ Config.crcPoly else r <<< 1

/-- `n` bits of CRC.UPD. -/
def crcShifts : Nat → BitVec 16 → BitVec 16
  | 0, r => r
  | n + 1, r => crcShifts n (crcShift r)

/-- CRC.UPD (44_crc.md R230): the byte enters at the high end, then eight bits. -/
def crcUpd (r : BitVec 16) (b : Byte) : BitVec 16 := crcShifts 8 (r ^^^ (b.setWidth 16 <<< 8))

/-- The CRC of a byte list, no final xor (44_crc.md R231). -/
def crc16 (bs : List Byte) : BitVec 16 := bs.foldl crcUpd Config.crcInit

/-- CRC.CALC over a range inside RF (44_crc.md R231): CRC_REG is left holding the result. -/
def crcRun (start n : Nat) (s : State) : State :=
  s.withCrc { s.crc with reg := crc16 (rfBytes s start n) }

/-- CRC.CALC (44_crc.md R231): `start + n ≤ 518` is the caller's to guarantee; a byte outside RF faults. -/
def crcCalc (start n : Nat) (s : State) : Res State :=
  if n = 0 ∨ start + n ≤ Config.frameLen then .ok (crcRun start n s)
  else .error (.noSuchIndex .rf (max start Config.frameLen))

/-- The stored CRC that follows `len` payload bytes of the block at `pos` (44_crc.md R232, 20_memory.md R66). -/
def storedCrc (s : State) (pos len : Nat) : BitVec 16 :=
  if s.par.val.crcStoreBe then rfByte s (pos + 2 + len) ++ rfByte s (pos + 3 + len)
  else rfByte s (pos + 3 + len) ++ rfByte s (pos + 2 + len)

/-! ## Checking one sub-block -/

/-- What a check leaves: the state (CRC_REG may have run) and the answer. -/
structure Checked where
  st : State
  res : CheckResult

/-- The declared length of the block at `pos`: its second tag byte, for fixed and variable sub-blocks alike
(30_encoding.md R99, 44_crc.md R233). -/
def declaredLen (s : State) (pos : Nat) : Nat := (rfByte s (pos + 1)).toNat

/-- CRC.CHECK (44_crc.md R233), its tests in the order written. -/
def crcCheck (pos : Nat) (hi : Byte) (s : State) : Checked :=
  if Config.frameLen ≤ pos then ⟨s, .mismatchMarker⟩
  else if rfByte s pos ≠ hi then ⟨s, .mismatchMarker⟩
  else if Config.frameLen < pos + 4 then ⟨s, .crcFail⟩
  else if Config.frameLen < pos + declaredLen s pos + 4 then ⟨s, .crcFail⟩
  else
    let t := crcRun (pos + 2) (declaredLen s pos) s
    if t.crc.reg = storedCrc s pos (declaredLen s pos) then ⟨t, .ok⟩ else ⟨t, .crcFail⟩

/-- `CRC_MASK[bit] <- 1`. -/
def maskFail (bit : Nat) (s : State) : State :=
  s.withCrc { s.crc with mask := setMaskBit s.crc.mask bit }

/-- One line of CRC.SCAN's loop (44_crc.md R234): check the block at `pos`; if it is not OK, set its mask bit. -/
def checkBlock (bit pos : Nat) (hi : Byte) (s : State) : Checked :=
  let r := crcCheck pos hi s
  if r.res = .ok then r else ⟨maskFail bit r.st, r.res⟩

/-! ## The variable region -/

/-- One pass of the loop of CRC.AUXWALK over the block at `pos` (44_crc.md R235): a good block counts, a bad one sets
bit 5. -/
def auxBlock (pos : Nat) (s : State) : Checked :=
  let r := crcCheck pos s.par.val.tagAuxHi s
  if r.res = .ok then ⟨r.st.withCrc { r.st.crc with auxCount := r.st.crc.auxCount + 1 }, .ok⟩
  else ⟨maskFail 5 r.st, r.res⟩

/-- The loop's condition: there is a byte at `pos` and it continues the chain (44_crc.md R235). -/
def auxContinues (pos : Nat) (s : State) : Bool :=
  decide (pos < Config.frameLen) && decide (rfByte s pos = s.par.val.tagAuxHi)

/-- Where the walk stands after the chain. -/
structure AuxWalk where
  st : State
  pos : Nat
  failed : Bool

/-- The chain of AUX/xdata blocks from `pos` on (44_crc.md R235); the first argument bounds the number of passes. -/
def auxChain : Nat → Nat → State → AuxWalk
  | 0, pos, s => ⟨s, pos, false⟩
  | n + 1, pos, s =>
    if auxContinues pos s then
      let r := auxBlock pos s
      if r.res = .ok then auxChain n (pos + declaredLen s pos + 4) r.st
      else ⟨r.st, pos, true⟩
    else ⟨s, pos, false⟩

/-- More passes than any chain takes: every good block has at least 4 of the 518 bytes (70_reset_and_hazards.md
R333). -/
def auxFuel : Nat := Config.frameLen / 4 + 1

/-- CRC.AUXWALK (44_crc.md R235, R236): the chain, then the zero-padding block where the chain ended; after a failed
block bit 6 is set without a check. -/
def crcAuxwalk (s : State) : State :=
  let w := auxChain auxFuel s.par.val.posAux s
  if w.failed then maskFail 6 w.st else (checkBlock 6 w.pos s.par.val.tagZeroHi w.st).st

/-! ## The scan -/

/-- The five fixed sub-blocks with their mask bits, positions and expected high tag bytes (44_crc.md R234). -/
def fixedBlocks (P : Params) : List (Nat × Nat × Byte) :=
  (List.finRange Config.nsubFixed).map fun k =>
    (k.val, (fixedKinds P)[k].1, tagHi (fixedKinds P)[k].2)

/-- CRC.SCAN (44_crc.md R234). -/
def crcScan (s : State) : State :=
  crcAuxwalk ((fixedBlocks s.par.val).foldl (fun t b => (checkBlock b.1 b.2.1 b.2.2 t).st) s)

/-! ## The operations as steps of their own -/

/-- CRC.UPD: it writes no state, its register value is handed back. -/
def execCrcUpd (r : BitVec 16) (b : Byte) (s : State) : Host.Outcome State Fault Refusal :=
  .next (s.withRet (.word (crcUpd r b)))

/-- CRC.CALC: CRC_REG and the value handed back are the CRC. -/
def execCrcCalc (start n : Nat) (s : State) : Host.Outcome State Fault Refusal :=
  toOutcome (andThen (crcCalc start n s) fun t => .ok (t.withRet (.word t.crc.reg)))

/-- CRC.CHECK. -/
def execCrcCheck (pos : Nat) (hi : Byte) (s : State) : Host.Outcome State Fault Refusal :=
  .next ((crcCheck pos hi s).st.withRet (.check (crcCheck pos hi s).res))

/-- CRC.SCAN. -/
def execCrcScan (s : State) : Host.Outcome State Fault Refusal := .next (crcScan s)

/-- CRC.AUXWALK. -/
def execCrcAuxwalk (s : State) : Host.Outcome State Fault Refusal := .next (crcAuxwalk s)

/-! ## The data-selected checks (30_encoding.md R100, log entry 18) -/

/-- A check's state with its answer handed back. -/
def checkedNext (r : Checked) : Host.Outcome State Fault Refusal := .next (r.st.withRet (.check r.res))

/-- CHK.FRAME: the Frame/ID line of CRC.SCAN (44_crc.md R234). -/
def execChkFrame (s : State) : Host.Outcome State Fault Refusal :=
  checkedNext (checkBlock 0 s.par.val.posFrame (tagHi s.par.val.tagFrame) s)

/-- CHK.PTU: the PTU line of CRC.SCAN (R234). -/
def execChkPtu (s : State) : Host.Outcome State Fault Refusal :=
  checkedNext (checkBlock 1 s.par.val.posPtu (tagHi s.par.val.tagPtu) s)

/-- CHK.GPS1: the GPS1 line of CRC.SCAN (R234). -/
def execChkGps1 (s : State) : Host.Outcome State Fault Refusal :=
  checkedNext (checkBlock 2 s.par.val.posGps1 (tagHi s.par.val.tagGps1) s)

/-- CHK.GPS2: the GPS2 line of CRC.SCAN (R234, R239). -/
def execChkGps2 (s : State) : Host.Outcome State Fault Refusal :=
  checkedNext (checkBlock 3 s.par.val.posGps2 (tagHi s.par.val.tagGps2) s)

/-- CHK.GPS3: the GPS3 line of CRC.SCAN (R234). -/
def execChkGps3 (s : State) : Host.Outcome State Fault Refusal :=
  checkedNext (checkBlock 4 s.par.val.posGps3 (tagHi s.par.val.tagGps3) s)

/-- CHK.AUX: one pass of the chain's loop at `pos` (44_crc.md R235). A byte that is not TAG_AUX_HI ends the chain
without an error: nothing is counted and no bit is set. -/
def execChkAux (pos : Nat) (s : State) : Host.Outcome State Fault Refusal :=
  if auxContinues pos s then checkedNext (auxBlock pos s)
  else .next (s.withRet (.check .mismatchMarker))

/-- CHK.ZERO: the check of the zero-padding block at `pos` (44_crc.md R236). -/
def execChkZero (pos : Nat) (s : State) : Host.Outcome State Fault Refusal :=
  checkedNext (checkBlock 6 pos s.par.val.tagZeroHi s)

end Sys2Proof.Machine
end

