-- ==== Sys2Proof/Machine/Descrambler.lean ====
section
/-! DEFINITION. The descrambler (40_descrambler.md). -/

namespace Sys2Proof.Machine

/-- DSC.XOR (40_descrambler.md R130): `v xor MASK[i mod 64]`. -/
def dscXor (P : Params) (v : Byte) (i : Nat) : Byte := v ^^^ maskAt P i

/-- DSC.XOR as a step of its own: it writes no state, its byte is handed back. -/
def execDscXor (v : Byte) (i : Nat) (s : State) : Host.Outcome State Fault Refusal :=
  .next (s.withRet (.byte (dscXor s.par.val v i)))

end Sys2Proof.Machine
end

