-- ==== Sys2Proof/Machine/Fec.lean ====
section
/-! DEFINITION. The forward error correction unit (43_fec.md). -/

namespace Sys2Proof.Machine

/-- FEC.PAD (43_fec.md R201): `RF[i] <- 0` for i from `len` to 517, the header bytes below FRAMESTART too where `len` is
that small (DEDUCED, log entry 31: R201 and R212 say so, against a remark of 10_state.md R33). -/
def fecPad (len : Nat) (s : State) : State :=
  rfWriteRun s (Config.frameLen - len) (fun i => len + i) (fun _ => 0)

/-- One codeword of FEC.GATHER (43_fec.md R202, 30_encoding.md R103): 24 parity bytes from `par` on, then every second
byte from `msg` on. -/
def gatherOne (k : CwSel) (par msg : Nat) (s : State) : State :=
  let t := cwWriteRun k s Config.cwR (fun i => i) (fun i => rfByte s (par + i))
  cwWriteRun k t Config.cwK (fun j => Config.cwR + j) (fun j => rfByte s (msg + 2 * j))

/-- FEC.GATHER (43_fec.md R202). -/
def fecGather (s : State) : State :=
  gatherOne .cw2 (s.par.val.parpos + Config.cwR) (s.par.val.msgpos + 1)
    (gatherOne .cw1 s.par.val.parpos s.par.val.msgpos s)

/-- What a decode leaves: the state and the pair `(ok, err)`. -/
structure Decoded where
  st : State
  ok : Bool
  err : Int

/-- FEC.DEC (43_fec.md R203): submit one codeword; on `Corrected` the word is copied back, on failure nothing is. -/
def fecDec (ecc : Ecc) (k : CwSel) (s : State) : Decoded :=
  match ecc s.status.eccReady (cwWord k s) with
  | .corrected word e =>
    ⟨cwWriteRun k s Config.cwN (fun i => i) (fun i => word[i]?.getD 0), true, (e.val : Int)⟩
  | .failure => ⟨s, false, -1⟩

/-- ECC.INIT (43_fec.md R205). The service itself is outside; the selector is opaque to RS-CORE. -/
def eccInit (_sel : Nat) (s : State) : State := s.withStatus { s.status with eccReady := true }

/-- FEC.FORCE (43_fec.md R207): for each fixed sub-block `RF[pos] <- tag[15:8]; RF[pos + 1] <- tag[7:0]`, below FRAMESTART
too where `P` puts one there (log entry 31). -/
def fecForce (s : State) : State :=
  (fixedKinds s.par.val).toList.foldl
    (fun t e => rfSet (rfSet t e.1 (tagHi e.2)) (e.1 + 1) (tagLo e.2)) s

/-- FEC.ZTRAIL (43_fec.md R208): zero [RETRY_ZERO_LO, RETRY_ZERO_HI), below FRAMESTART too where `P` says so (log entry
31). -/
def fecZtrail (s : State) : State :=
  rfWriteRun s (s.par.val.retryZeroHi - s.par.val.retryZeroLo)
    (fun i => s.par.val.retryZeroLo + i) (fun _ => 0)

/-- The offset of a codeword's bytes in RF (43_fec.md R210). -/
def cwOffset : CwSel → Nat
  | .cw1 => 0
  | .cw2 => 1

/-- FEC.SCATTER (43_fec.md R210): the inverse index map of the gather, below FRAMESTART too where PARPOS lies there (log
entry 31). -/
def fecScatter (k : CwSel) (s : State) : State :=
  let t := rfWriteRun s Config.cwR (fun i => s.par.val.parpos + Config.cwR * cwOffset k + i)
    (fun i => cwByte k s i)
  rfWriteRun t Config.cwK (fun j => s.par.val.msgpos + 2 * j + cwOffset k)
    (fun j => cwByte k s (Config.cwR + j))

/-- FEC.STAT (43_fec.md R211). -/
def fecStat (ok1 ok2 : Bool) (s : State) : State :=
  s.withFec { s.fec with status := correctionStatus s.par.val ok1 ok2 s.fec.err1 s.fec.err2 }

/-- What one pass leaves. -/
structure FecPass where
  st : State
  ok1 : Bool
  ok2 : Bool

/-- Gather both codewords and decode them, codeword 1 first; the results go to ERR1 and ERR2 (43_fec.md R200, R209,
20_memory.md R76). -/
def fecPass (ecc : Ecc) (s : State) : FecPass :=
  let r1 := fecDec ecc .cw1 (fecGather s)
  let s1 := r1.st.withFec { r1.st.fec with err1 := r1.err }
  let r2 := fecDec ecc .cw2 s1
  ⟨r2.st.withFec { r2.st.fec with err2 := r2.err }, r1.ok, r2.ok⟩

/-- Whether the retry reads the marker in RF as that of a standard frame (43_fec.md R208). -/
def looksStandard (s : State) : Bool :=
  decide (s.par.val.ftRetryStdMin ≤ frameScore (rfByte s s.par.val.posFtype))

/-- The header-assisted retry (43_fec.md R206 to R209). -/
def fecRetry (ecc : Ecc) (s : State) : FecPass :=
  let s1 := fecForce (s.withFec { s.fec with retried := true })
  fecPass ecc (if looksStandard s1 then fecZtrail s1 else s1)

/-- Write back the codewords that decoded, then compute the status (43_fec.md R200, R210, R211). -/
def fecFinish (p : FecPass) : State :=
  let s1 := if p.ok1 then fecScatter .cw1 p.st else p.st
  let s2 := if p.ok2 then fecScatter .cw2 s1 else s1
  fecStat p.ok1 p.ok2 s2

/-- FEC.CORRECT (43_fec.md R200). -/
def fecCorrect (ecc : Ecc) (len : Nat) (s : State) : State :=
  let p := fecPass ecc (fecPad (min len Config.frameLen) s)
  let s1 := p.st.withFec { p.st.fec with retried := false }
  if cfgRetry s.cfg && !p.ok1 && !p.ok2 then fecFinish (fecRetry ecc s1)
  else fecFinish ⟨s1, p.ok1, p.ok2⟩

/-! ## The operations as steps of their own -/

/-- FEC.CORRECT. -/
def execFecCorrect (len : Nat) (s : State) : Host.Outcome State Fault Refusal :=
  .next (fecCorrect Config.eccDecode len s)

/-- FEC.PAD. -/
def execFecPad (len : Nat) (s : State) : Host.Outcome State Fault Refusal := .next (fecPad len s)

/-- FEC.GATHER. -/
def execFecGather (s : State) : Host.Outcome State Fault Refusal := .next (fecGather s)

/-- FEC.DEC: the corrected word is in CWk. The pair `(ok, err)` is the service's answer, a value within the step
(`fecDec`) that is never stored (10_state.md R43): FEC.CORRECT writes the counts to ERR1 and ERR2. -/
def execFecDec (k : CwSel) (s : State) : Host.Outcome State Fault Refusal :=
  .next (fecDec Config.eccDecode k s).st

/-- ECC.INIT. -/
def execEccInit (sel : Nat) (s : State) : Host.Outcome State Fault Refusal := .next (eccInit sel s)

/-- FEC.FORCE. -/
def execFecForce (s : State) : Host.Outcome State Fault Refusal := .next (fecForce s)

/-- FEC.ZTRAIL. -/
def execFecZtrail (s : State) : Host.Outcome State Fault Refusal := .next (fecZtrail s)

/-- FEC.SCATTER. -/
def execFecScatter (k : CwSel) (s : State) : Host.Outcome State Fault Refusal :=
  .next (fecScatter k s)

/-- FEC.STAT. -/
def execFecStat (ok1 ok2 : Bool) (s : State) : Host.Outcome State Fault Refusal :=
  .next (fecStat ok1 ok2 s)

end Sys2Proof.Machine
end

