-- ==== Sys2Proof/Machine/Synchronizer.lean ====
section
/-! DEFINITION. The preamble correlator, frame synchroniser and byte assembler (42_synchronizer.md), and the
data-selected marker classes of format FTM8. -/

namespace Sys2Proof.Machine

/-! ## One bit -/

/-- SYN.SHIFT (42_synchronizer.md R172): `CORR[i] <- CORR[i-1]`, `CORR[0] <- b`. -/
def synShift (b : Bit3) (s : State) : State :=
  s.withSyn { s.syn with
    corr := shiftIn b s.syn.corr }

/-- SYN.CMP (42_synchronizer.md R173): all 32 symbols equal the window of the reference pattern, the newest against
the last. -/
def synCmp (s : State) : Bool :=
  (List.finRange Config.headLen).all fun i =>
    decide (s.syn.corr[i] = refSymbol s.par.val (s.par.val.headofs + (Config.headLen - 1) - i.val))

/-- The target length at acquisition (42_synchronizer.md R174, R178). -/
def initialTarget (c : BitVec 8) : Nat :=
  if cfgLenMode c = .std then Config.ndataLen else Config.frameLen

/-- SYN.ACQ (42_synchronizer.md R174). -/
def synAcq (s : State) : State :=
  s.withSyn { s.syn with
    syncState := .assemble, byteIndex := s.par.val.framestart, bitCount := 0, suspectRun := 0,
    targetLen := initialTarget s.cfg }

/-! ## One byte -/

/-- The value of eight symbols, the first received the least significant; none is X. -/
def packBits (v : Vector Bit3 8) : BitVec 9 :=
  BitVec.ofNat 9 (((List.finRange 8).map fun j => if v[j] = .one then 2 ^ j.val else 0).sum)

/-- SYN.PACK (42_synchronizer.md R175): 0x100 if a symbol is X, else the byte. -/
def synPack (s : State) : BitVec 9 :=
  if (List.finRange 8).any fun j => decide (s.syn.bitbuf[j] = .x) then 0x100#9
  else packBits s.syn.bitbuf

/-- The raw byte: a packed 0x100 is treated as 0 (42_synchronizer.md R176, R177). -/
def rawByte (v : BitVec 9) : Byte := if v = 0x100#9 then 0 else v.setWidth 8

/-! ## Frame-length control -/

/-- SYN.FTM (42_synchronizer.md R180): the hard length decision; it runs only when LENMODE is AUTO, a forced length is
left alone (R178). -/
def synFtm (s : State) : State :=
  if cfgLenMode s.cfg = .auto then
    if rfByte s s.par.val.posFtype = Config.ftStd then
      s.withSyn { s.syn with targetLen := Config.ndataLen }
    else if rfByte s s.par.val.posFtype = Config.ftExt then
      s.withSyn { s.syn with targetLen := Config.frameLen }
    else s
  else s

/-- Whether the byte at `p` is suspect, once its variance is recorded (42_synchronizer.md R182). -/
def isSuspect (p : Nat) (s : State) : Bool :=
  decide (Config.ndataLen ≤ p) && decide (s.par.val.framestart + Config.varLag ≤ p)
    && decide ((Config.varRatioNum : Rat) * varHistAt s (p - Config.varLag)
        < (Config.varRatioDen : Rat) * varHistAt s p)

/-- Whether the marker in RF made no hard decision: `|score| < 4` (42_synchronizer.md R182). -/
def scoreOpen (s : State) : Bool :=
  decide ((frameScore (rfByte s s.par.val.posFtype)).natAbs < 4)

/-- Count or clear the suspect run, and truncate when it is full (42_synchronizer.md R182). -/
def judgeSuspect (p : Nat) (s : State) : State :=
  let run := if isSuspect p s then min Config.suspectMax (s.syn.suspectRun + 1) else 0
  let t := s.withSyn { s.syn with suspectRun := run }
  if Config.suspectMax ≤ run ∧ cfgLenMode s.cfg = .auto ∧ scoreOpen s = true then
    t.withSyn { t.syn with targetLen := max Config.ndataLen (p + 1 - Config.suspectMax) }
  else t

/-- `VAR_HIST[p] <- V()` (42_synchronizer.md R181). -/
def recordVariance (p : Nat) (s : State) : State :=
  s.withSyn { s.syn with varHist := cellsSet ratReset s.syn.varHist p (scaledVariance s) }

/-- SYN.SUSP (42_synchronizer.md R181, R182): it runs only when CFG.ALT = 1; an index outside VAR_HIST faults. -/
def synSusp (p : Nat) (s : State) : Res State :=
  if cfgAlt s.cfg then
    if p < Config.frameLen then .ok (judgeSuspect p (recordVariance p s))
    else .error (.noSuchIndex .varHist p)
  else .ok s

/-! ## End of a frame -/

/-- The sequencing state of the preamble search (42_synchronizer.md R184, R185). -/
def backToSearch (s : State) : State :=
  s.withSyn { s.syn with
    syncState := .search, byteIndex := s.par.val.framestart, bitCount := 0 }

/-- The record of the frame now in RF (42_synchronizer.md R184, 10_state.md R40). -/
def frameRecord (len : Nat) (s : State) : FrameOut where
  seq := s.out.frameSeq
  len := len
  fecStatus := s.fec.status
  crcMask := s.crc.mask
  auxCount := s.crc.auxCount
  retried := s.fec.retried
  ftMarker := rfByte s s.par.val.posFtype
  frame := rfBytes s 0 Config.frameLen

/-- `emit OUT(rec)` and count the frame (42_synchronizer.md R184). -/
def emitRecord (len : Nat) (s : State) : State :=
  s.withOut { s.out with
    records := s.out.records ++ [frameRecord len s], frameSeq := s.out.frameSeq + 1 }

/-- SYN.DONE (42_synchronizer.md R184): clear the CRC results, correct, scan, emit, search again. -/
def synDone (ecc : Ecc) (len : Nat) (s : State) : State :=
  let n := min len Config.frameLen
  let s1 := s.withCrc { s.crc with mask := 0, auxCount := 0 }
  backToSearch (emitRecord n (crcScan (fecCorrect ecc n s1)))

/-- SYN.ABORT (42_synchronizer.md R185). -/
def synAbort (s : State) : State := backToSearch s

/-- The frame completion test after a stored byte (42_synchronizer.md R177, R183). -/
def completeIfFull (ecc : Ecc) (s : State) : State :=
  if s.syn.targetLen ≤ s.syn.byteIndex then synDone ecc s.syn.targetLen s else s

/-- The marker's decision, taken when byte `p` is the marker (42_synchronizer.md R177). -/
def markerDecision (p : Nat) (s : State) : State :=
  if cfgLenMode s.cfg = .auto ∧ p = s.par.val.posFtype then synFtm s else s

/-- SYN.BYTE (42_synchronizer.md R177); a byte index outside RF faults. -/
def synByte (ecc : Ecc) (s : State) : Res State :=
  let p := s.syn.byteIndex
  andThen (rfSetChecked s p (dscXor s.par.val (rawByte (synPack s)) p)) fun s1 =>
    let s2 := s1.withSyn { s1.syn with byteIndex := p + 1 }
    andThen (synSusp p s2) fun s3 => .ok (completeIfFull ecc (markerDecision p s3))

/-- The ASSEMBLE branch of SYN.BIT: collect the bit, finish the byte on the eighth (42_synchronizer.md R170). -/
def collectBit (ecc : Ecc) (b : Bit3) (s : State) : Res State :=
  let s1 := s.withSyn { s.syn with bitbuf := s.syn.bitbuf.set s.syn.bitCount.val b }
  if s.syn.bitCount.val = 7 then synByte ecc (s1.withSyn { s1.syn with bitCount := 0 })
  else .ok (s1.withSyn { s1.syn with bitCount := s.syn.bitCount + 1 })

/-- SYN.BIT (42_synchronizer.md R170). -/
def synBit (ecc : Ecc) (b : Bit3) (s : State) : Res State :=
  let s1 := synShift b (s.withSyn { s.syn with bitCounter := s.syn.bitCounter + 1 })
  match s.syn.syncState with
  | .search => .ok (if synCmp s1 then synAcq s1 else s1)
  | .assemble => collectBit ecc b s1

/-- `repeat n times: call SYN.BIT(b)` (41_demodulator.md R143, R146). -/
def synBits (ecc : Ecc) (b : Bit3) : Nat → State → Res State
  | 0, s => .ok s
  | n + 1, s => andThen (synBit ecc b s) (synBits ecc b n)

/-! ## The operations as steps of their own -/

/-- SYN.BIT. -/
def execSynBit (b : Bit3) (s : State) : Host.Outcome State Fault Refusal :=
  toOutcome (synBit Config.eccDecode b s)

/-- SYN.SHIFT. -/
def execSynShift (b : Bit3) (s : State) : Host.Outcome State Fault Refusal := .next (synShift b s)

/-- SYN.CMP: it writes no state, its Boolean is handed back. -/
def execSynCmp (s : State) : Host.Outcome State Fault Refusal := .next (s.withRet (.bool (synCmp s)))

/-- SYN.ACQ. -/
def execSynAcq (s : State) : Host.Outcome State Fault Refusal := .next (synAcq s)

/-- SYN.PACK: it writes no state, its value is handed back. -/
def execSynPack (s : State) : Host.Outcome State Fault Refusal :=
  .next (s.withRet (.packed (synPack s)))

/-- SYN.BYTE. -/
def execSynByte (s : State) : Host.Outcome State Fault Refusal :=
  toOutcome (synByte Config.eccDecode s)

/-- SYN.SCORE: it writes no state, its score is handed back. -/
def execSynScore (m : Byte) (s : State) : Host.Outcome State Fault Refusal :=
  .next (s.withRet (.score (frameScore m)))

/-- SYN.FTM. -/
def execSynFtm (s : State) : Host.Outcome State Fault Refusal := .next (synFtm s)

/-- SYN.SUSP. -/
def execSynSusp (p : Nat) (s : State) : Host.Outcome State Fault Refusal := toOutcome (synSusp p s)

/-- SYN.DONE. -/
def execSynDone (len : Nat) (s : State) : Host.Outcome State Fault Refusal :=
  .next (synDone Config.eccDecode len s)

/-- SYN.ABORT. -/
def execSynAbort (s : State) : Host.Outcome State Fault Refusal := .next (synAbort s)

/-! ## The marker classes (30_encoding.md R104, 42_synchronizer.md R180) -/

/-- The length a hard decision gives, while LENMODE is AUTO (42_synchronizer.md R178, R180). -/
def decideLength (len : Nat) (s : State) : State :=
  if cfgLenMode s.cfg = .auto then s.withSyn { s.syn with targetLen := len } else s

/-- FTM.STD: the marker 0x0F selects 320. -/
def execFtmStd (s : State) : Host.Outcome State Fault Refusal :=
  .next (decideLength Config.ndataLen s)

/-- FTM.EXT: the marker 0xF0 selects 518. -/
def execFtmExt (s : State) : Host.Outcome State Fault Refusal :=
  .next (decideLength Config.frameLen s)

/-- FTM.OTHER: any other marker makes no length decision and yields only its score, which is handed back. -/
def execFtmOther (m : Byte) (s : State) : Host.Outcome State Fault Refusal :=
  .next (s.withRet (.score (frameScore m)))

end Sys2Proof.Machine
end

