-- ==== Sys2Proof/Machine/Demodulator.lean ====
section
/-! DEFINITION. The bitstream demodulator (41_demodulator.md). -/

namespace Sys2Proof.Machine

/-! ## The moving average and the variance tracker -/

/-- A filtered sample with the state after it. -/
structure Filtered where
  st : State
  y : Rat

/-- DEM.AVG (41_demodulator.md R141): the exact mean of the last three samples. -/
def demAvg (raw : BitVec 16) (s : State) : Filtered :=
  ⟨s.withDem { s.dem with avgRing := shiftIn raw s.dem.avgRing },
    ringMean (shiftIn raw s.dem.avgRing)⟩

/-- DEM.VAR (41_demodulator.md R152); a position outside VRING faults. -/
def demVar (y : Rat) (s : State) : Res State :=
  if s.dem.vpos < Config.vringCap then
    .ok (s.withDem { s.dem with
      vring := cellsSet ratReset s.dem.vring s.dem.vpos y
      vpos := nextVpos s.rate.vwin s.dem.vpos
      vs1 := s.dem.vs1 + y - vringAt s s.dem.vpos
      vs2 := s.dem.vs2 + y * y - vringAt s s.dem.vpos * vringAt s s.dem.vpos })
  else .error (.noSuchIndex .vring s.dem.vpos)

/-! ## Zero-crossing mode -/

/-- A BitEvent (30_encoding.md R108): a value passed from DEM to SYN within one step, which nothing stores (10_state.md
R43). -/
structure BitEvent where
  /-- The symbol, 1 or 0. -/
  symbol : Bool
  /-- The run length in whole samples. -/
  durationSamples : Nat
  /-- The number of bits the run stands for. -/
  count : Int
  deriving DecidableEq, Repr

/-- A run length with the state after it. -/
structure Measured where
  st : State
  len : Rat

/-- DEM.LEN (41_demodulator.md R144): RUN_N / SPB, or in precision mode the interpolated length, which also moves
X0. -/
def demLen (y : Rat) (s : State) : Measured :=
  if cfgPrec s.cfg then
    let x1 := quotient y (y - s.dem.yPrev)
    ⟨s.withDem { s.dem with x0 := x1 },
      quotient ((s.dem.runN : Rat) + s.dem.x0 - x1) (samplesPerBit s)⟩
  else ⟨s, quotient (s.dem.runN : Rat) (samplesPerBit s)⟩

/-- DEM.EMIT (41_demodulator.md R145): the BitEvent of the ended run. -/
def demEmit (l : Rat) (s : State) : BitEvent where
  symbol := applyPolarity (cfgPol s.cfg) (decide (s.dem.runSign = .pos))
  durationSamples := s.dem.runN
  count := roundHalfUp l

/-- `y` is the first sample of a run (41_demodulator.md R143). -/
def startRun (y : Rat) (s : State) : State :=
  s.withDem { s.dem with runSign := sgn y, runN := 1, yPrev := y }

/-- The run goes on with `y` (41_demodulator.md R143). -/
def extendRun (y : Rat) (s : State) : State :=
  s.withDem { s.dem with runN := s.dem.runN + 1, yPrev := y }

/-! ## Integrate mode -/

/-- DEM.LEAVEINT (41_demodulator.md R151). -/
def demLeaveint (y : Rat) (s : State) : State :=
  s.withDem { s.dem with mode := .zc, runSign := sgn y, runN := 1, yPrev := y, x0 := 0 }

/-- The quota of the bit being integrated is reached: `INT_N * SPBD >= INT_K * SPBN` (41_demodulator.md R149). -/
def quotaReached (s : State) : Bool :=
  decide (s.dem.intK * s.rate.spbn.toNat ≤ s.dem.intN * s.rate.spbd.toNat)

/-- The integrate-mode decision: 1 iff the sum is ≥ 0, inverted by POL (41_demodulator.md R149, R150). -/
def integratedSymbol (s : State) : Bool := applyPolarity (cfgPol s.cfg) (decide (0 ≤ s.dem.intSum))

/-- How many samples the bit being closed has integrated: those counted since the previous bit's quota, `ceil((INT_K -
1) * SPB)` samples after the mode was entered (30_encoding.md R108, 41_demodulator.md R149). DEDUCED (log entry 29): the
rules name the number and no register holds it. -/
def integratedSamples (s : State) : Nat :=
  s.dem.intN - (((s.dem.intK - 1 : Nat) : Rat) * samplesPerBit s).ceil.toNat

/-- The BitEvent of an integrated bit, whose count is 1 (30_encoding.md R108, 41_demodulator.md R150). -/
def integratedEvent (s : State) : BitEvent where
  symbol := integratedSymbol s
  durationSamples := integratedSamples s
  count := 1

/-- DEM.INTCHK (41_demodulator.md R149). -/
def demIntchk (ecc : Ecc) (y : Rat) (s : State) : Res State :=
  if quotaReached s then
    let s1 := s.withDem { s.dem with intSum := 0, intK := s.dem.intK + 1 }
    andThen (synBit ecc (bit3OfBool (integratedEvent s).symbol) s1) fun s2 =>
      .ok (if s2.syn.syncState = .search then demLeaveint y s2 else s2)
  else .ok s

/-- DEM.ENTERINT (41_demodulator.md R147). -/
def demEnterint (ecc : Ecc) (y : Rat) (s : State) : Res State :=
  demIntchk ecc y (s.withDem { s.dem with mode := .int, intSum := y, intN := 1, intK := 1 })

/-- DEM.INT (41_demodulator.md R148). -/
def demInt (ecc : Ecc) (y : Rat) (s : State) : Res State :=
  demIntchk ecc y (s.withDem { s.dem with intSum := s.dem.intSum + y, intN := s.dem.intN + 1 })

/-- The flip branch of DEM.ZC: the run has ended, its bits are delivered, and integrate mode may begin
(41_demodulator.md R143, R146, R147). A negative count, which no run has (R155 (e)), delivers no bit. -/
def endRun (ecc : Ecc) (y : Rat) (s : State) : Res State :=
  let m := demLen y s
  let ev := demEmit m.len m.st
  andThen (synBits ecc (bit3OfBool ev.symbol) ev.count.toNat (startRun y m.st)) fun s2 =>
    if cfgAlt s2.cfg = true ∧ s2.syn.syncState = .assemble then demEnterint ecc y s2 else .ok s2

/-- DEM.ZC (41_demodulator.md R143). -/
def demZc (ecc : Ecc) (y : Rat) (s : State) : Res State :=
  if s.dem.runN = 0 then .ok (startRun y s)
  else if sgn y = s.dem.runSign then .ok (extendRun y s)
  else endRun ecc y s

/-! ## One sample, end of stream -/

/-- The optional filter (41_demodulator.md R140, R141). -/
def filterSample (raw : BitVec 16) (s : State) : Filtered :=
  if cfgAvg s.cfg then demAvg raw s else ⟨s, sampleValue raw⟩

/-- The variance tracker sees a sample only when CFG.ALT = 1 (41_demodulator.md R140). -/
def trackVariance (y : Rat) (s : State) : Res State := if cfgAlt s.cfg then demVar y s else .ok s

/-- DEM.SAMPLE (41_demodulator.md R140). -/
def demSample (ecc : Ecc) (raw : BitVec 16) (s : State) : Res State :=
  let f := filterSample raw s
  let s1 := f.st.withDem { f.st.dem with sampleCount := f.st.dem.sampleCount + 1 }
  andThen (trackVariance f.y s1) fun s2 =>
    match s2.dem.mode with
    | .zc => demZc ecc f.y s2
    | .int => demInt ecc f.y s2

/-- DEM.EOS (41_demodulator.md R154): open runs and bits emit nothing. -/
def demEos (s : State) : State := s.withDem { s.dem with mode := .zc }

/-! ## The operations as steps of their own -/

/-- DEM.SAMPLE. -/
def execDemSample (raw : BitVec 16) (s : State) : Host.Outcome State Fault Refusal :=
  toOutcome (demSample Config.eccDecode raw s)

/-- DEM.AVG: the filtered sample is handed back. -/
def execDemAvg (raw : BitVec 16) (s : State) : Host.Outcome State Fault Refusal :=
  .next ((demAvg raw s).st.withRet (.rational (demAvg raw s).y))

/-- DEM.ZC. -/
def execDemZc (y : Rat) (s : State) : Host.Outcome State Fault Refusal :=
  toOutcome (demZc Config.eccDecode y s)

/-- DEM.LEN: the run length is handed back. -/
def execDemLen (y : Rat) (s : State) : Host.Outcome State Fault Refusal :=
  .next ((demLen y s).st.withRet (.rational (demLen y s).len))

/-- DEM.EMIT: it writes no state. The event it returns is `demEmit l s`, a value within the step that nothing stores
(10_state.md R43, 30_encoding.md R108): run alone it has no caller to take it (log entry 5). -/
def execDemEmit (_l : Rat) (s : State) : Host.Outcome State Fault Refusal := .next s

/-- DEM.ENTERINT. -/
def execDemEnterint (y : Rat) (s : State) : Host.Outcome State Fault Refusal :=
  toOutcome (demEnterint Config.eccDecode y s)

/-- DEM.INT. -/
def execDemInt (y : Rat) (s : State) : Host.Outcome State Fault Refusal :=
  toOutcome (demInt Config.eccDecode y s)

/-- DEM.INTCHK. -/
def execDemIntchk (y : Rat) (s : State) : Host.Outcome State Fault Refusal :=
  toOutcome (demIntchk Config.eccDecode y s)

/-- DEM.LEAVEINT. -/
def execDemLeaveint (y : Rat) (s : State) : Host.Outcome State Fault Refusal :=
  .next (demLeaveint y s)

/-- DEM.VAR. -/
def execDemVar (y : Rat) (s : State) : Host.Outcome State Fault Refusal := toOutcome (demVar y s)

/-- DEM.EOS. -/
def execDemEos (s : State) : Host.Outcome State Fault Refusal := .next (demEos s)

end Sys2Proof.Machine
end

