-- ==== Sys2Proof/Machine/HostCommands.lean ====
section
/-! DEFINITION. The ten host commands (45_host_commands.md). Every one of them answers a next state unless an index
falls outside its buffer: refusing a command is a next state (R260). -/

namespace Sys2Proof.Machine

/-- The reset sequence (70_reset_and_hazards.md R321): every piece of state at its reset value with ECC_READY = 0, then
ECC.INIT with the selector of `P`. The parameter record and the words still waiting on the port are not affected. -/
def resetSequence (s : State) : State :=
  eccInit s.par.val.eccSelector (State.atReset s.par false s.port.pending)

/-- NOP (45_host_commands.md R261). -/
def execNop (s : State) : Host.Outcome State Fault Refusal := .next s

/-- RESET (R262). -/
def execReset (s : State) : Host.Outcome State Fault Refusal := .next (resetSequence s)

/-- CFGW (R264): locked once the session has started; reserved images are a configuration fault. -/
def execCfgw (c : BitVec 8) (s : State) : Host.Outcome State Fault Refusal :=
  if s.status.started then .next (refuse .cmderr s)
  else if cfgReserved c then .next (refuse .cfgerr s)
  else .next (s.withCfg c)

/-- Write the ratio registers and empty the variance window (R263). -/
def writeRate (n : BitVec 16) (d : BitVec 8) (s : State) : State :=
  (s.withRate { spbn := n, spbd := d, vwin := windowLength n d }).withDem
    { s.dem with vring := [], vpos := 0, vs1 := 0, vs2 := 0 }

/-- SPBW (R263). -/
def execSpbw (n : BitVec 16) (d : BitVec 8) (s : State) : Host.Outcome State Fault Refusal :=
  if s.status.started then .next (refuse .cmderr s)
  else if ratioIllegal n d then .next (refuse .cfgerr s)
  else .next (writeRate n d s)

/-- SAMPLE (R265). -/
def execSample (v : BitVec 16) (s : State) : Host.Outcome State Fault Refusal :=
  if inputGuardRefuses .samples s then .next (refuse .cmderr s)
  else if s.rate.spbn = 0 then .next (refuse .cfgerr s)
  else toOutcome (demSample Config.eccDecode v (inputAccept .samples s))

/-- EOS (R269): the second one does nothing. -/
def execEos (s : State) : Host.Outcome State Fault Refusal :=
  if s.status.eos then .next s
  else .next (synAbort (demEos (s.withStatus { s.status with eos := true })))

/-- BIT (R266). -/
def execBit (b : Bit3) (s : State) : Host.Outcome State Fault Refusal :=
  if inputGuardRefuses .bits s then .next (refuse .cmderr s)
  else toOutcome (synBit Config.eccDecode b (inputAccept .bits s))

/-- FLOAD (R267): the byte is stored as it is. -/
def execFload (idx : BitVec 10) (val : Byte) (s : State) : Host.Outcome State Fault Refusal :=
  if inputGuardRefuses .frames s then .next (refuse .cmderr s)
  else if Config.frameLen ≤ idx.toNat then .next (refuse .cmderr s)
  else .next (rfSet (inputAccept .frames s) idx.toNat val)

/-- FRUN (R268). -/
def execFrun (len : BitVec 10) (s : State) : Host.Outcome State Fault Refusal :=
  if inputGuardRefuses .frames s then .next (refuse .cmderr s)
  else .next (synDone Config.eccDecode (min len.toNat Config.frameLen) (inputAccept .frames s))

/-- ACK (R270). -/
def execAck (s : State) : Host.Outcome State Fault Refusal :=
  if s.out.rdPtr < s.out.records.length then .next (s.withOut { s.out with rdPtr := s.out.rdPtr + 1 })
  else .next s

end Sys2Proof.Machine
end

