-- ==== Sys2Proof/Machine/OutputPort.lean ====
section
/-! DEFINITION. The read-only output port (45_host_commands.md R271) and the conditions of 60_exceptions.md R290 as the
flags and fields that record them. Reading changes nothing: these are functions of a state. -/

namespace Sys2Proof.Machine

/-- The header word of a record (30_encoding.md R107). `fec_status` is the status in 8 bits of two's complement: the
gate on `P` (`Params.sentinelsOk`, log entry 27) keeps every status a command computes inside them; of a number outside
them, which no record a command emits holds, the low 8 bits stand here (the model's choice). -/
def headerWord (r : FrameOut) : BitVec 64 :=
  BitVec.ofNat 32 r.seq ++ 1#1 ++ r.crcMask ++ BitVec.ofInt 8 r.fecStatus
    ++ BitVec.ofNat 5 (min r.auxCount 31) ++ BitVec.ofBool r.retried ++ BitVec.ofNat 10 r.len

/-- The record at the head of the output, while OUT_VALID = 1. -/
def headRecord (s : State) : Option FrameOut := s.out.records[s.out.rdPtr]?

/-- What the host can observe between two commands (45_host_commands.md R271). -/
structure Observation where
  /-- (a) STATUS. -/
  status : BitVec 9
  /-- (b) the header word and the 518 frame bytes of the head record. -/
  head : Option (BitVec 64 × List Byte)
  /-- (c) SAMPLE_COUNT. -/
  sampleCount : Nat
  /-- (c) BIT_COUNTER. -/
  bitCounter : Nat
  /-- (c) FRAME_SEQ. -/
  frameSeq : Nat
  /-- (d) ERR1. -/
  err1 : Int
  /-- (d) ERR2. -/
  err2 : Int
  /-- (d) RETRIED, the register itself (60_exceptions.md R302 names it among the debug observables, log entry 30). -/
  retried : Bool
  /-- (d) SUSPECT_RUN. -/
  suspectRun : Nat
  /-- (d) TARGET_LEN. -/
  targetLen : Nat
  /-- (d) BYTE_INDEX. -/
  byteIndex : Nat
  /-- (d) BIT_COUNT. -/
  bitCount : Nat
  deriving DecidableEq, Repr

/-- Reading the output port (45_host_commands.md R271). -/
def observe (s : State) : Observation where
  status := statusWord s
  head := (headRecord s).map fun r => (headerWord r, r.frame)
  sampleCount := s.dem.sampleCount
  bitCounter := s.syn.bitCounter
  frameSeq := s.out.frameSeq
  err1 := s.fec.err1
  err2 := s.fec.err2
  retried := s.fec.retried
  suspectRun := s.syn.suspectRun
  targetLen := s.syn.targetLen
  byteIndex := s.syn.byteIndex
  bitCount := s.syn.bitCount.val

/-- The conditions of 60_exceptions.md R290. -/
inductive Condition where
  | streamEnd
  | syncLoss
  | crcMismatch
  | fecUncorrectable
  | sanityReject
  | cfgFault
  | cmdRefused
  | frameReady
  deriving DecidableEq, Repr

/-- The code of a condition (60_exceptions.md R290). -/
def conditionCode : Condition → Nat
  | .streamEnd => 1
  | .syncLoss => 2
  | .crcMismatch => 3
  | .fecUncorrectable => 4
  | .sanityReject => 5
  | .cfgFault => 6
  | .cmdRefused => 7
  | .frameReady => 8

/-- Whether a condition stands recorded in a state, in the place the table of 60_exceptions.md R290 names.
SANITY_REJECT is never raised (R305). -/
def conditionRecorded (c : Condition) (s : State) : Bool :=
  match c with
  | .streamEnd => s.status.eos
  | .syncLoss => !statusSync s
  | .crcMismatch => decide (s.crc.mask ≠ 0)
  | .fecUncorrectable => decide (s.fec.status < 0)
  | .sanityReject => false
  | .cfgFault => s.status.cfgerr
  | .cmdRefused => s.status.cmderr
  | .frameReady => statusOutValid s

end Sys2Proof.Machine
end

