-- ==== Sys2Proof/Machine/Dispatch.lean ====
section
/-! DEFINITION. One arm per operation: each calls its meaning. -/

namespace Sys2Proof.Machine

/-- The meaning of an operation in a state (00_scope.md R11). -/
def exec (i : Instr) (s : State) : Host.Outcome State Fault Refusal :=
  match i with
  | .nop => Sys2Proof.Machine.execNop s
  | .reset => Sys2Proof.Machine.execReset s
  | .cfgw c => Sys2Proof.Machine.execCfgw c s
  | .spbw n d => Sys2Proof.Machine.execSpbw n d s
  | .sample v => Sys2Proof.Machine.execSample v s
  | .eos => Sys2Proof.Machine.execEos s
  | .bit b => Sys2Proof.Machine.execBit b s
  | .fload idx val => Sys2Proof.Machine.execFload idx val s
  | .frun len => Sys2Proof.Machine.execFrun len s
  | .ack => Sys2Proof.Machine.execAck s
  | .chkFrame => Sys2Proof.Machine.execChkFrame s
  | .chkPtu => Sys2Proof.Machine.execChkPtu s
  | .chkGps1 => Sys2Proof.Machine.execChkGps1 s
  | .chkGps2 => Sys2Proof.Machine.execChkGps2 s
  | .chkGps3 => Sys2Proof.Machine.execChkGps3 s
  | .chkAux pos => Sys2Proof.Machine.execChkAux pos s
  | .chkZero pos => Sys2Proof.Machine.execChkZero pos s
  | .ftmStd => Sys2Proof.Machine.execFtmStd s
  | .ftmExt => Sys2Proof.Machine.execFtmExt s
  | .ftmOther m => Sys2Proof.Machine.execFtmOther m s
  | .dscXor v idx => Sys2Proof.Machine.execDscXor v idx s
  | .demSample raw => Sys2Proof.Machine.execDemSample raw s
  | .demAvg raw => Sys2Proof.Machine.execDemAvg raw s
  | .demZc y => Sys2Proof.Machine.execDemZc y s
  | .demLen y => Sys2Proof.Machine.execDemLen y s
  | .demEmit l => Sys2Proof.Machine.execDemEmit l s
  | .demEnterint y => Sys2Proof.Machine.execDemEnterint y s
  | .demInt y => Sys2Proof.Machine.execDemInt y s
  | .demIntchk y => Sys2Proof.Machine.execDemIntchk y s
  | .demLeaveint y => Sys2Proof.Machine.execDemLeaveint y s
  | .demVar y => Sys2Proof.Machine.execDemVar y s
  | .demEos => Sys2Proof.Machine.execDemEos s
  | .synBit b => Sys2Proof.Machine.execSynBit b s
  | .synShift b => Sys2Proof.Machine.execSynShift b s
  | .synCmp => Sys2Proof.Machine.execSynCmp s
  | .synAcq => Sys2Proof.Machine.execSynAcq s
  | .synPack => Sys2Proof.Machine.execSynPack s
  | .synByte => Sys2Proof.Machine.execSynByte s
  | .synScore m => Sys2Proof.Machine.execSynScore m s
  | .synFtm => Sys2Proof.Machine.execSynFtm s
  | .synSusp p => Sys2Proof.Machine.execSynSusp p s
  | .synDone len => Sys2Proof.Machine.execSynDone len s
  | .synAbort => Sys2Proof.Machine.execSynAbort s
  | .fecCorrect len => Sys2Proof.Machine.execFecCorrect len s
  | .fecPad len => Sys2Proof.Machine.execFecPad len s
  | .fecGather => Sys2Proof.Machine.execFecGather s
  | .fecDec k => Sys2Proof.Machine.execFecDec k s
  | .eccInit sel => Sys2Proof.Machine.execEccInit sel s
  | .fecForce => Sys2Proof.Machine.execFecForce s
  | .fecZtrail => Sys2Proof.Machine.execFecZtrail s
  | .fecScatter k => Sys2Proof.Machine.execFecScatter k s
  | .fecStat ok1 ok2 => Sys2Proof.Machine.execFecStat ok1 ok2 s
  | .crcUpd r b => Sys2Proof.Machine.execCrcUpd r b s
  | .crcCalc start n => Sys2Proof.Machine.execCrcCalc start n s
  | .crcCheck pos hi => Sys2Proof.Machine.execCrcCheck pos hi s
  | .crcScan => Sys2Proof.Machine.execCrcScan s
  | .crcAuxwalk => Sys2Proof.Machine.execCrcAuxwalk s

end Sys2Proof.Machine
end

