-- ==== Sys2Proof/Machine/Fetch.lean ====
section
/-! DEFINITION. Where a step gets its operation from: a word on the command port, the bytes of RF that select a check or
a marker class, or an internal operation's label (30_encoding.md R90, log entries 2 and 3). -/

namespace Sys2Proof.Machine

/-- The words the next item on the port stands for. A tag is read from RF, the byte at the lower index the high byte
(20_memory.md R66); a position without two bytes of RF faults. -/
def fetchWords (s : State) : Pending → Res Words
  | .command w => .ok (.cmd32 w)
  | .tagAt pos =>
    if pos + 2 ≤ Config.frameLen then .ok (.tag16 pos (rfByte s pos ++ rfByte s (pos + 1)))
    else .error (.noSuchIndex .rf (max pos Config.frameLen))
  | .marker => .ok (.ftm8 (rfByte s s.par.val.posFtype))
  | .operation label a b => .ok (.uop8 label a b)

/-- What a step does with words that name no operation: an illegal command word is refused with CMDERR, a next state
(45_host_commands.md R260); words of the model's own injection port are refused by name. -/
def rejectWords (e : DecodeError) (s : State) : Host.Outcome State Fault Refusal :=
  match e with
  | .illegalOp => .next (refuse .cmderr s)
  | .noSuchTag => .refused (.noOperation .noSuchTag)
  | .noSuchLabel => .refused (.noOperation .noSuchLabel)
  | .operandOutOfRange => .refused (.noOperation .operandOutOfRange)

/-- The items not yet taken once the next has been. -/
def takePending (rest : List Pending) (s : State) : State :=
  s.withPort { s.port with pending := rest }

/-- Put an item at the head of the port. -/
def offer (p : Pending) (s : State) : State :=
  s.withPort { s.port with pending := p :: s.port.pending }

/-- Lay words out where `fetchWords` finds them, next in turn: a tag at its position in RF, a marker at POS_FTYPE. -/
def placeWords (ws : Words) (s : State) : State :=
  match ws with
  | .cmd32 w => offer (.command w) s
  | .tag16 pos w => offer (.tagAt pos) (rfSet (rfSet s pos (tagHi w)) (pos + 1) (tagLo w))
  | .ftm8 m => offer .marker (rfSet s s.par.val.posFtype m)
  | .uop8 label a b => offer (.operation label a b) s

end Sys2Proof.Machine
end

