-- ==== Sys2Proof/Machine/Step.lean ====
section
/-! DEFINITION. One step: take the next item from the port, decode it, run it to completion (20_memory.md R75). -/

namespace Sys2Proof.Machine

/-- One step of RS-CORE. With nothing on the port the machine is idle and retains all state (60_exceptions.md R303). -/
def step (s : State) : Host.Outcome State Fault Refusal :=
  match s.port.pending with
  | [] => .next s
  | p :: rest =>
    match fetchWords s p with
    | .error e => .fault e
    | .ok ws =>
      match decode s.par.val ws with
      | .ok i => exec i (takePending rest s)
      | .error e => rejectWords e (takePending rest s)

/-- `s` with the operation of a table row's bits (Decode.lean `tableWords`) placed where `step` fetches next. -/
def State.withFetchWord (s : State) (nbits w : Nat) : State :=
  match tableWords s.par.val nbits w with
  | some ws => placeWords ws s
  | none => s

end Sys2Proof.Machine
end

