-- ==== Sys2Proof/Safety.lean ====
section
/-! DEFINITION. What counts as a good state of RS-CORE, in the terms claims use: the invariants the spec derives
(46_arithmetic_and_sequencing.md R283, 42_synchronizer.md R183, 41_demodulator.md R144) and the ranges 10_state.md gives
the registers. -/

namespace Sys2Proof.Machine

/-- An item that hardware can have on its port: a command word. -/
def Pending.isCommand : Pending → Bool
  | .command _ => true
  | .tagAt _ | .marker | .operation _ _ _ => false

/-- Only command words wait on the port: no operation is injected (log entry 3). -/
def commandsOnly (s : State) : Prop := s.port.pending.all Pending.isCommand = true

/-- The byte buffers and the sparse rational buffers are in their canonical form (log entry 20). -/
structure BuffersWf (s : State) : Prop where
  rf : Memory.wf (rfReset s.par.val) (spaceSize .rf) s.rf = true
  cw1 : Memory.wf cwReset (spaceSize .cw1) s.fec.cw1 = true
  cw2 : Memory.wf cwReset (spaceSize .cw2) s.fec.cw2 = true
  vring : cellsWf ratReset (spaceSize .vring) s.dem.vring = true
  varHist : cellsWf ratReset (spaceSize .varHist) s.syn.varHist = true

/-- The configuration registers hold what CFGW and SPBW accept, or their reset values (10_state.md R21, R22). -/
structure ConfigOk (s : State) : Prop where
  /-- CFG never holds a reserved value (R21). -/
  cfg : cfgReserved s.cfg = false
  /-- Either no ratio has been written, or it is legal and VWIN is its window (R22). -/
  rate : (s.rate.spbn = 0 ∧ s.rate.spbd = 1 ∧ s.rate.vwin = 0)
    ∨ (ratioIllegal s.rate.spbn s.rate.spbd = false
        ∧ s.rate.vwin = windowLength s.rate.spbn s.rate.spbd)
  /-- VPOS is a position of the window. -/
  vpos : s.dem.vpos < s.rate.vwin ∨ s.dem.vpos = 0

/-- The session discipline (45_host_commands.md R260, R265, R272). -/
structure SessionOk (s : State) : Prop where
  /-- STATUS.ECC_READY is 1 between commands (70_reset_and_hazards.md R321). -/
  ready : s.status.eccReady = true
  /-- INMODE is fixed exactly when the session has started. -/
  started : s.status.started = true ↔ s.status.inmode ≠ .none
  /-- Samples are accepted only with a ratio (R265). -/
  samples : s.status.inmode = .samples → s.rate.spbn ≠ 0

/-- The sequencing state (46_arithmetic_and_sequencing.md R283). -/
structure SequencingOk (s : State) : Prop where
  /-- SEARCH implies BYTE_INDEX = FRAMESTART and BIT_COUNT = 0 (R283). -/
  search : s.syn.syncState = .search → s.syn.byteIndex = s.par.val.framestart ∧ s.syn.bitCount = 0
  /-- INT implies ASSEMBLE and CFG.ALT = 1 (R283). -/
  integrate : s.dem.mode = .int → s.syn.syncState = .assemble ∧ cfgAlt s.cfg = true
  /-- INT is a mode of a session fed with samples. -/
  integrateSamples : s.dem.mode = .int → s.status.inmode = .samples
  /-- Before any input and in a session fed with frames the synchroniser searches (45_host_commands.md R268). -/
  idle : s.status.inmode = .none ∨ s.status.inmode = .frames → s.syn.syncState = .search
  /-- FRAMESTART ≤ BYTE_INDEX ≤ 517 between commands (R283). -/
  index : s.par.val.framestart ≤ s.syn.byteIndex ∧ s.syn.byteIndex ≤ 517
  /-- A frame being assembled has not reached its target (42_synchronizer.md R183). -/
  below : s.syn.syncState = .assemble → s.syn.byteIndex < s.syn.targetLen
  /-- 320 ≤ TARGET_LEN ≤ 518 at all times (42_synchronizer.md R183). -/
  target : 320 ≤ s.syn.targetLen ∧ s.syn.targetLen ≤ 518
  /-- SUSPECT_RUN saturates at 4 (10_state.md R32). -/
  suspect : s.syn.suspectRun ≤ 4

/-- The zero-crossing tracker (41_demodulator.md R144, 10_state.md R25). -/
structure TrackerOk (s : State) : Prop where
  /-- Y_PREV has sign class RUN_SIGN once a run has begun (R144). -/
  sign : s.dem.runN ≠ 0 → sgn s.dem.yPrev = s.dem.runSign
  /-- X0 lies in [0, 1] (R25). -/
  x0 : 0 ≤ s.dem.x0 ∧ s.dem.x0 ≤ 1

/-- The ranges of the FEC and CRC results (10_state.md R36, 46_arithmetic_and_sequencing.md R280). -/
structure ResultsOk (s : State) : Prop where
  err1 : -1 ≤ s.fec.err1 ∧ s.fec.err1 ≤ 12
  err2 : -1 ≤ s.fec.err2 ∧ s.fec.err2 ≤ 12
  /-- FEC_STATUS fits its 8 bits (R36, R280 (d); its lower end, which is not R36's SENT_BOTH for every `P`,
  rests on the gate of log entry 27). -/
  status : -128 ≤ s.fec.status ∧ s.fec.status ≤ 24
  aux : s.crc.auxCount ≤ 129

/-- The output sequence (10_state.md R40, 20_memory.md R78). -/
structure OutputOk (s : State) : Prop where
  /-- The host has acknowledged no record that is not there. -/
  ptr : s.out.rdPtr ≤ s.out.records.length
  /-- FRAME_SEQ counts the records. -/
  count : s.out.frameSeq = s.out.records.length
  /-- `seq` increases by one per record. -/
  seqs : s.out.records.map FrameOut.seq = List.range s.out.records.length
  /-- Every record is complete: 518 frame bytes, a length of at most 518. -/
  complete : ∀ r ∈ s.out.records, r.frame.length = 518 ∧ r.len ≤ 518
  /-- The status of every record fits its header field (46_arithmetic_and_sequencing.md R280 (d), log entry 27). -/
  status : ∀ r ∈ s.out.records, -128 ≤ r.fecStatus ∧ r.fecStatus ≤ 24

/-- What every command keeps. -/
structure StateOk (s : State) : Prop where
  buffers : BuffersWf s
  config : ConfigOk s
  session : SessionOk s
  sequencing : SequencingOk s
  tracker : TrackerOk s
  results : ResultsOk s
  output : OutputOk s

/-- The sums of the variance window are those of its contents (41_demodulator.md R152, R153). -/
structure WindowSums (s : State) : Prop where
  /-- VRING holds nothing beyond the window. -/
  inside : ∀ i, s.rate.vwin ≤ i → vringAt s i = 0
  /-- VS1 is the sum of the window. -/
  sum : s.dem.vs1 = ((List.range s.rate.vwin).map (vringAt s)).sum
  /-- VS2 is the sum of the squares of the window. -/
  squares : s.dem.vs2 = ((List.range s.rate.vwin).map fun i => vringAt s i * vringAt s i).sum

/-! ## The vocabulary of statements about composite operations -/

/-- The block at `pos` is a valid sub-block of the kind with high tag byte `hi`: its tag byte matches, it ends inside
RF, and the CRC of its payload is the stored one (44_crc.md R233). -/
def BlockOk (s : State) (pos : Nat) (hi : Byte) : Prop :=
  rfByte s pos = hi ∧ pos + (rfByte s (pos + 1)).toNat + 4 ≤ 518
    ∧ crc16 (rfBytes s (pos + 2) (rfByte s (pos + 1)).toNat)
        = storedCrc s pos (rfByte s (pos + 1)).toNat

/-- The chain of AUX/xdata blocks of `s` from `pos` on, as a relation (44_crc.md R235): it has `count` good blocks and
ends at `last`, with `failed` saying whether it ended in a failed block. -/
inductive AuxChain (s : State) : (pos count last : Nat) → (failed : Bool) → Prop where
  /-- No byte, or another tag: the chain ends here without an error. -/
  | ends (pos : Nat) (h : ¬(pos < 518 ∧ rfByte s pos = s.par.val.tagAuxHi)) :
      AuxChain s pos 0 pos false
  /-- A block that fails its check ends the chain with an error. -/
  | fails (pos : Nat) (h : pos < 518) (tag : rfByte s pos = s.par.val.tagAuxHi)
      (bad : ¬BlockOk s pos s.par.val.tagAuxHi) : AuxChain s pos 0 pos true
  /-- A good block counts; the next starts behind its tag, payload and CRC. -/
  | good (pos count last : Nat) (failed : Bool) (ok : BlockOk s pos s.par.val.tagAuxHi)
      (rest : AuxChain s (pos + (rfByte s (pos + 1)).toNat + 4) count last failed) :
      AuxChain s pos (count + 1) last failed

/-- Run one operation `n` times (41_demodulator.md R146, 20_memory.md R75: each to completion before
the next). -/
def execTimes (i : Instr) : Nat → State → Host.Outcome State Fault Refusal
  | 0, s => .next s
  | n + 1, s =>
    match exec i s with
    | .next t => execTimes i n t
    | .fault e => .fault e
    | .refused r => .refused r

/-- One pass of FEC.CORRECT from `s` to `t` with a service: FEC.GATHER, then FEC.DEC on codeword 1 and on codeword 2,
their results in ERR1, ERR2 and `ok1`, `ok2` (43_fec.md R200, R209). -/
def PassTo (ecc : Ecc) (s t : State) (ok1 ok2 : Bool) : Prop :=
  ∃ g d1 d2 err1 err2,
    exec .fecGather s = .next g
    ∧ fecDec ecc .cw1 g = ⟨d1, ok1, err1⟩
    ∧ fecDec ecc .cw2 { d1 with fec := { d1.fec with err1 := err1 } } = ⟨d2, ok2, err2⟩
    ∧ t = { d2 with fec := { d2.fec with err2 := err2 } }

/-- The end of FEC.CORRECT from `s` to `t`: FEC.SCATTER of each codeword that decoded, then FEC.STAT (43_fec.md
R200). -/
def FinishTo (s t : State) (ok1 ok2 : Bool) : Prop :=
  ∃ u v,
    (if ok1 then exec (.fecScatter .cw1) s = .next u else u = s)
    ∧ (if ok2 then exec (.fecScatter .cw2) u = .next v else v = u)
    ∧ exec (.fecStat ok1 ok2) v = .next t

end Sys2Proof.Machine
end

