-- ==== Sys2Proof/Certificates/Slice0/Obligations.lean ====
section
/-! DEFINITION. The statements for the provers. Each docstring names the rule of spec/ it formalises, or says which
choice of the model it rests on. A state written `{ s with … }` says the whole frame: every register, flag and buffer
not named keeps its value. Where a buffer is written the statement leaves its data to the next state and says what every
index reads. -/

open Sys2Proof Sys2Proof.Machine

/-! ## Encoding and decoding -/

/-- The decoder reads back what the encoder writes, for every operation with every operand its encoding admits, under
every parameter record whose seven high tag bytes differ (30_encoding.md R91 to R94, R100, R104, R109, R110). The
operand words of the internal operations and the positions of CHK.AUX and CHK.ZERO are the model's own (log entries 3
and 28). -/
def Obligations.DecodeEncodeAgree : Prop :=
  ∀ (P : Params) (i : Instr), P.tagsDistinct = true → i.wf = true →
    decode P (encode P i) = .ok i

/-- The decoder of command words: the ten with their ARG fields, for every ARG (unused bits are ignored, SAMPLE's
field is the sample, BIT reads 0, 1 or X), and every other OP is illegal (30_encoding.md R92, R94). -/
def Obligations.CommandWordsDecode : Prop :=
  (∀ (P : Params) (w : BitVec 32),
    w.extractLsb' 24 8
        ∉ [0x00#8, 0x01#8, 0x02#8, 0x03#8, 0x10#8, 0x11#8, 0x12#8, 0x13#8, 0x14#8, 0x20#8] →
      decode P (.cmd32 w) = .error .illegalOp)
  ∧ ∀ (P : Params) (arg : BitVec 24),
    decode P (.cmd32 (0x00#8 ++ arg)) = .ok .nop
    ∧ decode P (.cmd32 (0x01#8 ++ arg)) = .ok .reset
    ∧ decode P (.cmd32 (0x02#8 ++ arg)) = .ok (.cfgw (arg.extractLsb' 0 8))
    ∧ decode P (.cmd32 (0x03#8 ++ arg)) = .ok (.spbw (arg.extractLsb' 8 16) (arg.extractLsb' 0 8))
    ∧ decode P (.cmd32 (0x10#8 ++ arg)) = .ok (.sample (arg.extractLsb' 0 16))
    ∧ decode P (.cmd32 (0x11#8 ++ arg)) = .ok .eos
    ∧ (arg.extractLsb' 0 2 = 0#2 → decode P (.cmd32 (0x12#8 ++ arg)) = .ok (.bit .zero))
    ∧ (arg.extractLsb' 0 2 = 1#2 → decode P (.cmd32 (0x12#8 ++ arg)) = .ok (.bit .one))
    ∧ (arg.getLsbD 1 = true → decode P (.cmd32 (0x12#8 ++ arg)) = .ok (.bit .x))
    ∧ decode P (.cmd32 (0x13#8 ++ arg))
        = .ok (.fload (arg.extractLsb' 8 10) (arg.extractLsb' 0 8))
    ∧ decode P (.cmd32 (0x14#8 ++ arg)) = .ok (.frun (arg.extractLsb' 0 10))
    ∧ decode P (.cmd32 (0x20#8 ++ arg)) = .ok .ack

/-- Words written out from the spec decode to what they stand for: the examples of 30_encoding.md R110 and
45_host_commands.md, the tags of R100 at their positions, the two pure markers of R104. They are read under the default
record, whose tags and positions are PRESUMED (log entry 1). The last two read labels of R109: the spec has nothing
decode a label, that a step can be given one is the model's choice (log entry 3). -/
def Obligations.SpecWordsDecode : Prop :=
  decode Config.defaultParams (.cmd32 0x03009310#32) = .ok (.spbw 147 16)
  ∧ decode Config.defaultParams (.cmd32 0x1000FC18#32) = .ok (.sample (BitVec.ofInt 16 (-1000)))
  ∧ decode Config.defaultParams (.cmd32 0x1300380F#32) = .ok (.fload 56 0x0F)
  ∧ decode Config.defaultParams (.cmd32 0x12000002#32) = .ok (.bit .x)
  ∧ decode Config.defaultParams (.tag16 57 0x7928#16) = .ok .chkFrame
  ∧ decode Config.defaultParams (.tag16 274 0x7B15#16) = .ok .chkGps3
  ∧ decode Config.defaultParams (.tag16 299 0x7E0B#16) = .ok (.chkAux 299)
  ∧ decode Config.defaultParams (.ftm8 0x0F#8) = .ok .ftmStd
  ∧ decode Config.defaultParams (.ftm8 0xF0#8) = .ok .ftmExt
  ∧ decode Config.defaultParams (.uop8 0x2A#8 0 0) = .ok .synAbort
  ∧ decode Config.defaultParams (.uop8 0x43#8 0 0) = .ok .crcScan

/-! ## The step -/

/-- A step takes the next item from the port, reads its words and runs the operation they decode to, with the rest of
the port left over: a command word as it stands, a tag from two bytes of RF with the lower index the high byte
(20_memory.md R66), a marker from RF[POS_FTYPE], a label with its operand words. With nothing on the port all state is
retained (60_exceptions.md R303). The port is the model's own (log entries 2 and 3). -/
def Obligations.StepRunsDecoded : Prop :=
  ∀ (s : State) (rest : List Pending) (i : Instr),
    (s.port.pending = [] → step s = .next s)
    ∧ (∀ w, s.port.pending = .command w :: rest → decode s.par.val (.cmd32 w) = .ok i →
        step s = exec i { s with port := { s.port with pending := rest } })
    ∧ (∀ pos, s.port.pending = .tagAt pos :: rest → pos + 2 ≤ 518 →
        decode s.par.val (.tag16 pos (rfByte s pos ++ rfByte s (pos + 1))) = .ok i →
        step s = exec i { s with port := { s.port with pending := rest } })
    ∧ (s.port.pending = .marker :: rest →
        decode s.par.val (.ftm8 (rfByte s s.par.val.posFtype)) = .ok i →
        step s = exec i { s with port := { s.port with pending := rest } })
    ∧ (∀ label a b, s.port.pending = .operation label a b :: rest →
        decode s.par.val (.uop8 label a b) = .ok i →
        step s = exec i { s with port := { s.port with pending := rest } })

/-! ## Host commands -/

/-- NOP leaves every piece of state as it was (45_host_commands.md R261). ACK brings the next record to the head; with
nothing pending it does nothing (R270). -/
def Obligations.NopAndAck : Prop :=
  ∀ s : State,
    exec .nop s = .next s
    ∧ (s.out.rdPtr < s.out.records.length →
      exec .ack s = .next { s with out := { s.out with rdPtr := s.out.rdPtr + 1 } })
    ∧ (s.out.records.length ≤ s.out.rdPtr → exec .ack s = .next s)

/-- RESET leaves the table of 10_state.md R42: the header bytes of RF are the reference pattern's bits, eight to a byte
with the first the least significant, xor MASK. -/
def Obligations.ResetSetsTheTable : Prop :=
  ∀ s : State, ∃ t, exec .reset s = .next t
    ∧ t.cfg = 0x00#8 ∧ t.rate = { spbn := 0, spbd := 1, vwin := 0 }
    ∧ t.status = { started := false, eos := false, cmderr := false, cfgerr := false,
                   inmode := .none, eccReady := true }
    ∧ (∀ i : Fin 3, t.dem.avgRing[i] = 0)
    ∧ (t.dem.mode = .zc ∧ t.dem.runSign = .pos ∧ t.dem.runN = 0 ∧ t.dem.yPrev = 0
        ∧ t.dem.x0 = 0)
    ∧ (t.dem.intSum = 0 ∧ t.dem.intN = 0 ∧ t.dem.intK = 0)
    ∧ ((∀ i, vringAt t i = 0) ∧ t.dem.vpos = 0 ∧ t.dem.vs1 = 0 ∧ t.dem.vs2 = 0)
    ∧ (t.dem.sampleCount = 0 ∧ t.syn.bitCounter = 0 ∧ t.out.frameSeq = 0)
    ∧ (∀ i : Fin 32, t.syn.corr[i] = .x) ∧ t.syn.syncState = .search
    ∧ (∀ i : Fin 8, t.syn.bitbuf[i] = .zero) ∧ t.syn.bitCount = 0
    ∧ t.syn.byteIndex = s.par.val.framestart ∧ t.syn.targetLen = 518 ∧ t.syn.suspectRun = 0
    ∧ (∀ i, varHistAt t i = 0)
    ∧ (∀ i, i < s.par.val.framestart → ∀ j, j < 8 →
        (rfByte t i).getLsbD j
          = ((s.par.val.refpat.getLsbD (8 * i + j)) ^^ (maskAt s.par.val i).getLsbD j))
    ∧ (∀ i, s.par.val.framestart ≤ i → rfByte t i = 0)
    ∧ (∀ k i, cwByte k t i = 0)
    ∧ (t.fec.err1 = 0 ∧ t.fec.err2 = 0 ∧ t.fec.status = 0 ∧ t.fec.retried = false)
    ∧ t.crc = { reg := 0xFFFF#16, mask := 0, auxCount := 0 }
    ∧ (t.out.records = [] ∧ t.out.rdPtr = 0)

/-- What is the model's own in RESET (log entries 1, 5 and 17): the parameter record and the waiting words stay, the
handed-back value is cleared; with the default record and nothing waiting the state is that of reset. -/
def Obligations.ResetKeepsThePort : Prop :=
  ∀ s : State, ∃ t, exec .reset s = .next t
    ∧ t.par = s.par ∧ t.port = { pending := s.port.pending, ret := .none }
    ∧ (s.par = Config.defaultP → s.port.pending = [] → t = State.reset)

/-- CFGW (45_host_commands.md R264): the lock first, then the reserved images, then the write of all fields. -/
def Obligations.CfgwWritesCfg : Prop :=
  ∀ (s : State) (c : BitVec 8),
    (s.status.started = true →
      exec (.cfgw c) s = .next { s with status := { s.status with cmderr := true } })
    ∧ (s.status.started = false → c.getLsbD 7 = true ∨ c.extractLsb' 3 2 = 3#2 →
      exec (.cfgw c) s = .next { s with status := { s.status with cfgerr := true } })
    ∧ (s.status.started = false → c.getLsbD 7 = false → c.extractLsb' 3 2 ≠ 3#2 →
      exec (.cfgw c) s = .next { s with cfg := c })

/-- SPBW (45_host_commands.md R263): the lock first, then the ratio, then SPBN, SPBD, VWIN and an empty variance
window. -/
def Obligations.SpbwWritesRatio : Prop :=
  ∀ (s : State) (n : BitVec 16) (d : BitVec 8),
    (s.status.started = true →
      exec (.spbw n d) s = .next { s with status := { s.status with cmderr := true } })
    ∧ (s.status.started = false →
      (d.toNat = 0 ∨ n.toNat < d.toNat ∨ 256 * d.toNat < n.toNat) →
      exec (.spbw n d) s = .next { s with status := { s.status with cfgerr := true } })
    ∧ (s.status.started = false → d.toNat ≠ 0 → d.toNat ≤ n.toNat → n.toNat ≤ 256 * d.toNat →
      ∃ t, exec (.spbw n d) s = .next t
        ∧ t = { s with
            rate := { spbn := n, spbd := d, vwin := (2 * 32 * n.toNat + d.toNat) / (2 * d.toNat) }
            dem := { s.dem with vring := t.dem.vring, vpos := 0, vs1 := 0, vs2 := 0 } }
        ∧ ∀ i, vringAt t i = 0)

/-- The window SPBW writes is 32 bit periods, rounded half up over the rationals, and lies in 32 .. 8192 (10_state.md
R22, 46_arithmetic_and_sequencing.md R282). -/
def Obligations.WindowIsRounded : Prop :=
  ∀ (n : BitVec 16) (d : BitVec 8), d.toNat ≠ 0 → d.toNat ≤ n.toNat → n.toNat ≤ 256 * d.toNat →
    ((windowLength n d : Nat) : Int) = Int.floor ((32 : Rat) * (n.toNat / d.toNat) + 1 / 2)
    ∧ 32 ≤ windowLength n d ∧ windowLength n d ≤ 8192

/-- Acceptance (45_host_commands.md R260): an illegal word sets CMDERR and changes nothing else but the port it came
from; the common guard refuses the four input commands after EOS, after a configuration fault and in another mode's
session. -/
def Obligations.GuardRefuses : Prop :=
  (∀ (s : State) (w : BitVec 32) (rest : List Pending),
    s.port.pending = .command w :: rest → decode s.par.val (.cmd32 w) = .error .illegalOp →
    step s = .next { s with
      status := { s.status with cmderr := true }, port := { s.port with pending := rest } })
  ∧ ∀ (s : State) (v : BitVec 16) (b : Bit3) (idx len : BitVec 10) (val : Byte),
    (s.status.eos = true ∨ s.status.cfgerr = true
        ∨ (s.status.inmode ≠ .none ∧ s.status.inmode ≠ .samples) →
      exec (.sample v) s = .next { s with status := { s.status with cmderr := true } })
    ∧ (s.status.eos = true ∨ s.status.cfgerr = true
        ∨ (s.status.inmode ≠ .none ∧ s.status.inmode ≠ .bits) →
      exec (.bit b) s = .next { s with status := { s.status with cmderr := true } })
    ∧ (s.status.eos = true ∨ s.status.cfgerr = true
        ∨ (s.status.inmode ≠ .none ∧ s.status.inmode ≠ .frames) →
      exec (.fload idx val) s = .next { s with status := { s.status with cmderr := true } }
      ∧ exec (.frun len) s = .next { s with status := { s.status with cmderr := true } })

/-- SAMPLE (45_host_commands.md R265): without a ratio a configuration fault; accepted, it marks the session and runs
DEM.SAMPLE, whose outcome is its own. From a state that keeps the invariant it completes and counts one sample
(60_exceptions.md R301). -/
def Obligations.SampleAccepted : Prop :=
  ∀ (s : State) (v : BitVec 16), StateOk s → s.status.eos = false → s.status.cfgerr = false →
    (s.status.inmode = .none ∨ s.status.inmode = .samples) →
    (s.rate.spbn = 0 →
      exec (.sample v) s = .next { s with status := { s.status with cfgerr := true } })
    ∧ (s.rate.spbn ≠ 0 → ∃ t, exec (.sample v) s = .next t
        ∧ exec (.demSample v)
            { s with status := { s.status with started := true, inmode := .samples } } = .next t
        ∧ t.dem.sampleCount = s.dem.sampleCount + 1)

/-- BIT (45_host_commands.md R266) and FRUN (R268): accepted, BIT marks the session and runs SYN.BIT, FRUN marks it
and runs SYN.DONE with the length clamped to 518. -/
def Obligations.BitAndFrunAccepted : Prop :=
  ∀ (s : State) (b : Bit3) (len : BitVec 10), s.status.eos = false → s.status.cfgerr = false →
    (s.status.inmode = .none ∨ s.status.inmode = .bits → s.syn.byteIndex ≤ 517 →
      ∃ t, exec (.bit b) s = .next t
        ∧ exec (.synBit b)
            { s with status := { s.status with started := true, inmode := .bits } } = .next t)
    ∧ (s.status.inmode = .none ∨ s.status.inmode = .frames →
      ∃ t, exec (.frun len) s = .next t
        ∧ exec (.synDone (min len.toNat 518))
            { s with status := { s.status with started := true, inmode := .frames } } = .next t)

/-- FLOAD (45_host_commands.md R267): an index above 517 is refused; accepted, it stores one byte of RF as it is. -/
def Obligations.FloadStoresByte : Prop :=
  ∀ (s : State) (idx : BitVec 10) (val : Byte), s.status.eos = false → s.status.cfgerr = false →
    (s.status.inmode = .none ∨ s.status.inmode = .frames) →
    (517 < idx.toNat →
      exec (.fload idx val) s = .next { s with status := { s.status with cmderr := true } })
    ∧ (idx.toNat ≤ 517 → ∃ t, exec (.fload idx val) s = .next t
        ∧ t = { s with
            status := { s.status with started := true, inmode := .frames }, rf := t.rf }
        ∧ ∀ a, rfByte t a = if a = idx.toNat then val else rfByte s a)

/-- EOS, DEM.EOS and SYN.ABORT (45_host_commands.md R269, 41_demodulator.md R154, 42_synchronizer.md R185): the first
EOS sets the flag and discards the frame in progress, the second does nothing. -/
def Obligations.EndOfStream : Prop :=
  ∀ s : State,
    exec .demEos s = .next { s with dem := { s.dem with mode := .zc } }
    ∧ exec .synAbort s = .next { s with syn := { s.syn with
        syncState := .search, byteIndex := s.par.val.framestart, bitCount := 0 } }
    ∧ (s.status.eos = true → exec .eos s = .next s)
    ∧ (s.status.eos = false → exec .eos s = .next { s with
        status := { s.status with eos := true }
        dem := { s.dem with mode := .zc }
        syn := { s.syn with
          syncState := .search, byteIndex := s.par.val.framestart, bitCount := 0 } })

/-! ## The output port -/

/-- What the host reads: the STATUS register bit by bit (10_state.md R23: two live copies, the ECC flag, the mode
field, four flags), and the header of a record field by field (30_encoding.md R107: `aux_count` saturates at 31, bit 31
marks the header valid, the status is in two's complement); the premises on the record are the widths of its fields. -/
def Obligations.OutputPortLayout : Prop :=
  (∀ s : State,
    (statusWord s).getLsbD 0 = s.status.started
    ∧ (statusWord s).getLsbD 1 = s.status.eos
    ∧ (statusWord s).getLsbD 2 = s.status.cmderr
    ∧ (statusWord s).getLsbD 3 = s.status.cfgerr
    ∧ ((statusWord s).extractLsb' 4 2).toNat
        = (match s.status.inmode with | .none => 0 | .samples => 1 | .bits => 2 | .frames => 3)
    ∧ (statusWord s).getLsbD 6 = s.status.eccReady
    ∧ ((statusWord s).getLsbD 7 = true ↔ s.syn.syncState = .assemble)
    ∧ ((statusWord s).getLsbD 8 = true ↔ s.out.rdPtr < s.out.records.length))
  ∧ ∀ r : FrameOut, r.seq < 2 ^ 32 → r.len ≤ 518 → -128 ≤ r.fecStatus → r.fecStatus ≤ 127 →
    ((headerWord r).extractLsb' 32 32).toNat = r.seq
    ∧ (headerWord r).getLsbD 31 = true
    ∧ (headerWord r).extractLsb' 24 7 = r.crcMask
    ∧ ((headerWord r).extractLsb' 16 8).toInt = r.fecStatus
    ∧ ((headerWord r).extractLsb' 11 5).toNat = min r.auxCount 31
    ∧ (headerWord r).getLsbD 10 = r.retried
    ∧ ((headerWord r).extractLsb' 0 10).toNat = r.len

/-! ## Descrambler -/

/-- DSC.XOR hands back `v xor MASK[i mod 64]` and writes no other state (40_descrambler.md R130); applied twice at one
index it gives the byte back, for every MASK (R132). -/
def Obligations.Descrambling : Prop :=
  (∀ (s : State) (v : Byte) (i : Nat), exec (.dscXor v i) s
    = .next { s with port := { s.port with
        ret := .byte (v ^^^ s.par.val.mask[i % 64]'(Nat.mod_lt i (by decide))) } })
  ∧ ∀ (P : Params) (b : Byte) (i : Nat), dscXor P (dscXor P b i) i = b

/-! ## Demodulator -/

/-- DEM.AVG (41_demodulator.md R141): the ring shifts and the exact mean of the three newest samples is handed back. -/
def Obligations.MovingAverage : Prop :=
  ∀ (s : State) (raw : BitVec 16), exec (.demAvg raw) s
    = .next { s with
        dem := { s.dem with avgRing := #v[raw, s.dem.avgRing[0], s.dem.avgRing[1]] }
        port := { s.port with
          ret := .rational (((raw.toInt + s.dem.avgRing[0].toInt + s.dem.avgRing[1].toInt : Int) : Rat) / 3) } }

/-- DEM.LEN (41_demodulator.md R144): RUN_N / SPB, or in precision mode the interpolated length, which moves X0.
`0 ≤ y` on one side of the crossing and `< 0` on the other is how the rule knows its divisor is not zero. -/
def Obligations.RunLength : Prop :=
  ∀ (s : State) (y : Rat), s.rate.spbn ≠ 0 → s.rate.spbd ≠ 0 →
    (cfgPrec s.cfg = false → exec (.demLen y) s = .next { s with port := { s.port with
      ret := .rational ((s.dem.runN : Rat) / ((s.rate.spbn.toNat : Rat) / s.rate.spbd.toNat)) } })
    ∧ (cfgPrec s.cfg = true → y ≠ s.dem.yPrev → exec (.demLen y) s = .next { s with
        dem := { s.dem with x0 := y / (y - s.dem.yPrev) }
        port := { s.port with
          ret := .rational (((s.dem.runN : Rat) + s.dem.x0 - y / (y - s.dem.yPrev))
            / ((s.rate.spbn.toNat : Rat) / s.rate.spbd.toNat)) } })

/-- What 41_demodulator.md R144 derives: on a flip sample of a run whose last sample has the run's sign class, the
interpolation offset lies in [0, 1] and the length is not negative. -/
def Obligations.RunLengthBounds : Prop :=
  ∀ (s t : State) (y l : Rat), StateOk s → s.rate.spbn ≠ 0 → s.dem.runN ≠ 0 →
    sgn y ≠ s.dem.runSign → exec (.demLen y) s = .next t → t.port.ret = .rational l →
    0 ≤ l ∧ 0 ≤ t.dem.x0 ∧ t.dem.x0 ≤ 1

/-- DEM.EMIT (41_demodulator.md R145): it writes no state, and the event it returns is that of the ended run; its count is
the length rounded half up, its symbol the run's sign, inverted by POL. -/
def Obligations.BitEventOfRun : Prop :=
  ∀ (s : State) (l : Rat), exec (.demEmit l) s = .next s
    ∧ demEmit l s = {
        symbol := xor (decide (s.dem.runSign = .pos)) (s.cfg.getLsbD 0)
        durationSamples := s.dem.runN
        count := Int.floor (l + 1 / 2) }

/-- DEM.ZC (41_demodulator.md R143): the first sample starts a run, a sample of the run's class extends it, a flip
sample ends it: the rounded number of bits, of the ended run's symbol, go to SYN.BIT one by one, and with ALT a frame in
progress is integrated from here on. -/
def Obligations.ZeroCrossingStep : Prop :=
  ∀ (s : State) (y : Rat),
    (s.dem.runN = 0 → exec (.demZc y) s
      = .next { s with dem := { s.dem with runSign := sgn y, runN := 1, yPrev := y } })
    ∧ (s.dem.runN ≠ 0 → sgn y = s.dem.runSign → exec (.demZc y) s
      = .next { s with dem := { s.dem with runN := s.dem.runN + 1, yPrev := y } })
    ∧ (StateOk s → s.dem.runN ≠ 0 → sgn y ≠ s.dem.runSign →
      ∃ l q ev u t,
        exec (.demLen y) s = .next l
        ∧ l.port.ret = .rational q ∧ exec (.demEmit q) l = .next l
        ∧ ev = demEmit q l
        ∧ execTimes (.synBit (if ev.symbol then .one else .zero)) ev.count.toNat
            { s with dem := { l.dem with runSign := sgn y, runN := 1, yPrev := y } }
          = .next u
        ∧ (if cfgAlt s.cfg = true ∧ u.syn.syncState = .assemble
            then exec (.demEnterint y) u = .next t else t = u)
        ∧ exec (.demZc y) s = .next t)

/-- DEM.INTCHK (41_demodulator.md R149, R150): when the quota `INT_N * SPBD >= INT_K * SPBN` is reached the bit is 1
iff the sum is not negative, inverted by POL, and its event counts one bit; the sum is cleared, the bit goes to SYN.BIT,
and if that completed the frame integrate mode ends. -/
def Obligations.IntegratedBit : Prop :=
  ∀ (s : State) (y : Rat),
    (s.dem.intN * s.rate.spbd.toNat < s.dem.intK * s.rate.spbn.toNat →
      exec (.demIntchk y) s = .next s)
    ∧ (s.dem.intK * s.rate.spbn.toNat ≤ s.dem.intN * s.rate.spbd.toNat → s.syn.byteIndex ≤ 517 →
      ∃ ev u t, ev = integratedEvent s
        ∧ ev.symbol = xor (decide (0 ≤ s.dem.intSum)) (s.cfg.getLsbD 0) ∧ ev.count = 1
        ∧ exec (.synBit (if ev.symbol then .one else .zero))
          { s with dem := { s.dem with intSum := 0, intK := s.dem.intK + 1 } } = .next u
        ∧ exec (.demIntchk y) s = .next t
        ∧ (if u.syn.syncState = .search then exec (.demLeaveint y) u = .next t else t = u))

/-- DEM.ENTERINT, DEM.INT and DEM.LEAVEINT (41_demodulator.md R147, R148, R151). -/
def Obligations.IntegrateMode : Prop :=
  ∀ (s : State) (y : Rat),
    (s.syn.byteIndex ≤ 517 → ∃ t, exec (.demEnterint y) s = .next t
      ∧ exec (.demIntchk y)
          { s with dem := { s.dem with mode := .int, intSum := y, intN := 1, intK := 1 } }
        = .next t)
    ∧ (s.syn.byteIndex ≤ 517 → ∃ t, exec (.demInt y) s = .next t
      ∧ exec (.demIntchk y)
          { s with dem := { s.dem with intSum := s.dem.intSum + y, intN := s.dem.intN + 1 } }
        = .next t)
    ∧ exec (.demLeaveint y) s = .next { s with
        dem := { s.dem with mode := .zc, runSign := sgn y, runN := 1, yPrev := y, x0 := 0 } }

/-- DEM.VAR (41_demodulator.md R152): the oldest entry of the window is replaced and both sums follow. -/
def Obligations.VarianceWindowStep : Prop :=
  ∀ (s : State) (y : Rat), s.dem.vpos ≤ 8191 →
    ∃ t, exec (.demVar y) s = .next t
      ∧ t = { s with dem := { s.dem with
          vring := t.dem.vring, vpos := t.dem.vpos
          vs1 := s.dem.vs1 + y - vringAt s s.dem.vpos
          vs2 := s.dem.vs2 + y * y - vringAt s s.dem.vpos * vringAt s s.dem.vpos } }
      ∧ (∀ i, vringAt t i = if i = s.dem.vpos then y else vringAt s i)
      ∧ (s.rate.vwin ≠ 0 → t.dem.vpos = (s.dem.vpos + 1) % s.rate.vwin)

/-- DEM.SAMPLE (41_demodulator.md R140): filter, count, variance tracker, then the step of the mode. -/
def Obligations.OneSample : Prop :=
  ∀ (s : State) (raw : BitVec 16), StateOk s →
    ∃ f y v t,
      (if s.cfg.getLsbD 6 then exec (.demAvg raw) s = .next f ∧ f.port.ret = .rational y
        else f = s ∧ y = ((raw.toInt : Int) : Rat))
      ∧ (if s.cfg.getLsbD 2 then
          exec (.demVar y) { s with
            dem := { f.dem with sampleCount := s.dem.sampleCount + 1 } } = .next v
        else v = { s with dem := { f.dem with sampleCount := s.dem.sampleCount + 1 } })
      ∧ exec (.demSample raw) s = .next t
      ∧ (if s.dem.mode = .zc then exec (.demZc y) v = .next t else exec (.demInt y) v = .next t)

/-- What 41_demodulator.md R153 derives: the scaled variance of a window with the sums of its contents is never
negative. -/
def Obligations.VarianceNonnegative : Prop :=
  ∀ s : State, WindowSums s → 0 ≤ (s.rate.vwin : Rat) * s.dem.vs2 - s.dem.vs1 * s.dem.vs1

/-- Part of what 41_demodulator.md R155 (a) derives, for CFG.ALT = 0 (with ALT = 1 the variance registers hold the
magnitudes, and this says nothing): in zero-crossing mode without precision mode, filter and variance gate, two
samples of one sign class take two states that differ at most in the value of the previous sample to states that differ
at most in that value: the bits depend on the signs alone. -/
def Obligations.BitsDependOnSignsOnly : Prop :=
  ∀ (s t : State) (v w : BitVec 16) (q : Rat),
    cfgPrec s.cfg = false → cfgAvg s.cfg = false → cfgAlt s.cfg = false → s.dem.mode = .zc →
    (0 ≤ v.toInt ↔ 0 ≤ w.toInt) → exec (.sample v) s = .next t →
    ∃ p, exec (.sample w) { s with dem := { s.dem with yPrev := q } }
      = .next { t with dem := { t.dem with yPrev := p } }

/-! ## Synchroniser -/

/-- SYN.SHIFT (42_synchronizer.md R172): every symbol moves up one place, the new one comes first. SYN.CMP (R173): true
iff each of the 32 symbols is the bit of the reference window, the newest against the last; a window that holds an X is
never the preamble. -/
def Obligations.Correlator : Prop :=
  ∀ (s : State) (b : Bit3),
    (∃ t, exec (.synShift b) s = .next t
      ∧ t = { s with syn := { s.syn with corr := t.syn.corr } }
      ∧ t.syn.corr[0] = b
      ∧ ∀ i : Fin 31, t.syn.corr[i.val + 1]'(Nat.succ_lt_succ i.isLt) = s.syn.corr[i.val])
    ∧ ∃ m : Bool,
      exec .synCmp s = .next { s with port := { s.port with ret := .bool m } }
      ∧ (m = true ↔ ∀ i : Fin 32, s.syn.corr[i]
          = if s.par.val.refpat.getLsbD (s.par.val.headofs + 31 - i.val) then .one else .zero)
      ∧ ((∃ i : Fin 32, s.syn.corr[i] = .x) → m = false)

/-- SYN.ACQ (42_synchronizer.md R174, R178). -/
def Obligations.AcquirePreamble : Prop :=
  ∀ s : State, exec .synAcq s = .next { s with syn := { s.syn with
    syncState := .assemble, byteIndex := s.par.val.framestart, bitCount := 0, suspectRun := 0
    targetLen := if s.cfg.extractLsb' 3 2 = 1#2 then 320 else 518 } }

/-- SYN.BIT (42_synchronizer.md R170): the bit is counted and shifted in; while searching, a match acquires; while
assembling, the bit is collected and the eighth finishes the byte. -/
def Obligations.AcceptBit : Prop :=
  ∀ (s : State) (b : Bit3), s.syn.byteIndex ≤ 517 →
    ∃ h c m t,
      exec (.synShift b) { s with syn := { s.syn with bitCounter := s.syn.bitCounter + 1 } }
        = .next h
      ∧ exec .synCmp h = .next c ∧ c.port.ret = .bool m
      ∧ exec (.synBit b) s = .next t
      ∧ (s.syn.syncState = .search → m = true → exec .synAcq h = .next t)
      ∧ (s.syn.syncState = .search → m = false → t = h)
      ∧ (s.syn.syncState = .assemble → s.syn.bitCount.val < 7 →
          t = { h with syn := { h.syn with
            bitbuf := s.syn.bitbuf.set s.syn.bitCount.val b, bitCount := s.syn.bitCount + 1 } })
      ∧ (s.syn.syncState = .assemble → s.syn.bitCount.val = 7 →
          exec .synByte { h with syn := { h.syn with
            bitbuf := s.syn.bitbuf.set s.syn.bitCount.val b, bitCount := 0 } } = .next t)

/-- SYN.PACK (42_synchronizer.md R175): 0x100 when a symbol is X, else the byte with the first bit least
significant. -/
def Obligations.PackByte : Prop :=
  ∀ s : State, ∃ v : BitVec 9,
    exec .synPack s = .next { s with port := { s.port with ret := .packed v } }
    ∧ ((∃ i : Fin 8, s.syn.bitbuf[i] = .x) → v = 0x100#9)
    ∧ ((∀ i : Fin 8, s.syn.bitbuf[i] ≠ .x) →
        v.getLsbD 8 = false ∧ ∀ i : Fin 8, v.getLsbD i.val = decide (s.syn.bitbuf[i] = .one))

/-- SYN.BYTE (42_synchronizer.md R176, R177, R183): a packed 0x100 counts as 0; the byte is descrambled and stored;
then the suspect logic, the marker's decision and the completion test, each under its condition. -/
def Obligations.StoreByte : Prop :=
  ∀ s : State, s.syn.byteIndex ≤ 517 →
    ∃ k v a b c t,
      exec .synPack s = .next k ∧ k.port.ret = .packed v
      ∧ a = { s with rf := a.rf, syn := { s.syn with byteIndex := s.syn.byteIndex + 1 } }
      ∧ (∀ i, rfByte a i = if i = s.syn.byteIndex
          then (if v = 0x100#9 then 0#8 else v.setWidth 8) ^^^ maskAt s.par.val i
          else rfByte s i)
      ∧ (if cfgAlt s.cfg then exec (.synSusp s.syn.byteIndex) a = .next b else b = a)
      ∧ (if cfgLenMode s.cfg = .auto ∧ s.syn.byteIndex = s.par.val.posFtype
          then exec .synFtm b = .next c else c = b)
      ∧ exec .synByte s = .next t
      ∧ (if c.syn.targetLen ≤ c.syn.byteIndex
          then exec (.synDone c.syn.targetLen) c = .next t else t = c)

/-- SYN.SCORE (42_synchronizer.md R179): the number of ones in the low nibble less that in the high one; +4 for 0x0F
alone, -4 for 0xF0 alone. SYN.FTM (R180): under LENMODE = AUTO the marker 0x0F selects 320, 0xF0 selects 518, every
other value leaves TARGET_LEN; a forced length is left alone. -/
def Obligations.MarkerScoreAndDecision : Prop :=
  (∀ (s : State) (m : Byte), ∃ n : Int,
    exec (.synScore m) s = .next { s with port := { s.port with ret := .score n } }
    ∧ n = ((m.getLsbD 0).toNat + (m.getLsbD 1).toNat + (m.getLsbD 2).toNat
            + (m.getLsbD 3).toNat : Int)
        - ((m.getLsbD 4).toNat + (m.getLsbD 5).toNat + (m.getLsbD 6).toNat
            + (m.getLsbD 7).toNat : Int)
    ∧ (n = 4 ↔ m = 0x0F#8) ∧ (n = -4 ↔ m = 0xF0#8) ∧ -4 ≤ n ∧ n ≤ 4)
  ∧ ∀ s : State,
    (s.cfg.extractLsb' 3 2 ≠ 0#2 → exec .synFtm s = .next s)
    ∧ (s.cfg.extractLsb' 3 2 = 0#2 → rfByte s s.par.val.posFtype = 0x0F#8 →
      exec .synFtm s = .next { s with syn := { s.syn with targetLen := 320 } })
    ∧ (s.cfg.extractLsb' 3 2 = 0#2 → rfByte s s.par.val.posFtype = 0xF0#8 →
      exec .synFtm s = .next { s with syn := { s.syn with targetLen := 518 } })
    ∧ (rfByte s s.par.val.posFtype ≠ 0x0F#8 → rfByte s s.par.val.posFtype ≠ 0xF0#8 →
      exec .synFtm s = .next s)

/-- The three marker classes run alone (30_encoding.md R104, 42_synchronizer.md R180): the two pure patterns select a
length while LENMODE is AUTO, any other marker yields its score and nothing else. That a class can be run alone is the
model's choice (log entries 3 and 18). -/
def Obligations.MarkerClasses : Prop :=
  ∀ s : State,
    (s.cfg.extractLsb' 3 2 = 0#2 →
      exec .ftmStd s = .next { s with syn := { s.syn with targetLen := 320 } }
      ∧ exec .ftmExt s = .next { s with syn := { s.syn with targetLen := 518 } })
    ∧ (s.cfg.extractLsb' 3 2 ≠ 0#2 → exec .ftmStd s = .next s ∧ exec .ftmExt s = .next s)
    ∧ ∀ m, exec (.ftmOther m) s = exec (.synScore m) s
      ∧ exec (.ftmOther m) s
        = .next { s with port := { s.port with ret := .score (frameScore m) } }

/-- SYN.SUSP (42_synchronizer.md R181, R182): the variance is recorded; a byte at or beyond 320 whose variance exceeds
1.5 times that of 300 bytes before is suspect; four in a row truncate the frame under AUTO while the marker made no hard
decision. With ALT = 0 nothing runs. -/
def Obligations.SuspectLogic : Prop :=
  ∀ (s : State) (p : Nat),
    (cfgAlt s.cfg = false → exec (.synSusp p) s = .next s)
    ∧ (cfgAlt s.cfg = true → p ≤ 517 → ∃ t, exec (.synSusp p) s = .next t
      ∧ t = { s with syn := { s.syn with
          varHist := t.syn.varHist, suspectRun := t.syn.suspectRun, targetLen := t.syn.targetLen } }
      ∧ (∀ q, varHistAt t q = if q = p
          then (s.rate.vwin : Rat) * s.dem.vs2 - s.dem.vs1 * s.dem.vs1 else varHistAt s q)
      ∧ (320 ≤ p ∧ s.par.val.framestart + 300 ≤ p
            ∧ 3 * varHistAt t (p - 300) < 2 * varHistAt t p →
          t.syn.suspectRun = min 4 (s.syn.suspectRun + 1))
      ∧ (¬(320 ≤ p ∧ s.par.val.framestart + 300 ≤ p
            ∧ 3 * varHistAt t (p - 300) < 2 * varHistAt t p) → t.syn.suspectRun = 0)
      ∧ t.syn.targetLen = if 4 ≤ t.syn.suspectRun ∧ s.cfg.extractLsb' 3 2 = 0#2
            ∧ (frameScore (rfByte s s.par.val.posFtype)).natAbs < 4
          then max 320 (p + 1 - 4) else s.syn.targetLen)

/-- SYN.DONE (42_synchronizer.md R184): the CRC results are cleared, the frame is corrected and scanned, one complete
record is appended and counted, and the search begins again. -/
def Obligations.FrameDone : Prop :=
  ∀ (s : State) (len : Nat), ∃ f r,
    exec (.fecCorrect (min len 518)) { s with crc := { s.crc with mask := 0, auxCount := 0 } }
      = .next f
    ∧ exec .crcScan f = .next r
    ∧ exec (.synDone len) s = .next { r with
        out := { r.out with
          records := s.out.records ++ [{
            seq := s.out.frameSeq, len := min len 518, fecStatus := r.fec.status
            crcMask := r.crc.mask, auxCount := r.crc.auxCount, retried := r.fec.retried
            ftMarker := rfByte r s.par.val.posFtype
            frame := (List.range 518).map (rfByte r) }]
          frameSeq := s.out.frameSeq + 1 }
        syn := { s.syn with
          syncState := .search, byteIndex := s.par.val.framestart, bitCount := 0 } }

/-! ## Forward error correction -/

/-- FEC.PAD (43_fec.md R201): RF from `len` up is zero. FEC.ZTRAIL (R208): RF from RETRY_ZERO_LO up to and without
RETRY_ZERO_HI is zero. Every other byte keeps its value. -/
def Obligations.ZeroedRegions : Prop :=
  ∀ s : State,
    (∀ len, len ≤ 518 → ∃ t, exec (.fecPad len) s = .next t
      ∧ t = { s with rf := t.rf }
      ∧ ∀ a, rfByte t a = if len ≤ a ∧ a ≤ 517 then 0 else rfByte s a)
    ∧ ∃ t, exec .fecZtrail s = .next t
      ∧ t = { s with rf := t.rf }
      ∧ ∀ a, rfByte t a = if s.par.val.retryZeroLo ≤ a ∧ a < s.par.val.retryZeroHi
          then 0 else rfByte s a

/-- FEC.GATHER (43_fec.md R202, 30_encoding.md R103): the two codewords are the parity bytes and every second message
byte of RF, which keeps its own bytes. -/
def Obligations.GatherCodewords : Prop :=
  ∀ s : State, ∃ t, exec .fecGather s = .next t
    ∧ t = { s with fec := { s.fec with cw1 := t.fec.cw1, cw2 := t.fec.cw2 } }
    ∧ (∀ i, i < 24 → cwByte .cw1 t i = rfByte s (s.par.val.parpos + i)
        ∧ cwByte .cw2 t i = rfByte s (s.par.val.parpos + 24 + i))
    ∧ (∀ j, j < 231 → cwByte .cw1 t (24 + j) = rfByte s (s.par.val.msgpos + 2 * j)
        ∧ cwByte .cw2 t (24 + j) = rfByte s (s.par.val.msgpos + 2 * j + 1))

/-- FEC.DEC (43_fec.md R203), for every service: on `Corrected` the answer replaces the codeword and its count is
handed back, on Failure nothing is written and -1 is handed back. Run alone it asks the one service the model has, a
free value (log entry 6). -/
def Obligations.DecodeCodeword : Prop :=
  (∀ (s : State) (k : CwSel), ∃ d, d = fecDec Config.eccDecode k s
    ∧ exec (.fecDec k) s = .next d.st)
  ∧ ∀ (ecc : Ecc) (s : State) (k : CwSel), ∃ d, d = fecDec ecc k s
    ∧ d.st = { s with fec := { s.fec with cw1 := d.st.fec.cw1, cw2 := d.st.fec.cw2 } }
    ∧ (k = .cw1 → d.st.fec.cw2 = s.fec.cw2) ∧ (k = .cw2 → d.st.fec.cw1 = s.fec.cw1)
    ∧ (∀ word e, ecc s.status.eccReady (Vector.ofFn fun i => cwByte k s i.val) = .corrected word e →
        (∀ i : Fin 255, cwByte k d.st i.val = word[i]) ∧ d.ok = true ∧ d.err = e.val)
    ∧ (ecc s.status.eccReady (Vector.ofFn fun i => cwByte k s i.val) = .failure →
        d.st = s ∧ d.ok = false ∧ d.err = -1)

/-- ECC.INIT marks the service ready (43_fec.md R205). FEC.STAT computes the status (R211): the sum of the counts, or
the sentinel that says which codewords failed. -/
def Obligations.EccInitAndStatus : Prop :=
  ∀ (s : State) (sel : Nat) (ok1 ok2 : Bool),
    exec (.eccInit sel) s = .next { s with status := { s.status with eccReady := true } }
    ∧ exec (.fecStat ok1 ok2) s = .next { s with
        fec := { s.fec with status :=
          match ok1, ok2 with
          | true, true => s.fec.err1 + s.fec.err2
          | false, false => s.par.val.sentBoth
          | false, true => s.par.val.sentCw1
          | true, false => s.par.val.sentCw2 } }

/-- FEC.FORCE (43_fec.md R207): the five tags go to their positions, high byte first, in the order of the rule; where
positions coincide the later write stands. -/
def Obligations.ForceTags : Prop :=
  ∀ s : State, ∃ t, exec .fecForce s = .next t
    ∧ t = { s with rf := t.rf }
    ∧ ∀ a, rfByte t a
      = ((([(s.par.val.posFrame, s.par.val.tagFrame), (s.par.val.posPtu, s.par.val.tagPtu),
            (s.par.val.posGps1, s.par.val.tagGps1), (s.par.val.posGps2, s.par.val.tagGps2),
            (s.par.val.posGps3, s.par.val.tagGps3)].flatMap fun e =>
              [(e.1, e.2.extractLsb' 8 8), (e.1 + 1, e.2.extractLsb' 0 8)]).reverse.find?
          fun w => w.1 = a).map Prod.snd).getD (rfByte s a)

/-- FEC.SCATTER (43_fec.md R210): the codeword's bytes return to the places they were gathered from; every other byte
of RF keeps its value. -/
def Obligations.ScatterCodeword : Prop :=
  ∀ (s : State) (k : CwSel) (off : Nat), (off = match k with | .cw1 => 0 | .cw2 => 1) →
    ∃ t, exec (.fecScatter k) s = .next t
      ∧ t = { s with rf := t.rf }
      ∧ (∀ i, i < 24 → rfByte t (s.par.val.parpos + 24 * off + i) = cwByte k s i)
      ∧ (∀ j, j < 231 → rfByte t (s.par.val.msgpos + 2 * j + off) = cwByte k s (24 + j))
      ∧ (∀ a, (∀ i, i < 24 → a ≠ s.par.val.parpos + 24 * off + i) →
          (∀ j, j < 231 → a ≠ s.par.val.msgpos + 2 * j + off) → rfByte t a = rfByte s a)

/-- FEC.CORRECT (43_fec.md R200, R206, R208, R209), for every service: pad, one pass; if RETRY is set and both decodes
failed, force the tags, zero the trailing region when the marker looks standard, and pass once more; then write back and
compute the status. Run alone it asks the one service the model has, a free value (log entry 6). -/
def Obligations.CorrectFrame : Prop :=
  (∀ (s : State) (len : Nat),
    exec (.fecCorrect len) s = .next (fecCorrect Config.eccDecode len s))
  ∧ ∀ (ecc : Ecc) (s : State) (len : Nat), ∃ p u ok1 ok2 t,
    exec (.fecPad (min len 518)) s = .next p ∧ PassTo ecc p u ok1 ok2
    ∧ fecCorrect ecc len s = t
    ∧ (¬(cfgRetry s.cfg = true ∧ ok1 = false ∧ ok2 = false) →
        FinishTo { u with fec := { u.fec with retried := false } } t ok1 ok2)
    ∧ (cfgRetry s.cfg = true ∧ ok1 = false ∧ ok2 = false →
        ∃ f z v again1 again2,
          exec .fecForce { u with fec := { u.fec with retried := true } } = .next f
          ∧ (if s.par.val.ftRetryStdMin ≤ frameScore (rfByte f s.par.val.posFtype)
              then exec .fecZtrail f = .next z else z = f)
          ∧ PassTo ecc z v again1 again2 ∧ FinishTo v t again1 again2)

/-- Correction restores a frame: with a service that meets the contract of 43_fec.md R204, a padded frame whose two
gathered words lie within 12 byte errors of two codewords is left holding those codewords, all other bytes as padded,
with the two error counts and their sum as status and no retry (R200, R205, R210, R211; idempotence is the case of no
errors). The contract is a hypothesis on the service, which is otherwise free (log entry 6). -/
def Obligations.CorrectionRestoresFrame : Prop :=
  ∀ (C : Codeword → Prop) (ecc : Ecc), EccContract C ecc →
    ∀ (s p g : State) (len : Nat) (c1 c2 : Codeword), s.status.eccReady = true →
      exec (.fecPad (min len 518)) s = .next p → exec .fecGather p = .next g →
      C c1 → C c2 →
      Codeword.distance (cwWord .cw1 g) c1 ≤ 12 → Codeword.distance (cwWord .cw2 g) c2 ≤ 12 →
      (fecCorrect ecc len s).fec.err1 = Codeword.distance (cwWord .cw1 g) c1
      ∧ (fecCorrect ecc len s).fec.err2 = Codeword.distance (cwWord .cw2 g) c2
      ∧ (fecCorrect ecc len s).fec.status
          = Codeword.distance (cwWord .cw1 g) c1 + Codeword.distance (cwWord .cw2 g) c2
      ∧ (fecCorrect ecc len s).fec.retried = false
      ∧ (∀ i : Fin 24, rfByte (fecCorrect ecc len s) (s.par.val.parpos + i.val) = c1[i.val]
          ∧ rfByte (fecCorrect ecc len s) (s.par.val.parpos + 24 + i.val) = c2[i.val])
      ∧ (∀ j : Fin 231,
          rfByte (fecCorrect ecc len s) (s.par.val.msgpos + 2 * j.val) = c1[24 + j.val]'(Nat.add_lt_add_left j.isLt 24)
          ∧ rfByte (fecCorrect ecc len s) (s.par.val.msgpos + 2 * j.val + 1) = c2[24 + j.val]'(Nat.add_lt_add_left j.isLt 24))
      ∧ (∀ a, ¬(s.par.val.parpos ≤ a ∧ a < s.par.val.parpos + 48) →
          ¬(s.par.val.msgpos ≤ a ∧ a < s.par.val.msgpos + 462) →
          rfByte (fecCorrect ecc len s) a = rfByte p a)

/-! ## CRC -/

/-- CRC.UPD (44_crc.md R230): the byte enters at the high end, then eight shifts with the polynomial 0x1021. -/
def Obligations.CrcUpdate : Prop :=
  ∀ (s : State) (r : BitVec 16) (b : Byte), ∃ w : BitVec 16,
    exec (.crcUpd r b) s = .next { s with port := { s.port with ret := .word w } }
    ∧ w = Nat.iterate
        (fun r : BitVec 16 => if r.getLsbD 15 then (r <<< 1) ^^^ 0x1021#16 else r <<< 1)
        8 (r ^^^ (b ++ 0x00#8))

/-- CRC.CALC (44_crc.md R231): CRC_REG is left holding the CRC of the range, from 0xFFFF, one CRC.UPD a byte and no
final xor. -/
def Obligations.CrcOfRange : Prop :=
  ∀ (s : State) (start n : Nat), n ≤ 255 → start + n ≤ 518 → ∃ w : BitVec 16,
    w = (List.range n).foldl (fun r i => crcUpd r (rfByte s (start + i))) 0xFFFF#16
    ∧ exec (.crcCalc start n) s = .next { s with
        crc := { s.crc with reg := w }, port := { s.port with ret := .word w } }

/-- The CRC over data and its own CRC, appended high byte first, is zero (90_conflicts.md C9). -/
def Obligations.CrcResidueZero : Prop :=
  ∀ bs : List Byte,
    crc16 (bs ++ [(crc16 bs).extractLsb' 8 8, (crc16 bs).extractLsb' 0 8]) = 0#16

/-- CRC.CHECK (44_crc.md R232, R233), its tests in the order written. -/
def Obligations.CrcCheckResult : Prop :=
  ∀ (s : State) (pos : Nat) (hi : Byte),
    (518 ≤ pos ∨ rfByte s pos ≠ hi →
      exec (.crcCheck pos hi) s
        = .next { s with port := { s.port with ret := .check .mismatchMarker } })
    ∧ (pos < 518 → rfByte s pos = hi → 518 < pos + 4 →
      exec (.crcCheck pos hi) s
        = .next { s with port := { s.port with ret := .check .crcFail } })
    ∧ ∀ len, len = (rfByte s (pos + 1)).toNat → pos + 4 ≤ 518 → rfByte s pos = hi →
      (518 < pos + len + 4 → exec (.crcCheck pos hi) s
        = .next { s with port := { s.port with ret := .check .crcFail } })
      ∧ (pos + len + 4 ≤ 518 → ∃ (stored sum : BitVec 16) (r : CheckResult),
          (stored = if s.par.val.crcStoreBe then rfByte s (pos + 2 + len) ++ rfByte s (pos + 3 + len)
            else rfByte s (pos + 3 + len) ++ rfByte s (pos + 2 + len))
          ∧ sum = crc16 (rfBytes s (pos + 2) len)
          ∧ r = (if sum = stored then .ok else .crcFail)
          ∧ exec (.crcCheck pos hi) s = .next { s with
              crc := { s.crc with reg := sum }, port := { s.port with ret := .check r } })

/-- The data-selected checks (30_encoding.md R100, 44_crc.md R234, R236): CHK.FRAME to CHK.GPS3 are the five lines of
CRC.SCAN, CHK.ZERO the check of the zero-padding block at its position: CRC.CHECK runs, and the kind's bit of CRC_MASK
is set unless it answered OK. That a line can be run alone, CHK.ZERO at any position, is the model's choice (log entries
18 and 28). -/
def Obligations.SubBlockChecks : Prop :=
  ∀ (s : State) (pos : Nat),
    ∀ line ∈ ([(.chkFrame, 0, s.par.val.posFrame, s.par.val.tagFrame.extractLsb' 8 8),
        (.chkPtu, 1, s.par.val.posPtu, s.par.val.tagPtu.extractLsb' 8 8),
        (.chkGps1, 2, s.par.val.posGps1, s.par.val.tagGps1.extractLsb' 8 8),
        (.chkGps2, 3, s.par.val.posGps2, s.par.val.tagGps2.extractLsb' 8 8),
        (.chkGps3, 4, s.par.val.posGps3, s.par.val.tagGps3.extractLsb' 8 8),
        (.chkZero pos, 6, pos, s.par.val.tagZeroHi)] : List (Instr × Nat × Nat × Byte)),
      ∃ c r t, exec (.crcCheck line.2.2.1 line.2.2.2) s = .next c ∧ c.port.ret = .check r
        ∧ exec line.1 s = .next t ∧ t = { c with crc := { c.crc with mask := t.crc.mask } }
        ∧ (∀ k, k < 7 → t.crc.mask.getLsbD k
            = (s.crc.mask.getLsbD k || (decide (k = line.2.1) && decide (r ≠ .ok))))

/-- CHK.AUX (44_crc.md R235): one pass of the chain's loop. A block that passes is counted, one that fails sets bit 5,
and a byte that is not TAG_AUX_HI ends the chain without an error. That a pass can be run alone, at any position, is the
model's choice (log entries 18 and 28). -/
def Obligations.AuxBlockCheck : Prop :=
  ∀ (s : State) (pos : Nat),
    (¬(pos < 518 ∧ rfByte s pos = s.par.val.tagAuxHi) →
      exec (.chkAux pos) s = .next { s with port := { s.port with ret := .check .mismatchMarker } })
    ∧ (pos < 518 → rfByte s pos = s.par.val.tagAuxHi →
      ∃ c r, exec (.crcCheck pos s.par.val.tagAuxHi) s = .next c ∧ c.port.ret = .check r
        ∧ exec (.chkAux pos) s = .next { c with crc := { c.crc with
            auxCount := if r = .ok then s.crc.auxCount + 1 else s.crc.auxCount
            mask := if r = .ok then s.crc.mask else s.crc.mask ||| 0x20#7 } })

/-- CRC.SCAN and CRC.AUXWALK (44_crc.md R234, R235, R236): a fixed sub-block's bit is set iff its block is not valid;
the chain of AUX blocks is counted, bit 5 is set iff it ended in a failed block, bit 6 iff it did or the block where it
ended is not a valid zero-padding block. Nothing but the CRC unit changes. -/
def Obligations.ScanFrame : Prop :=
  ∀ s : State, ∃ n last failed t w,
    AuxChain s s.par.val.posAux n last failed
    ∧ exec .crcAuxwalk s = .next w ∧ w = { s with crc := w.crc }
    ∧ w.crc.auxCount = s.crc.auxCount + n
    ∧ (∀ k, k < 5 → w.crc.mask.getLsbD k = s.crc.mask.getLsbD k)
    ∧ (w.crc.mask.getLsbD 5 = true ↔ s.crc.mask.getLsbD 5 = true ∨ failed = true)
    ∧ (w.crc.mask.getLsbD 6 = true ↔ s.crc.mask.getLsbD 6 = true ∨ failed = true
        ∨ ¬BlockOk s last s.par.val.tagZeroHi)
    ∧ exec .crcScan s = .next t ∧ t = { s with crc := t.crc }
    ∧ t.crc.auxCount = s.crc.auxCount + n
    ∧ (t.crc.mask.getLsbD 0 = true ↔ s.crc.mask.getLsbD 0 = true
        ∨ ¬BlockOk s s.par.val.posFrame (s.par.val.tagFrame.extractLsb' 8 8))
    ∧ (t.crc.mask.getLsbD 1 = true ↔ s.crc.mask.getLsbD 1 = true
        ∨ ¬BlockOk s s.par.val.posPtu (s.par.val.tagPtu.extractLsb' 8 8))
    ∧ (t.crc.mask.getLsbD 2 = true ↔ s.crc.mask.getLsbD 2 = true
        ∨ ¬BlockOk s s.par.val.posGps1 (s.par.val.tagGps1.extractLsb' 8 8))
    ∧ (t.crc.mask.getLsbD 3 = true ↔ s.crc.mask.getLsbD 3 = true
        ∨ ¬BlockOk s s.par.val.posGps2 (s.par.val.tagGps2.extractLsb' 8 8))
    ∧ (t.crc.mask.getLsbD 4 = true ↔ s.crc.mask.getLsbD 4 = true
        ∨ ¬BlockOk s s.par.val.posGps3 (s.par.val.tagGps3.extractLsb' 8 8))
    ∧ (t.crc.mask.getLsbD 5 = true ↔ s.crc.mask.getLsbD 5 = true ∨ failed = true)
    ∧ (t.crc.mask.getLsbD 6 = true ↔ s.crc.mask.getLsbD 6 = true ∨ failed = true
        ∨ ¬BlockOk s last s.par.val.tagZeroHi)

/-! ## The whole machine -/

/-- The state after reset keeps the invariant and the sums of the variance window. -/
def Obligations.ResetKeepsInvariant : Prop :=
  StateOk State.reset ∧ WindowSums State.reset ∧ commandsOnly State.reset

/-- From every state that keeps the invariant, with only command words on the port, a step stops neither with a fault
nor with a refusal, and the next state keeps the invariant: the ranges of 10_state.md, the sequencing invariants that
46_arithmetic_and_sequencing.md R283 and 42_synchronizer.md R183 derive, the canonical form of every buffer. That
FEC_STATUS fits its 8 bits rests on the gate of log entry 27. -/
def Obligations.EveryCommandKeepsInvariant : Prop :=
  ∀ s : State, commandsOnly s → StateOk s → ∃ t, step s = .next t ∧ StateOk t ∧ commandsOnly t

/-- Every step, an injected operation's too, keeps every buffer inside its index range and in canonical form
(20_memory.md R60, R71; the canonical form is the model's, log entry 20). -/
def Obligations.EveryStepKeepsBuffers : Prop :=
  ∀ s t : State, BuffersWf s → step s = .next t → BuffersWf t

/-- The sums of the variance window stay those of its contents under every command (41_demodulator.md R152, R153). -/
def Obligations.WindowSumsKept : Prop :=
  ∀ s t : State, commandsOnly s → StateOk s → WindowSums s → step s = .next t → WindowSums t

/-- Configuration lock (70_reset_and_hazards.md R324): once a session has started, no command but RESET changes CFG,
SPBN, SPBD, VWIN, ends the session or changes its input mode; the parameter record never changes (20_memory.md R77). -/
def Obligations.ConfigurationLocked : Prop :=
  ∀ (s t : State) (i : Instr), exec i s = .next t →
    t.par = s.par
    ∧ (s.status.started = true → i ≠ .reset →
        t.cfg = s.cfg ∧ t.rate = s.rate ∧ t.status.started = true)
    ∧ (s.status.inmode ≠ .none → i ≠ .reset → t.status.inmode = s.status.inmode)

/-- Sticky flags (10_state.md R23): no operation but RESET clears CMDERR, CFGERR or EOS. -/
def Obligations.StickyFlagsStay : Prop :=
  ∀ (s t : State) (i : Instr), i ≠ .reset → exec i s = .next t →
    (s.status.cmderr = true → t.status.cmderr = true)
    ∧ (s.status.cfgerr = true → t.status.cfgerr = true)
    ∧ (s.status.eos = true → t.status.eos = true)

/-- Output order (20_memory.md R78): no operation but RESET takes back or alters a record; new records are appended,
each with the next sequence number and all 518 bytes. -/
def Obligations.OutputAppendOnly : Prop :=
  ∀ (s t : State) (i : Instr), i ≠ .reset → exec i s = .next t →
    ∃ new, t.out.records = s.out.records ++ new
      ∧ new.map FrameOut.seq = (List.range new.length).map (fun k => s.out.frameSeq + k)
      ∧ t.out.frameSeq = s.out.frameSeq + new.length
      ∧ (∀ r ∈ new, r.frame.length = 518 ∧ r.len ≤ 518)
      ∧ s.out.rdPtr ≤ t.out.rdPtr

/-- Where an index outside its buffer stops the model (log entry 9): only operations run in states that no command
reaches. The spec says that no operation reads or writes outside an index range (20_memory.md R71) and describes no
effect. -/
def Obligations.OutsideIndexFaults : Prop :=
  ∀ (s : State) (y : Rat) (p start n : Nat),
    (8192 ≤ s.dem.vpos → exec (.demVar y) s = .fault (.noSuchIndex .vring s.dem.vpos))
    ∧ (cfgAlt s.cfg = true → 518 ≤ p → exec (.synSusp p) s = .fault (.noSuchIndex .varHist p))
    ∧ (518 ≤ s.syn.byteIndex → exec .synByte s = .fault (.noSuchIndex .rf s.syn.byteIndex))
    ∧ (n ≠ 0 → 518 < start + n →
        exec (.crcCalc start n) s = .fault (.noSuchIndex .rf (max start 518)))
end

