-- ==== Sys2Proof/Laws/Memory.lean ====
section
/-! SUPPORT. The laws of the sparse buffers: what a read gives after a write, and that every operation keeps the
canonical form. -/

namespace Sys2Proof.Machine

section
variable {α : Type}

/-! ## Reading -/

@[simp] theorem cellsGet_nil (d : Nat → α) (a : Nat) : cellsGet d [] a = d a := rfl

theorem cellsGet_cons (d : Nat → α) (k : Nat) (v : α) (m : Cells α) (a : Nat) :
    cellsGet d ((k, v) :: m) a = if a = k then v else cellsGet d m a := rfl

theorem cellsGet_erase_same (d : Nat → α) (m : Cells α) (a : Nat) :
    cellsGet d (cellsErase a m) a = d a := by
  induction m with
  | nil => rfl
  | cons e m ih =>
    obtain ⟨k, v⟩ := e
    by_cases h : k = a
    · simpa [cellsErase, h] using ih
    · simpa [cellsErase, h, cellsGet_cons, Ne.symm h] using ih

theorem cellsGet_erase_ne (d : Nat → α) (m : Cells α) {a b : Nat} (hb : b ≠ a) :
    cellsGet d (cellsErase a m) b = cellsGet d m b := by
  induction m with
  | nil => rfl
  | cons e m ih =>
    obtain ⟨k, v⟩ := e
    by_cases h : k = a
    · subst h
      simpa [cellsErase, cellsGet_cons, hb] using ih
    · have ih' : cellsGet d (List.filter (fun e => decide (e.1 ≠ a)) m) b = cellsGet d m b := ih
      simp only [cellsErase, List.filter_cons, h, ne_eq, not_false_eq_true, decide_true, if_true,
        cellsGet_cons]
      simp only [ne_eq] at ih'
      rw [ih']

theorem cellsGet_insert_same (d : Nat → α) (m : Cells α) (a : Nat) (v : α)
    (h : ∀ e ∈ m, e.1 ≠ a) : cellsGet d (cellsInsert a v m) a = v := by
  induction m with
  | nil => simp [cellsInsert, cellsGet_cons]
  | cons e m ih =>
    obtain ⟨k, w⟩ := e
    have hk : a ≠ k := fun e => h (k, w) (by simp) e.symm
    by_cases hlt : a < k
    · simp [cellsInsert, hlt, cellsGet_cons]
    · simpa [cellsInsert, hlt, cellsGet_cons, hk] using
        ih fun e he => h e (List.mem_cons_of_mem _ he)

theorem cellsGet_insert_ne (d : Nat → α) (m : Cells α) {a b : Nat} (v : α) (hb : b ≠ a) :
    cellsGet d (cellsInsert a v m) b = cellsGet d m b := by
  induction m with
  | nil => simp [cellsInsert, cellsGet_cons, hb]
  | cons e m ih =>
    obtain ⟨k, w⟩ := e
    by_cases hlt : a < k
    · simp [cellsInsert, hlt, cellsGet_cons, hb]
    · simp [cellsInsert, hlt, cellsGet_cons, ih]

theorem cellsErase_keys (a : Nat) (m : Cells α) : ∀ e ∈ cellsErase a m, e.1 ≠ a := by
  intro e he
  simpa [cellsErase] using (List.mem_filter.mp he).2

/-! ## The canonical form -/

theorem cellsRising_filter (p : Nat → α → Bool) (q : Nat × α → Bool) (m : Cells α)
    (h : cellsRising p m = true) : cellsRising p (m.filter q) = true := by
  induction m with
  | nil => rfl
  | cons e m ih =>
    obtain ⟨k, v⟩ := e
    simp only [cellsRising, Bool.and_eq_true] at h
    by_cases hq : q (k, v) = true
    · have hall : (m.filter q).all (fun e => decide (k < e.1)) = true := by
        rw [List.all_eq_true] at h ⊢
        intro e he
        exact h.1.2 e (List.mem_filter.mp he).1
      simp [hq, cellsRising, h.1.1, hall, ih h.2]
    · simpa [hq] using ih h.2

theorem cellsRising_insert (p : Nat → α → Bool) (m : Cells α) (a : Nat) (v : α)
    (hp : p a v = true) (hk : ∀ e ∈ m, e.1 ≠ a) (h : cellsRising p m = true) :
    cellsRising p (cellsInsert a v m) = true := by
  induction m with
  | nil => simp [cellsInsert, cellsRising, hp]
  | cons e m ih =>
    obtain ⟨k, w⟩ := e
    simp only [cellsRising, Bool.and_eq_true] at h
    have hne : k ≠ a := hk (k, w) (by simp)
    by_cases hlt : a < k
    · have hall : m.all (fun e => decide (a < e.1)) = true := by
        rw [List.all_eq_true] at h ⊢
        intro e he
        have := of_decide_eq_true (h.1.2 e he)
        exact decide_eq_true (by omega)
      simp [cellsInsert, hlt, cellsRising, hp, h.1.1, h.2, h.1.2, hall]
    · have ih' := ih (fun e he => hk e (List.mem_cons_of_mem _ he)) h.2
      have hall : (cellsInsert a v m).all (fun e => decide (k < e.1)) = true := by
        have hm := h.1.2
        clear ih ih' h hk
        induction m with
        | nil => simp [cellsInsert]; omega
        | cons e m ih =>
          obtain ⟨k', w'⟩ := e
          simp only [List.all_cons, Bool.and_eq_true, decide_eq_true_eq] at hm
          by_cases hlt' : a < k'
          · simp only [cellsInsert, hlt', if_true, List.all_cons, Bool.and_eq_true,
              decide_eq_true_eq]
            exact ⟨by omega, hm.1, hm.2⟩
          · simp only [cellsInsert, hlt', if_false, List.all_cons, Bool.and_eq_true,
              decide_eq_true_eq]
            exact ⟨hm.1, ih hm.2⟩
      simp [cellsInsert, hlt, cellsRising, h.1.1, hall, ih']

/-! ## One write -/

variable [DecidableEq α]

/-- What one write can do: the index written reads the value, every other index reads as before. -/
theorem cellsGet_set (d : Nat → α) (m : Cells α) (a : Nat) (v : α) (b : Nat) :
    cellsGet d (cellsSet d m a v) b = if b = a then v else cellsGet d m b := by
  unfold cellsSet
  by_cases hv : v = d a
  · by_cases hb : b = a
    · subst hb; simp [hv, cellsGet_erase_same]
    · simp [hv, hb, cellsGet_erase_ne]
  · by_cases hb : b = a
    · subst hb
      simp [hv, cellsGet_insert_same _ _ _ _ (cellsErase_keys b m)]
    · simp [hv, hb, cellsGet_insert_ne, cellsGet_erase_ne]

@[simp] theorem cellsGet_set_same (d : Nat → α) (m : Cells α) (a : Nat) (v : α) :
    cellsGet d (cellsSet d m a v) a = v := by simp [cellsGet_set]

theorem cellsGet_set_ne (d : Nat → α) (m : Cells α) {a b : Nat} (v : α) (h : b ≠ a) :
    cellsGet d (cellsSet d m a v) b = cellsGet d m b := by simp [cellsGet_set, h]

/-! ## A run of writes -/

@[simp] theorem cellsWriteRun_zero (d : Nat → α) (m : Cells α) (addr : Nat → Nat) (val : Nat → α) :
    cellsWriteRun d m 0 addr val = m := rfl

theorem cellsWriteRun_succ (d : Nat → α) (m : Cells α) (n : Nat) (addr : Nat → Nat)
    (val : Nat → α) :
    cellsWriteRun d m (n + 1) addr val
      = cellsSet d (cellsWriteRun d m n addr val) (addr n) (val n) := by
  simp [cellsWriteRun, List.range_succ, List.foldl_append]

/-- An index that no write of the run names reads as before. -/
theorem cellsGet_writeRun_miss (d : Nat → α) (m : Cells α) (n : Nat) (addr : Nat → Nat)
    (val : Nat → α) (b : Nat) (h : ∀ i < n, b ≠ addr i) :
    cellsGet d (cellsWriteRun d m n addr val) b = cellsGet d m b := by
  induction n with
  | zero => rfl
  | succ n ih =>
    rw [cellsWriteRun_succ, cellsGet_set_ne _ _ _ (h n (by omega))]
    exact ih fun i hi => h i (by omega)

/-- An index that one write of the run names reads that write's value, where the run's indices differ. -/
theorem cellsGet_writeRun_hit (d : Nat → α) (m : Cells α) (n : Nat) (addr : Nat → Nat)
    (val : Nat → α) (inj : ∀ i j, i < n → j < n → addr i = addr j → i = j) {i : Nat}
    (hi : i < n) : cellsGet d (cellsWriteRun d m n addr val) (addr i) = val i := by
  induction n with
  | zero => omega
  | succ n ih =>
    rw [cellsWriteRun_succ, cellsGet_set]
    by_cases h : addr i = addr n
    · have := inj i n hi (by omega) h
      simp [this]
    · have hne : i ≠ n := fun e => h (by rw [e])
      simp only [h, if_false]
      exact ih (fun a b ha hb => inj a b (by omega) (by omega)) (by omega)

/-! ## Writes keep the canonical form -/

/-- A write inside the buffer keeps the canonical form. -/
theorem cellsWf_set (d : Nat → α) (size : Nat) (m : Cells α) (a : Nat) (v : α) (ha : a < size)
    (h : cellsWf d size m = true) : cellsWf d size (cellsSet d m a v) = true := by
  have he : cellsWf d size (cellsErase a m) = true := cellsRising_filter _ _ m h
  unfold cellsSet
  by_cases hv : v = d a
  · simpa [hv] using he
  · simp only [hv, if_false]
    exact cellsRising_insert _ _ a v (by simp [ha, hv]) (cellsErase_keys a m) he

/-- A run of writes inside the buffer keeps the canonical form. -/
theorem cellsWf_writeRun (d : Nat → α) (size : Nat) (m : Cells α) (n : Nat) (addr : Nat → Nat)
    (val : Nat → α) (ha : ∀ i < n, addr i < size) (h : cellsWf d size m = true) :
    cellsWf d size (cellsWriteRun d m n addr val) = true := by
  induction n with
  | zero => simpa using h
  | succ n ih =>
    rw [cellsWriteRun_succ]
    exact cellsWf_set d size _ _ _ (ha n (by omega)) (ih fun i hi => ha i (by omega))

@[simp] theorem cellsWf_nil (d : Nat → α) (size : Nat) : cellsWf d size [] = true := rfl

end

/-- The reset state's buffers list nothing, so they are in canonical form. -/
theorem reset_buffersWf (P : Parameters) (r : Bool) (l : List Pending) :
    BuffersWf (State.atReset P r l) := ⟨rfl, rfl, rfl, rfl, rfl⟩

end Sys2Proof.Machine
end

