-- ==== Sys2Proof/Laws/State.lean ====
section
/-! SUPPORT. One lemma per field per update of the state, so that no proof unfolds a record update. -/

namespace Sys2Proof.Machine

/-! ## withCfg -/

section
variable (s : State) (c : BitVec 8)
@[simp] theorem State.withCfg_par : (s.withCfg c).par = s.par := rfl
@[simp] theorem State.withCfg_cfg : (s.withCfg c).cfg = c := rfl
@[simp] theorem State.withCfg_rate : (s.withCfg c).rate = s.rate := rfl
@[simp] theorem State.withCfg_status : (s.withCfg c).status = s.status := rfl
@[simp] theorem State.withCfg_dem : (s.withCfg c).dem = s.dem := rfl
@[simp] theorem State.withCfg_syn : (s.withCfg c).syn = s.syn := rfl
@[simp] theorem State.withCfg_rf : (s.withCfg c).rf = s.rf := rfl
@[simp] theorem State.withCfg_fec : (s.withCfg c).fec = s.fec := rfl
@[simp] theorem State.withCfg_crc : (s.withCfg c).crc = s.crc := rfl
@[simp] theorem State.withCfg_out : (s.withCfg c).out = s.out := rfl
@[simp] theorem State.withCfg_port : (s.withCfg c).port = s.port := rfl
end

/-! ## withRate -/

section
variable (s : State) (r : Rate)
@[simp] theorem State.withRate_par : (s.withRate r).par = s.par := rfl
@[simp] theorem State.withRate_cfg : (s.withRate r).cfg = s.cfg := rfl
@[simp] theorem State.withRate_rate : (s.withRate r).rate = r := rfl
@[simp] theorem State.withRate_status : (s.withRate r).status = s.status := rfl
@[simp] theorem State.withRate_dem : (s.withRate r).dem = s.dem := rfl
@[simp] theorem State.withRate_syn : (s.withRate r).syn = s.syn := rfl
@[simp] theorem State.withRate_rf : (s.withRate r).rf = s.rf := rfl
@[simp] theorem State.withRate_fec : (s.withRate r).fec = s.fec := rfl
@[simp] theorem State.withRate_crc : (s.withRate r).crc = s.crc := rfl
@[simp] theorem State.withRate_out : (s.withRate r).out = s.out := rfl
@[simp] theorem State.withRate_port : (s.withRate r).port = s.port := rfl
end

/-! ## withStatus -/

section
variable (s : State) (t : Status)
@[simp] theorem State.withStatus_par : (s.withStatus t).par = s.par := rfl
@[simp] theorem State.withStatus_cfg : (s.withStatus t).cfg = s.cfg := rfl
@[simp] theorem State.withStatus_rate : (s.withStatus t).rate = s.rate := rfl
@[simp] theorem State.withStatus_status : (s.withStatus t).status = t := rfl
@[simp] theorem State.withStatus_dem : (s.withStatus t).dem = s.dem := rfl
@[simp] theorem State.withStatus_syn : (s.withStatus t).syn = s.syn := rfl
@[simp] theorem State.withStatus_rf : (s.withStatus t).rf = s.rf := rfl
@[simp] theorem State.withStatus_fec : (s.withStatus t).fec = s.fec := rfl
@[simp] theorem State.withStatus_crc : (s.withStatus t).crc = s.crc := rfl
@[simp] theorem State.withStatus_out : (s.withStatus t).out = s.out := rfl
@[simp] theorem State.withStatus_port : (s.withStatus t).port = s.port := rfl
end

/-! ## withDem -/

section
variable (s : State) (d : Dem)
@[simp] theorem State.withDem_par : (s.withDem d).par = s.par := rfl
@[simp] theorem State.withDem_cfg : (s.withDem d).cfg = s.cfg := rfl
@[simp] theorem State.withDem_rate : (s.withDem d).rate = s.rate := rfl
@[simp] theorem State.withDem_status : (s.withDem d).status = s.status := rfl
@[simp] theorem State.withDem_dem : (s.withDem d).dem = d := rfl
@[simp] theorem State.withDem_syn : (s.withDem d).syn = s.syn := rfl
@[simp] theorem State.withDem_rf : (s.withDem d).rf = s.rf := rfl
@[simp] theorem State.withDem_fec : (s.withDem d).fec = s.fec := rfl
@[simp] theorem State.withDem_crc : (s.withDem d).crc = s.crc := rfl
@[simp] theorem State.withDem_out : (s.withDem d).out = s.out := rfl
@[simp] theorem State.withDem_port : (s.withDem d).port = s.port := rfl
end

/-! ## withSyn -/

section
variable (s : State) (y : Syn)
@[simp] theorem State.withSyn_par : (s.withSyn y).par = s.par := rfl
@[simp] theorem State.withSyn_cfg : (s.withSyn y).cfg = s.cfg := rfl
@[simp] theorem State.withSyn_rate : (s.withSyn y).rate = s.rate := rfl
@[simp] theorem State.withSyn_status : (s.withSyn y).status = s.status := rfl
@[simp] theorem State.withSyn_dem : (s.withSyn y).dem = s.dem := rfl
@[simp] theorem State.withSyn_syn : (s.withSyn y).syn = y := rfl
@[simp] theorem State.withSyn_rf : (s.withSyn y).rf = s.rf := rfl
@[simp] theorem State.withSyn_fec : (s.withSyn y).fec = s.fec := rfl
@[simp] theorem State.withSyn_crc : (s.withSyn y).crc = s.crc := rfl
@[simp] theorem State.withSyn_out : (s.withSyn y).out = s.out := rfl
@[simp] theorem State.withSyn_port : (s.withSyn y).port = s.port := rfl
end

/-! ## withRf -/

section
variable (s : State) (m : Memory)
@[simp] theorem State.withRf_par : (s.withRf m).par = s.par := rfl
@[simp] theorem State.withRf_cfg : (s.withRf m).cfg = s.cfg := rfl
@[simp] theorem State.withRf_rate : (s.withRf m).rate = s.rate := rfl
@[simp] theorem State.withRf_status : (s.withRf m).status = s.status := rfl
@[simp] theorem State.withRf_dem : (s.withRf m).dem = s.dem := rfl
@[simp] theorem State.withRf_syn : (s.withRf m).syn = s.syn := rfl
@[simp] theorem State.withRf_rf : (s.withRf m).rf = m := rfl
@[simp] theorem State.withRf_fec : (s.withRf m).fec = s.fec := rfl
@[simp] theorem State.withRf_crc : (s.withRf m).crc = s.crc := rfl
@[simp] theorem State.withRf_out : (s.withRf m).out = s.out := rfl
@[simp] theorem State.withRf_port : (s.withRf m).port = s.port := rfl
end

/-! ## withFec -/

section
variable (s : State) (f : Fec)
@[simp] theorem State.withFec_par : (s.withFec f).par = s.par := rfl
@[simp] theorem State.withFec_cfg : (s.withFec f).cfg = s.cfg := rfl
@[simp] theorem State.withFec_rate : (s.withFec f).rate = s.rate := rfl
@[simp] theorem State.withFec_status : (s.withFec f).status = s.status := rfl
@[simp] theorem State.withFec_dem : (s.withFec f).dem = s.dem := rfl
@[simp] theorem State.withFec_syn : (s.withFec f).syn = s.syn := rfl
@[simp] theorem State.withFec_rf : (s.withFec f).rf = s.rf := rfl
@[simp] theorem State.withFec_fec : (s.withFec f).fec = f := rfl
@[simp] theorem State.withFec_crc : (s.withFec f).crc = s.crc := rfl
@[simp] theorem State.withFec_out : (s.withFec f).out = s.out := rfl
@[simp] theorem State.withFec_port : (s.withFec f).port = s.port := rfl
end

/-! ## withCrc -/

section
variable (s : State) (c : Crc)
@[simp] theorem State.withCrc_par : (s.withCrc c).par = s.par := rfl
@[simp] theorem State.withCrc_cfg : (s.withCrc c).cfg = s.cfg := rfl
@[simp] theorem State.withCrc_rate : (s.withCrc c).rate = s.rate := rfl
@[simp] theorem State.withCrc_status : (s.withCrc c).status = s.status := rfl
@[simp] theorem State.withCrc_dem : (s.withCrc c).dem = s.dem := rfl
@[simp] theorem State.withCrc_syn : (s.withCrc c).syn = s.syn := rfl
@[simp] theorem State.withCrc_rf : (s.withCrc c).rf = s.rf := rfl
@[simp] theorem State.withCrc_fec : (s.withCrc c).fec = s.fec := rfl
@[simp] theorem State.withCrc_crc : (s.withCrc c).crc = c := rfl
@[simp] theorem State.withCrc_out : (s.withCrc c).out = s.out := rfl
@[simp] theorem State.withCrc_port : (s.withCrc c).port = s.port := rfl
end

/-! ## withOut -/

section
variable (s : State) (o : Output)
@[simp] theorem State.withOut_par : (s.withOut o).par = s.par := rfl
@[simp] theorem State.withOut_cfg : (s.withOut o).cfg = s.cfg := rfl
@[simp] theorem State.withOut_rate : (s.withOut o).rate = s.rate := rfl
@[simp] theorem State.withOut_status : (s.withOut o).status = s.status := rfl
@[simp] theorem State.withOut_dem : (s.withOut o).dem = s.dem := rfl
@[simp] theorem State.withOut_syn : (s.withOut o).syn = s.syn := rfl
@[simp] theorem State.withOut_rf : (s.withOut o).rf = s.rf := rfl
@[simp] theorem State.withOut_fec : (s.withOut o).fec = s.fec := rfl
@[simp] theorem State.withOut_crc : (s.withOut o).crc = s.crc := rfl
@[simp] theorem State.withOut_out : (s.withOut o).out = o := rfl
@[simp] theorem State.withOut_port : (s.withOut o).port = s.port := rfl
end

/-! ## withPort -/

section
variable (s : State) (p : Port)
@[simp] theorem State.withPort_par : (s.withPort p).par = s.par := rfl
@[simp] theorem State.withPort_cfg : (s.withPort p).cfg = s.cfg := rfl
@[simp] theorem State.withPort_rate : (s.withPort p).rate = s.rate := rfl
@[simp] theorem State.withPort_status : (s.withPort p).status = s.status := rfl
@[simp] theorem State.withPort_dem : (s.withPort p).dem = s.dem := rfl
@[simp] theorem State.withPort_syn : (s.withPort p).syn = s.syn := rfl
@[simp] theorem State.withPort_rf : (s.withPort p).rf = s.rf := rfl
@[simp] theorem State.withPort_fec : (s.withPort p).fec = s.fec := rfl
@[simp] theorem State.withPort_crc : (s.withPort p).crc = s.crc := rfl
@[simp] theorem State.withPort_out : (s.withPort p).out = s.out := rfl
@[simp] theorem State.withPort_port : (s.withPort p).port = p := rfl
end

/-! ## withRet -/

section
variable (s : State) (r : Ret)
@[simp] theorem State.withRet_par : (s.withRet r).par = s.par := rfl
@[simp] theorem State.withRet_cfg : (s.withRet r).cfg = s.cfg := rfl
@[simp] theorem State.withRet_rate : (s.withRet r).rate = s.rate := rfl
@[simp] theorem State.withRet_status : (s.withRet r).status = s.status := rfl
@[simp] theorem State.withRet_dem : (s.withRet r).dem = s.dem := rfl
@[simp] theorem State.withRet_syn : (s.withRet r).syn = s.syn := rfl
@[simp] theorem State.withRet_rf : (s.withRet r).rf = s.rf := rfl
@[simp] theorem State.withRet_fec : (s.withRet r).fec = s.fec := rfl
@[simp] theorem State.withRet_crc : (s.withRet r).crc = s.crc := rfl
@[simp] theorem State.withRet_out : (s.withRet r).out = s.out := rfl
@[simp] theorem State.withRet_pending : (s.withRet r).port.pending = s.port.pending := rfl
@[simp] theorem State.withRet_ret : (s.withRet r).port.ret = r := rfl
end

/-! ## takePending and offer -/

section
variable (s : State) (rest : List Pending) (p : Pending)
@[simp] theorem takePending_par : (takePending rest s).par = s.par := rfl
@[simp] theorem offer_par : (offer p s).par = s.par := rfl
@[simp] theorem takePending_cfg : (takePending rest s).cfg = s.cfg := rfl
@[simp] theorem offer_cfg : (offer p s).cfg = s.cfg := rfl
@[simp] theorem takePending_rate : (takePending rest s).rate = s.rate := rfl
@[simp] theorem offer_rate : (offer p s).rate = s.rate := rfl
@[simp] theorem takePending_status : (takePending rest s).status = s.status := rfl
@[simp] theorem offer_status : (offer p s).status = s.status := rfl
@[simp] theorem takePending_dem : (takePending rest s).dem = s.dem := rfl
@[simp] theorem offer_dem : (offer p s).dem = s.dem := rfl
@[simp] theorem takePending_syn : (takePending rest s).syn = s.syn := rfl
@[simp] theorem offer_syn : (offer p s).syn = s.syn := rfl
@[simp] theorem takePending_rf : (takePending rest s).rf = s.rf := rfl
@[simp] theorem offer_rf : (offer p s).rf = s.rf := rfl
@[simp] theorem takePending_fec : (takePending rest s).fec = s.fec := rfl
@[simp] theorem offer_fec : (offer p s).fec = s.fec := rfl
@[simp] theorem takePending_crc : (takePending rest s).crc = s.crc := rfl
@[simp] theorem offer_crc : (offer p s).crc = s.crc := rfl
@[simp] theorem takePending_out : (takePending rest s).out = s.out := rfl
@[simp] theorem offer_out : (offer p s).out = s.out := rfl
@[simp] theorem takePending_pending : (takePending rest s).port.pending = rest := rfl
@[simp] theorem offer_pending : (offer p s).port.pending = p :: s.port.pending := rfl
end

end Sys2Proof.Machine
end

