-- ==== Sys2Proof/Laws/Ops.lean ====
section
/-! SUPPORT. What each shared operation of Ops.lean can do, said once. -/

namespace Sys2Proof.Machine

/-! ## Operations that can stop -/

theorem andThen_eq_ok {α β : Type} (r : Res α) (f : α → Res β) (b : β) :
    andThen r f = .ok b ↔ ∃ a, r = .ok a ∧ f a = .ok b := by
  cases r <;> simp [andThen]

@[simp] theorem andThen_ok {α β : Type} (a : α) (f : α → Res β) : andThen (.ok a) f = f a := rfl

theorem toOutcome_eq_next (r : Res State) (t : State) : toOutcome r = .next t ↔ r = .ok t := by
  cases r <;> simp [toOutcome]

@[simp] theorem toOutcome_ok (s : State) : toOutcome (.ok s) = .next s := rfl

/-! ## Shift registers -/

theorem shiftIn_zero {α : Type} {n : Nat} (x : α) (v : Vector α n) (h : 0 < n) :
    (shiftIn x v)[0] = x := by simp [shiftIn]

theorem shiftIn_succ {α : Type} {n : Nat} (x : α) (v : Vector α n) (i : Nat) (h : i + 1 < n) :
    (shiftIn x v)[i + 1] = v[i] := by simp [shiftIn]

/-! ## What updates of another unit leave of the buffers -/

theorem rfByte_congr (s t : State) (hp : t.par = s.par) (hr : t.rf = s.rf) (a : Nat) :
    rfByte t a = rfByte s a := by simp [rfByte, hp, hr]

theorem rfBytes_congr (s t : State) (hp : t.par = s.par) (hr : t.rf = s.rf) (a n : Nat) :
    rfBytes t a n = rfBytes s a n := by simp [rfBytes, rfByte, hp, hr]

/-! ## RF -/

/-- What `RF[a] <- v` can do to a read: the byte written reads the value, every other byte as before. -/
theorem rfByte_rfSet (s : State) (a : Nat) (v : Byte) (b : Nat) :
    rfByte (rfSet s a v) b = if b = a then v else rfByte s b := by
  simp [rfByte, rfSet, cellsGet_set]

/-- A byte that no write of a run names reads as before. -/
theorem rfByte_rfWriteRun_miss (s : State) (n : Nat) (addr : Nat → Nat) (val : Nat → Byte) (b : Nat)
    (h : ∀ i < n, b ≠ addr i) : rfByte (rfWriteRun s n addr val) b = rfByte s b := by
  simp [rfByte, rfWriteRun, cellsGet_writeRun_miss _ _ _ _ _ _ h]

/-- A byte that one write of a run names reads its value, where the run's indices differ. -/
theorem rfByte_rfWriteRun_hit (s : State) (n : Nat) (addr : Nat → Nat) (val : Nat → Byte)
    (inj : ∀ i j, i < n → j < n → addr i = addr j → i = j) {i : Nat} (hi : i < n) :
    rfByte (rfWriteRun s n addr val) (addr i) = val i := by
  simp [rfByte, rfWriteRun, cellsGet_writeRun_hit _ _ _ _ _ inj hi]

/-! ## CW1 and CW2 -/

/-- Replacing one codeword's buffer touches nothing but that buffer. -/
theorem withCw_eq (k : CwSel) (m : Memory) (s : State) :
    withCw k m s = s.withFec { s.fec with
      cw1 := if k = .cw1 then m else s.fec.cw1, cw2 := if k = .cw2 then m else s.fec.cw2 } := by
  cases k <;> rfl

/-- A run of writes to one codeword leaves the other's bytes. -/
theorem cwByte_cwWriteRun_other {k l : CwSel} (h : l ≠ k) (s : State) (n : Nat) (addr : Nat → Nat)
    (val : Nat → Byte) (b : Nat) : cwByte l (cwWriteRun k s n addr val) b = cwByte l s b := by
  cases k <;> cases l <;> first | rfl | exact absurd rfl h

theorem cwByte_cwWriteRun_miss (k : CwSel) (s : State) (n : Nat) (addr : Nat → Nat)
    (val : Nat → Byte) (b : Nat) (h : ∀ i < n, b ≠ addr i) :
    cwByte k (cwWriteRun k s n addr val) b = cwByte k s b := by
  cases k <;> simp [cwByte, cwWriteRun, withCw, cwCells, cellsGet_writeRun_miss _ _ _ _ _ _ h]

theorem cwByte_cwWriteRun_hit (k : CwSel) (s : State) (n : Nat) (addr : Nat → Nat)
    (val : Nat → Byte) (inj : ∀ i j, i < n → j < n → addr i = addr j → i = j) {i : Nat}
    (hi : i < n) : cwByte k (cwWriteRun k s n addr val) (addr i) = val i := by
  cases k <;> simp [cwByte, cwWriteRun, withCw, cwCells, cellsGet_writeRun_hit _ _ _ _ _ inj hi]

/-- What a run of writes to a codeword leaves of the state. -/
theorem cwWriteRun_frame (k : CwSel) (s : State) (n : Nat) (addr : Nat → Nat) (val : Nat → Byte) :
    ∃ m1 m2, cwWriteRun k s n addr val = s.withFec { s.fec with cw1 := m1, cw2 := m2 }
      ∧ (k = .cw2 → m1 = s.fec.cw1) ∧ (k = .cw1 → m2 = s.fec.cw2) := by
  cases k
  · exact ⟨_, s.fec.cw2, rfl, nofun, fun _ => rfl⟩
  · exact ⟨s.fec.cw1, _, rfl, fun _ => rfl, nofun⟩

/-! ## Refusal and acceptance -/

/-- What refusing a command can do: it sets one sticky flag. -/
theorem refuse_eq (f : StickyFlag) (s : State) :
    refuse f s = s.withStatus { s.status with
      cmderr := s.status.cmderr || decide (f = .cmderr)
      cfgerr := s.status.cfgerr || decide (f = .cfgerr) } := by
  cases f <;> simp [refuse]

/-- When the common guard of the input commands refuses. -/
theorem inputGuardRefuses_iff (mode : InMode) (s : State) :
    inputGuardRefuses mode s = true ↔ s.status.eos = true ∨ s.status.cfgerr = true
      ∨ (s.status.inmode ≠ .none ∧ s.status.inmode ≠ mode) := by
  simp [inputGuardRefuses, or_assoc]

/-- When it lets the command through. -/
theorem inputGuardRefuses_false (mode : InMode) (s : State) :
    inputGuardRefuses mode s = false ↔ s.status.eos = false ∧ s.status.cfgerr = false
      ∧ (s.status.inmode = .none ∨ s.status.inmode = mode) := by
  rw [Bool.eq_false_iff, ne_eq, inputGuardRefuses_iff]
  cases s.status.eos <;> cases s.status.cfgerr <;> simp
  tauto

end Sys2Proof.Machine
end

