-- ==== Sys2Proof/Laws/Crc.lean ====
section
/-! SUPPORT. What the CRC unit's shared operations can do, said once. -/

namespace Sys2Proof.Machine

/-- CRC.CALC changes CRC_REG and nothing else. -/
theorem crcRun_eq (start n : Nat) (s : State) :
    crcRun start n s = s.withCrc { s.crc with reg := crc16 (rfBytes s start n) } := rfl

/-- What CRC.CHECK can do to the state: at most CRC_REG changes. -/
theorem crcCheck_frame (pos : Nat) (hi : Byte) (s : State) :
    ∃ r, (crcCheck pos hi s).st = s.withCrc { s.crc with reg := r } := by
  unfold crcCheck
  dsimp only
  split_ifs <;> first | exact ⟨s.crc.reg, rfl⟩ | exact ⟨_, rfl⟩

/-- When CRC.CHECK answers OK: exactly for a valid sub-block. -/
theorem crcCheck_ok (pos : Nat) (hi : Byte) (s : State) :
    (crcCheck pos hi s).res = .ok ↔ BlockOk s pos hi := by
  unfold crcCheck BlockOk
  by_cases h1 : Config.frameLen ≤ pos
  · have : ¬pos + (rfByte s (pos + 1)).toNat + 4 ≤ 518 := by simp at h1; omega
    simp only [h1, if_true, this, false_and, and_false, reduceCtorEq]
  by_cases h2 : rfByte s pos = hi
  · by_cases h3 : Config.frameLen < pos + 4
    · have : ¬pos + (rfByte s (pos + 1)).toNat + 4 ≤ 518 := by simp at h3; omega
      simp only [h1, h2, h3, ne_eq, not_true, if_false, if_true, this, false_and, and_false,
        reduceCtorEq]
    by_cases h4 : Config.frameLen < pos + declaredLen s pos + 4
    · have : ¬pos + (rfByte s (pos + 1)).toNat + 4 ≤ 518 := by
        simp only [declaredLen] at h4; simp at h4; omega
      simp only [h1, h2, h3, h4, ne_eq, not_true, if_false, if_true, this, false_and, and_false,
        reduceCtorEq]
    · have : pos + (rfByte s (pos + 1)).toNat + 4 ≤ 518 := by
        simp only [declaredLen] at h4; simp at h4; omega
      simp only [h1, h2, h3, h4, ne_eq, not_true, if_false, this, true_and]
      split <;> simp_all [crcRun, declaredLen]
  · simp only [h1, h2, if_false, if_true, ne_eq, not_false_eq_true, false_and, reduceCtorEq]

/-- One mask bit after setting another, or the same. -/
theorem setMaskBit_getLsbD (mask : BitVec 7) (bit k : Nat) (hb : bit < 7) (hk : k < 7) :
    (setMaskBit mask bit).getLsbD k = (mask.getLsbD k || decide (k = bit)) := by
  have h : ∀ b < 7, ∀ j < 7, (BitVec.ofNat 7 (2 ^ b)).getLsbD j = decide (j = b) := by decide
  rw [setMaskBit, BitVec.getLsbD_or, h bit hb k hk]

/-- What one line of CRC.SCAN can do: CRC_REG may run, and the line's mask bit is set iff the block is not valid. -/
theorem checkBlock_spec (bit pos : Nat) (hi : Byte) (s : State) :
    ∃ r m, (checkBlock bit pos hi s).st = s.withCrc { s.crc with reg := r, mask := m }
      ∧ (BlockOk s pos hi → m = s.crc.mask)
      ∧ (¬BlockOk s pos hi → m = setMaskBit s.crc.mask bit) := by
  obtain ⟨r, hr⟩ := crcCheck_frame pos hi s
  unfold checkBlock
  by_cases h : (crcCheck pos hi s).res = .ok
  · have hb := (crcCheck_ok pos hi s).mp h
    exact ⟨r, s.crc.mask, by simp [h, hr], fun _ => rfl, fun n => absurd hb n⟩
  · have hb : ¬BlockOk s pos hi := fun b => h ((crcCheck_ok pos hi s).mpr b)
    refine ⟨r, setMaskBit s.crc.mask bit, ?_, fun n => absurd n hb, fun _ => rfl⟩
    simp only [h, if_false, maskFail, hr]
    rfl

/-- The check's answer is that of CRC.CHECK. -/
theorem checkBlock_res (bit pos : Nat) (hi : Byte) (s : State) :
    (checkBlock bit pos hi s).res = (crcCheck pos hi s).res := by
  unfold checkBlock; dsimp only; split_ifs <;> rfl

/-- A valid sub-block depends on RF and the parameters only. -/
theorem BlockOk_congr (s t : State) (hp : t.par = s.par) (hr : t.rf = s.rf) (pos : Nat)
    (hi : Byte) : BlockOk t pos hi ↔ BlockOk s pos hi := by
  simp [BlockOk, storedCrc, rfBytes, rfByte, hp, hr]

theorem AuxChain_congr (s t : State) (hp : t.par = s.par) (hr : t.rf = s.rf) (pos n last : Nat)
    (f : Bool) (h : AuxChain s pos n last f) : AuxChain t pos n last f := by
  have hb : ∀ a, rfByte t a = rfByte s a := rfByte_congr s t hp hr
  induction h with
  | ends pos h => exact .ends pos (by rwa [hb, hp])
  | fails pos h tag bad =>
    exact .fails pos h (by rwa [hb, hp]) (by rwa [hp, BlockOk_congr s t hp hr])
  | good pos n last f ok rest ih =>
    exact .good pos n last f (by rwa [hp, BlockOk_congr s t hp hr]) (by rwa [hb])

/-- What one good or bad block does (44_crc.md R235). -/
theorem auxBlock_spec (pos : Nat) (s : State) :
    ∃ r m n, (auxBlock pos s).st = s.withCrc { reg := r, mask := m, auxCount := n }
      ∧ ((auxBlock pos s).res = .ok ↔ BlockOk s pos s.par.val.tagAuxHi)
      ∧ (BlockOk s pos s.par.val.tagAuxHi → m = s.crc.mask ∧ n = s.crc.auxCount + 1)
      ∧ (¬BlockOk s pos s.par.val.tagAuxHi →
          m = setMaskBit s.crc.mask 5 ∧ n = s.crc.auxCount) := by
  obtain ⟨r, hr⟩ := crcCheck_frame pos s.par.val.tagAuxHi s
  unfold auxBlock
  by_cases h : (crcCheck pos s.par.val.tagAuxHi s).res = .ok
  · have hb := (crcCheck_ok _ _ _).mp h
    refine ⟨r, s.crc.mask, s.crc.auxCount + 1, ?_, ?_, fun _ => ⟨rfl, rfl⟩, fun n => absurd hb n⟩
    · simp only [h, if_true, hr]; rfl
    · simp [h, hb]
  · have hb : ¬BlockOk s pos s.par.val.tagAuxHi := fun b => h ((crcCheck_ok _ _ _).mpr b)
    refine ⟨r, setMaskBit s.crc.mask 5, s.crc.auxCount, ?_, ?_, fun n => absurd n hb,
      fun _ => ⟨rfl, rfl⟩⟩
    · simp only [h, if_false, maskFail, hr]; rfl
    · simp [h, hb]

/-- What the loop of CRC.AUXWALK can do, given passes enough for the bytes left: it walks the chain, counts its blocks
and sets bit 5 iff it ends in a failed block. -/
theorem auxChain_spec (fuel : Nat) : ∀ (pos : Nat) (s : State), 518 < 4 * fuel + pos →
    ∃ r m n last, auxChain fuel pos s
        = ⟨s.withCrc { reg := r, mask := m, auxCount := s.crc.auxCount + n }, last,
            (auxChain fuel pos s).failed⟩
      ∧ AuxChain s pos n last (auxChain fuel pos s).failed ∧ pos + 4 * n ≤ max pos 518
      ∧ m = if (auxChain fuel pos s).failed then setMaskBit s.crc.mask 5 else s.crc.mask := by
  induction fuel with
  | zero =>
    intro pos s h
    exact ⟨s.crc.reg, s.crc.mask, 0, pos, rfl, .ends pos (by omega), by omega, rfl⟩
  | succ fuel ih =>
    intro pos s h
    by_cases hc : auxContinues pos s = true
    · have hpos : pos < 518 ∧ rfByte s pos = s.par.val.tagAuxHi := by
        simpa [auxContinues] using hc
      obtain ⟨r, m, n, hst, hok, hgood, hbad⟩ := auxBlock_spec pos s
      by_cases hb : BlockOk s pos s.par.val.tagAuxHi
      · have hres := hok.mpr hb
        obtain ⟨rfl, rfl⟩ := hgood hb
        have e : auxChain (fuel + 1) pos s
            = auxChain fuel (pos + declaredLen s pos + 4) (auxBlock pos s).st := by
          simp [auxChain, hc, hres]
        obtain ⟨r', m', n', last, h1, h2, h3, h4⟩ :=
          ih (pos + declaredLen s pos + 4) (auxBlock pos s).st (by omega)
        have hlen : pos + declaredLen s pos + 4 ≤ 518 := hb.2.1
        rw [e]
        refine ⟨r', m', n' + 1, last, ?_, ?_, by omega, ?_⟩
        · rw [h1, hst]
          simp only [State.withCrc_crc]
          rw [show s.crc.auxCount + 1 + n' = s.crc.auxCount + (n' + 1) by omega]
          rfl
        · exact .good pos n' last _ hb
            (AuxChain_congr (auxBlock pos s).st s (by rw [hst]; rfl) (by rw [hst]; rfl) _ _ _ _ h2)
        · rw [h4, hst]; rfl
      · have hres : (auxBlock pos s).res ≠ .ok := fun a => hb (hok.mp a)
        obtain ⟨rfl, rfl⟩ := hbad hb
        have e : auxChain (fuel + 1) pos s = ⟨(auxBlock pos s).st, pos, true⟩ := by
          simp [auxChain, hc, hres]
        rw [e]
        exact ⟨r, setMaskBit s.crc.mask 5, 0, pos, by rw [hst]; rfl,
          .fails pos hpos.1 hpos.2 hb, by omega, rfl⟩
    · have e : auxChain (fuel + 1) pos s = ⟨s, pos, false⟩ := by simp [auxChain, hc]
      rw [e]
      refine ⟨s.crc.reg, s.crc.mask, 0, pos, rfl, .ends pos ?_, by omega, rfl⟩
      intro hp
      exact hc (by simpa [auxContinues] using hp)

/-- What CRC.AUXWALK can do (44_crc.md R235, R236): the chain is counted, bit 5 is set iff it ends in a failed block,
bit 6 iff it does or the block where it ends is not a valid zero-padding block. -/
theorem crcAuxwalk_spec (s : State) :
    ∃ r m n last failed, crcAuxwalk s
        = s.withCrc { reg := r, mask := m, auxCount := s.crc.auxCount + n }
      ∧ AuxChain s s.par.val.posAux n last failed ∧ n ≤ 129
      ∧ ∀ k, k < 7 → (m.getLsbD k = true ↔ s.crc.mask.getLsbD k = true ∨ (k = 5 ∧ failed = true)
          ∨ (k = 6 ∧ (failed = true ∨ ¬BlockOk s last s.par.val.tagZeroHi))) := by
  obtain ⟨r, m, n, last, h1, h2, h3, h4⟩ :=
    auxChain_spec auxFuel s.par.val.posAux s (by simp [auxFuel]; omega)
  cases hf : (auxChain auxFuel s.par.val.posAux s).failed with
  | true =>
    rw [hf] at h1 h2 h4
    refine ⟨r, setMaskBit m 6, n, last, true, ?_, h2, by omega, ?_⟩
    · simp only [crcAuxwalk, h1, if_true, maskFail]; rfl
    · intro k hk
      rw [setMaskBit_getLsbD _ _ _ (by omega) hk, h4, if_pos rfl,
        setMaskBit_getLsbD _ _ _ (by omega) hk]
      simp [or_assoc]
  | false =>
    rw [hf] at h1 h2 h4
    simp only [Bool.false_eq_true, if_false] at h4
    subst h4
    obtain ⟨r', m', hst, hg, hb⟩ := checkBlock_spec 6 last s.par.val.tagZeroHi
      (s.withCrc { reg := r, mask := s.crc.mask, auxCount := s.crc.auxCount + n })
    rw [BlockOk_congr s (s.withCrc { reg := r, mask := s.crc.mask, auxCount := s.crc.auxCount + n })
      rfl rfl] at hg hb
    refine ⟨r', m', n, last, false, ?_, h2, by omega, ?_⟩
    · simp only [crcAuxwalk, h1, Bool.false_eq_true, if_false, hst]; rfl
    · intro k hk
      by_cases hz : BlockOk s last s.par.val.tagZeroHi
      · rw [hg hz]; simp [hz]
      · rw [hb hz, setMaskBit_getLsbD _ _ _ (by omega) hk]; simp [hz]

/-- A chain is what it is: its blocks, its end and its failure follow from the state and the start. -/
theorem AuxChain_unique {s : State} {pos n last : Nat} {f : Bool} (h : AuxChain s pos n last f) :
    ∀ {n' last' : Nat} {f' : Bool}, AuxChain s pos n' last' f' → n = n' ∧ last = last' ∧ f = f' := by
  induction h with
  | ends pos hh =>
    intro _ _ _ h'
    cases h' with
    | ends => exact ⟨rfl, rfl, rfl⟩
    | fails _ a b => exact absurd ⟨a, b⟩ hh
    | good _ _ _ _ ok => exact absurd ⟨by have := ok.2.1; omega, ok.1⟩ hh
  | fails pos a b bad =>
    intro _ _ _ h'
    cases h' with
    | ends _ hh => exact absurd ⟨a, b⟩ hh
    | fails => exact ⟨rfl, rfl, rfl⟩
    | good _ _ _ _ ok => exact absurd ok bad
  | good pos n last f ok rest ih =>
    intro _ _ _ h'
    cases h' with
    | ends _ hh => exact absurd ⟨by have := ok.2.1; omega, ok.1⟩ hh
    | fails _ _ _ bad => exact absurd ok bad
    | good _ _ _ _ _ rest' =>
      obtain ⟨a, b, e⟩ := ih rest'
      exact ⟨by omega, b, e⟩

/-- What a list of checks can do: CRC_REG may run, and a line's bit is set iff its block is not valid. -/
theorem checkBlocks_spec (l : List (Nat × Nat × Byte)) : ∀ s : State, (∀ e ∈ l, e.1 < 7) →
    ∃ r m, l.foldl (fun t b => (checkBlock b.1 b.2.1 b.2.2 t).st) s
        = s.withCrc { s.crc with reg := r, mask := m }
      ∧ ∀ k < 7, (m.getLsbD k = true ↔ s.crc.mask.getLsbD k = true
          ∨ ∃ e ∈ l, e.1 = k ∧ ¬BlockOk s e.2.1 e.2.2) := by
  induction l with
  | nil => intro s _; exact ⟨s.crc.reg, s.crc.mask, rfl, by simp⟩
  | cons e l ih =>
    intro s h
    obtain ⟨r, m, h1, h2, h3⟩ := checkBlock_spec e.1 e.2.1 e.2.2 s
    obtain ⟨r', m', h4, h5⟩ := ih (checkBlock e.1 e.2.1 e.2.2 s).st
      fun e he => h e (List.mem_cons_of_mem _ he)
    have hp : (checkBlock e.1 e.2.1 e.2.2 s).st.par = s.par := by rw [h1]; rfl
    have hr : (checkBlock e.1 e.2.1 e.2.2 s).st.rf = s.rf := by rw [h1]; rfl
    have hm : (checkBlock e.1 e.2.1 e.2.2 s).st.crc.mask = m := by rw [h1]; rfl
    refine ⟨r', m', by rw [List.foldl_cons, h4, h1]; rfl, fun k hk => ?_⟩
    have ht : (∃ e' ∈ l, e'.1 = k ∧ ¬BlockOk (checkBlock e.1 e.2.1 e.2.2 s).st e'.2.1 e'.2.2)
        ↔ ∃ e' ∈ l, e'.1 = k ∧ ¬BlockOk s e'.2.1 e'.2.2 :=
      exists_congr fun e' => by rw [BlockOk_congr s _ hp hr]
    rw [h5 k hk, hm, ht, List.exists_mem_cons_iff]
    by_cases hb : BlockOk s e.2.1 e.2.2
    · rw [h2 hb]; simp only [hb, not_true, and_false, false_or]
    · rw [h3 hb, setMaskBit_getLsbD _ _ _ (h e (by simp)) hk]
      simp only [Bool.or_eq_true, decide_eq_true_eq, hb, not_false_eq_true, and_true, or_assoc,
        @eq_comm Nat k]

/-- What CRC.SCAN changes: the CRC unit's registers alone. -/
theorem crcScan_frame (s : State) : ∃ c, crcScan s = s.withCrc c ∧ c.auxCount ≤ s.crc.auxCount + 129 := by
  obtain ⟨r, m, h1, _⟩ := checkBlocks_spec (fixedBlocks s.par.val) s (by simp [fixedBlocks]; omega)
  obtain ⟨r', m', n, _, _, h2, _, hn, _⟩ :=
    crcAuxwalk_spec (s.withCrc { s.crc with reg := r, mask := m })
  exact ⟨_, by rw [crcScan, h1, h2]; rfl, by simpa using hn⟩

end Sys2Proof.Machine
end

