-- ==== Sys2Proof/Laws/Fec.lean ====
section
/-! SUPPORT. What the FEC unit's shared operations can do, said once. -/

namespace Sys2Proof.Machine

/-! ## What well-formedness of `P` gives -/

/-- 00_scope.md R7 (c): the parity bytes end before the message bytes, the message bytes inside RF. -/
theorem codewordsOk_of_wf (P : Parameters) :
    P.val.parpos + 48 ≤ P.val.msgpos ∧ P.val.msgpos + 462 ≤ 518 := by
  have h := P.property
  simp only [Params.wf, Params.codewordsOk, Bool.and_eq_true, decide_eq_true_eq] at h
  obtain ⟨⟨⟨⟨⟨⟨⟨_, _⟩, _⟩, ha, hb⟩, _⟩, _⟩, _⟩, _⟩ := h
  exact ⟨ha, hb⟩

/-- R7 (g): the region the retry zeroes lies inside RF. -/
theorem zeroRegionOk_of_wf (P : Parameters) :
    P.val.retryZeroLo ≤ P.val.retryZeroHi ∧ P.val.retryZeroHi ≤ 518 := by
  have h := P.property
  simp only [Params.wf, Params.zeroRegionOk, Bool.and_eq_true, decide_eq_true_eq] at h
  exact h.2

/-- R7 (e) and the bound of log entry 27: the sentinels lie in -128..-1. -/
theorem sentinels_of_wf (P : Parameters) :
    (-128 ≤ P.val.sentCw1 ∧ P.val.sentCw1 < 0) ∧ (-128 ≤ P.val.sentCw2 ∧ P.val.sentCw2 < 0)
      ∧ -128 ≤ P.val.sentBoth ∧ P.val.sentBoth < 0 := by
  have h := P.property
  simp only [Params.wf, Params.sentinelsOk, Bool.and_eq_true, decide_eq_true_eq] at h
  obtain ⟨⟨⟨⟨⟨⟨⟨_, _⟩, _⟩, _⟩, _⟩, hs⟩, _⟩, _⟩ := h
  omega

/-- R7 (d): the five tags lie inside RF, the marker inside a standard frame. -/
theorem positions_of_wf (P : Parameters) :
    (P.val.posFrame + 2 ≤ 518 ∧ P.val.posPtu + 2 ≤ 518 ∧ P.val.posGps1 + 2 ≤ 518
      ∧ P.val.posGps2 + 2 ≤ 518 ∧ P.val.posGps3 + 2 ≤ 518 ∧ P.val.posAux + 2 ≤ 518)
      ∧ P.val.posFtype < 320 := by
  have h := P.property
  simp only [Params.wf, Params.positionsOk, Bool.and_eq_true, List.all_eq_true, decide_eq_true_eq]
    at h
  obtain ⟨⟨⟨⟨⟨⟨⟨_, _⟩, _⟩, _⟩, hp, hf⟩, _⟩, _⟩, _⟩ := h
  exact ⟨⟨hp _ (by simp), hp _ (by simp), hp _ (by simp), hp _ (by simp), hp _ (by simp),
    hp _ (by simp)⟩, hf⟩

/-- R6: assembly starts at byte 8 at the latest. -/
theorem framestart_of_wf (P : Parameters) : P.val.framestart ≤ 8 := by
  have h := P.property
  simp only [Params.wf, Params.typesOk, Bool.and_eq_true, decide_eq_true_eq] at h
  exact h.1.1.1.1.1.1.1.1.1.2

/-! ## Zeroing -/

/-- A run of zeros from `lo` on. -/
theorem rfByte_zeroRun (s : State) (lo n a : Nat) :
    rfByte (rfWriteRun s n (fun i => lo + i) fun _ => 0) a
      = if lo ≤ a ∧ a < lo + n then 0 else rfByte s a := by
  by_cases h : lo ≤ a ∧ a < lo + n
  · rw [if_pos h]
    have := rfByte_rfWriteRun_hit s n (fun i => lo + i) (fun _ => 0)
      (fun i j _ _ e => Nat.add_left_cancel e) (i := a - lo) (by omega)
    rwa [show lo + (a - lo) = a by omega] at this
  · rw [if_neg h]
    exact rfByte_rfWriteRun_miss _ _ _ _ _ fun i hi e => h ⟨by omega, by omega⟩

theorem fecPad_byte (len : Nat) (hl : len ≤ 518) (s : State) (a : Nat) :
    rfByte (fecPad len s) a = if len ≤ a ∧ a ≤ 517 then 0 else rfByte s a := by
  have h := rfByte_zeroRun s len (518 - len) a
  rw [show len + (518 - len) = 518 by omega] at h
  have e : (len ≤ a ∧ a ≤ 517) ↔ (len ≤ a ∧ a < 518) := by omega
  simp only [e]
  exact h

theorem fecZtrail_byte (s : State) (a : Nat) :
    rfByte (fecZtrail s) a
      = if s.par.val.retryZeroLo ≤ a ∧ a < s.par.val.retryZeroHi then 0 else rfByte s a := by
  obtain ⟨h1, _⟩ := zeroRegionOk_of_wf s.par
  have h := rfByte_zeroRun s s.par.val.retryZeroLo
    (s.par.val.retryZeroHi - s.par.val.retryZeroLo) a
  rwa [show s.par.val.retryZeroLo + (s.par.val.retryZeroHi - s.par.val.retryZeroLo)
    = s.par.val.retryZeroHi by omega] at h

/-! ## Gathering and scattering -/

/-- What gathering one codeword can do: its 255 bytes are the parity bytes and every second message byte. -/
theorem gatherOne_byte (k : CwSel) (par msg : Nat) (s : State) :
    (∀ i, i < 24 → cwByte k (gatherOne k par msg s) i = rfByte s (par + i))
    ∧ (∀ j, j < 231 → cwByte k (gatherOne k par msg s) (24 + j) = rfByte s (msg + 2 * j))
    ∧ ∀ l a, l ≠ k → cwByte l (gatherOne k par msg s) a = cwByte l s a := by
  refine ⟨fun i hi => ?_, fun j hj => ?_, fun l a hl => ?_⟩
  · have hm : ∀ j < Config.cwK, i ≠ Config.cwR + j := fun j _ => by simp; omega
    rw [gatherOne, cwByte_cwWriteRun_miss _ _ _ _ _ _ hm]
    exact cwByte_cwWriteRun_hit k s 24 (fun i => i) (fun i => rfByte s (par + i))
      (fun _ _ _ _ e => e) hi
  · exact cwByte_cwWriteRun_hit k _ 231 (fun j => 24 + j) (fun j => rfByte s (msg + 2 * j))
      (fun _ _ _ _ e => by simpa using e) hj
  · rw [gatherOne, cwByte_cwWriteRun_other hl, cwByte_cwWriteRun_other hl]

/-- Gathering writes the codeword's buffer and nothing else. -/
theorem gatherOne_frame (k : CwSel) (par msg : Nat) (s : State) :
    ∃ m1 m2, gatherOne k par msg s = s.withFec { s.fec with cw1 := m1, cw2 := m2 }
      ∧ (k = .cw2 → m1 = s.fec.cw1) ∧ (k = .cw1 → m2 = s.fec.cw2) := by
  cases k
  · exact ⟨_, s.fec.cw2, rfl, nofun, fun _ => rfl⟩
  · exact ⟨s.fec.cw1, _, rfl, fun _ => rfl, nofun⟩

theorem fecGather_frame (s : State) :
    ∃ m1 m2, fecGather s = s.withFec { s.fec with cw1 := m1, cw2 := m2 } := ⟨_, _, rfl⟩

theorem fecGather_byte (s : State) :
    (∀ i, i < 24 → cwByte .cw1 (fecGather s) i = rfByte s (s.par.val.parpos + i)
      ∧ cwByte .cw2 (fecGather s) i = rfByte s (s.par.val.parpos + 24 + i))
    ∧ ∀ j, j < 231 → cwByte .cw1 (fecGather s) (24 + j) = rfByte s (s.par.val.msgpos + 2 * j)
      ∧ cwByte .cw2 (fecGather s) (24 + j) = rfByte s (s.par.val.msgpos + 2 * j + 1) := by
  obtain ⟨a1, b1, _⟩ := gatherOne_byte .cw1 s.par.val.parpos s.par.val.msgpos s
  obtain ⟨a2, b2, o2⟩ := gatherOne_byte .cw2 (s.par.val.parpos + 24) (s.par.val.msgpos + 1)
    (gatherOne .cw1 s.par.val.parpos s.par.val.msgpos s)
  have hb : ∀ a, rfByte (gatherOne .cw1 s.par.val.parpos s.par.val.msgpos s) a = rfByte s a :=
    rfByte_congr _ _ rfl rfl
  refine ⟨fun i hi => ⟨?_, ?_⟩, fun j hj => ⟨?_, ?_⟩⟩
  · exact (o2 .cw1 i (by decide)).trans (a1 i hi)
  · exact (a2 i hi).trans (hb _)
  · exact (o2 .cw1 (24 + j) (by decide)).trans (b1 j hj)
  · refine (b2 j hj).trans ((hb _).trans ?_)
    rw [show s.par.val.msgpos + 1 + 2 * j = s.par.val.msgpos + 2 * j + 1 by omega]

/-- What scattering a codeword can do: its bytes go to their places, every other byte of RF reads as before. -/
theorem fecScatter_byte (k : CwSel) (s : State) :
    (∀ i, i < 24 → rfByte (fecScatter k s) (s.par.val.parpos + 24 * cwOffset k + i) = cwByte k s i)
    ∧ (∀ j, j < 231 → rfByte (fecScatter k s) (s.par.val.msgpos + 2 * j + cwOffset k)
        = cwByte k s (24 + j))
    ∧ ∀ a, (∀ i, i < 24 → a ≠ s.par.val.parpos + 24 * cwOffset k + i) →
        (∀ j, j < 231 → a ≠ s.par.val.msgpos + 2 * j + cwOffset k) →
        rfByte (fecScatter k s) a = rfByte s a := by
  obtain ⟨hw, _⟩ := codewordsOk_of_wf s.par
  have ho : cwOffset k ≤ 1 := by cases k <;> decide
  refine ⟨fun i hi => ?_, fun j hj => ?_, fun a h1 h2 => ?_⟩
  · rw [fecScatter, rfByte_rfWriteRun_miss _ _ _ _ _ (fun j _ => by omega)]
    exact rfByte_rfWriteRun_hit s 24 (fun i => s.par.val.parpos + 24 * cwOffset k + i)
      (fun i => cwByte k s i) (fun _ _ _ _ e => Nat.add_left_cancel e) hi
  · rw [fecScatter]
    exact rfByte_rfWriteRun_hit _ 231 (fun j => s.par.val.msgpos + 2 * j + cwOffset k)
      (fun j => cwByte k s (24 + j)) (fun i j _ _ e => by omega) hj
  · rw [fecScatter, rfByte_rfWriteRun_miss _ _ _ _ _ h2, rfByte_rfWriteRun_miss _ _ _ _ _ h1]

/-! ## What each changes: RF alone -/

theorem rfWriteRun_frame (s : State) (n : Nat) (addr : Nat → Nat) (val : Nat → Byte) :
    ∃ m, rfWriteRun s n addr val = s.withRf m := ⟨_, rfl⟩

theorem fecPad_frame (len : Nat) (s : State) : ∃ m, fecPad len s = s.withRf m := ⟨_, rfl⟩

theorem fecZtrail_frame (s : State) : ∃ m, fecZtrail s = s.withRf m := ⟨_, rfl⟩

theorem fecScatter_frame (k : CwSel) (s : State) : ∃ m, fecScatter k s = s.withRf m := by
  obtain ⟨m, h⟩ := rfWriteRun_frame s Config.cwR
    (fun i => s.par.val.parpos + Config.cwR * cwOffset k + i) fun i => cwByte k s i
  unfold fecScatter
  rw [h]
  exact rfWriteRun_frame _ _ _ _

/-- FEC.FORCE as its ten writes in order. -/
theorem fecForce_eq (s : State) : fecForce s = (fixedKinds s.par.val).toList.foldl
    (fun t e => rfSet (rfSet t e.1 (tagHi e.2)) (e.1 + 1) (tagLo e.2)) s := rfl

theorem fecForce_frame (s : State) : ∃ m, fecForce s = s.withRf m := by
  rw [fecForce_eq]
  generalize (fixedKinds s.par.val).toList = l
  induction l using List.reverseRecOn with
  | nil => exact ⟨s.rf, rfl⟩
  | append_singleton l e ih =>
    obtain ⟨m, h⟩ := ih
    rw [List.foldl_append, h]
    exact ⟨_, rfl⟩

/-! ## Decoding one codeword -/

/-- What FEC.DEC can do: on an answer the codeword becomes the answer's word, on failure nothing changes. -/
theorem fecDec_cases (ecc : Ecc) (k : CwSel) (s : State) :
    (∃ word e, ecc s.status.eccReady (cwWord k s) = .corrected word e
      ∧ (fecDec ecc k s).ok = true ∧ (fecDec ecc k s).err = (e.val : Int)
      ∧ (∀ i : Fin 255, cwByte k (fecDec ecc k s).st i.val = word[i])
      ∧ (∀ l a, l ≠ k → cwByte l (fecDec ecc k s).st a = cwByte l s a)
      ∧ ∃ m1 m2, (fecDec ecc k s).st = s.withFec { s.fec with cw1 := m1, cw2 := m2 }
        ∧ (k = .cw2 → m1 = s.fec.cw1) ∧ (k = .cw1 → m2 = s.fec.cw2))
    ∨ (ecc s.status.eccReady (cwWord k s) = .failure ∧ fecDec ecc k s = ⟨s, false, -1⟩) := by
  unfold fecDec
  cases h : ecc s.status.eccReady (cwWord k s) with
  | failure => exact .inr ⟨rfl, rfl⟩
  | corrected word e =>
    refine .inl ⟨word, e, rfl, rfl, rfl, fun i => ?_, fun l a hl => ?_, ?_⟩
    · have hh := cwByte_cwWriteRun_hit k s 255 (fun i => i) (fun i => word[i]?.getD 0)
        (fun _ _ _ _ e => e) i.isLt
      refine hh.trans ?_
      simp
    · exact cwByte_cwWriteRun_other hl _ _ _ _ _
    · exact cwWriteRun_frame k s _ _ _

/-- What FEC.DEC changes: the codeword buffers, and its count is -1 .. 12. -/
theorem fecDec_frame (ecc : Ecc) (k : CwSel) (s : State) :
    ∃ m1 m2, (fecDec ecc k s).st = s.withFec { s.fec with cw1 := m1, cw2 := m2 }
      ∧ -1 ≤ (fecDec ecc k s).err ∧ (fecDec ecc k s).err ≤ 12 := by
  rcases fecDec_cases ecc k s with ⟨w, e, _, _, herr, _, _, m1, m2, h, _⟩ | ⟨_, h⟩
  · have : e.val < 13 := e.isLt
    exact ⟨m1, m2, h, by omega, by omega⟩
  · rw [h]
    exact ⟨s.fec.cw1, s.fec.cw2, rfl, by simp, by simp⟩

/-! ## The byte buffers stay in canonical form -/

/-- RF, CW1 and CW2 are in canonical form. -/
def ByteBuffersWf (s : State) : Prop :=
  Memory.wf (rfReset s.par.val) 518 s.rf = true
    ∧ Memory.wf cwReset 255 s.fec.cw1 = true ∧ Memory.wf cwReset 255 s.fec.cw2 = true

theorem rfSet_wf (s : State) (a : Nat) (v : Byte) (ha : a < 518) (h : ByteBuffersWf s) :
    ByteBuffersWf (rfSet s a v) := ⟨cellsWf_set _ _ _ _ _ ha h.1, h.2⟩

theorem rfWriteRun_wf (s : State) (n : Nat) (addr : Nat → Nat) (val : Nat → Byte)
    (ha : ∀ i < n, addr i < 518) (h : ByteBuffersWf s) : ByteBuffersWf (rfWriteRun s n addr val) :=
  ⟨cellsWf_writeRun _ _ _ _ _ _ ha h.1, h.2⟩

theorem cwWriteRun_wf (k : CwSel) (s : State) (n : Nat) (addr : Nat → Nat) (val : Nat → Byte)
    (ha : ∀ i < n, addr i < 255) (h : ByteBuffersWf s) :
    ByteBuffersWf (cwWriteRun k s n addr val) := by
  cases k
  · exact ⟨h.1, cellsWf_writeRun _ _ _ _ _ _ ha h.2.1, h.2.2⟩
  · exact ⟨h.1, h.2.1, cellsWf_writeRun _ _ _ _ _ _ ha h.2.2⟩

/-! ## The whole correction -/

/-- `t` differs from `s` in RF and the FEC unit alone, its counts are in range, its byte buffers canonical if those of
`s` are. -/
structure FecStep (s t : State) : Prop where
  only : t = (s.withRf t.rf).withFec t.fec
  err1 : -1 ≤ s.fec.err1 ∧ s.fec.err1 ≤ 12 → -1 ≤ t.fec.err1 ∧ t.fec.err1 ≤ 12
  err2 : -1 ≤ s.fec.err2 ∧ s.fec.err2 ≤ 12 → -1 ≤ t.fec.err2 ∧ t.fec.err2 ≤ 12
  wf : ByteBuffersWf s → ByteBuffersWf t

theorem FecStep_refl (s : State) : FecStep s s := ⟨rfl, id, id, id⟩

theorem FecStep_trans {s t u : State} (h : FecStep s t) (g : FecStep t u) : FecStep s u :=
  ⟨by rw [g.only, h.only]; rfl, fun e => g.err1 (h.err1 e), fun e => g.err2 (h.err2 e),
    fun w => g.wf (h.wf w)⟩

theorem rfSet_step (s : State) (a : Nat) (v : Byte) (ha : a < 518) : FecStep s (rfSet s a v) :=
  ⟨rfl, id, id, rfSet_wf s a v ha⟩

theorem rfWriteRun_step (s : State) (n : Nat) (addr : Nat → Nat) (val : Nat → Byte)
    (ha : ∀ i < n, addr i < 518) : FecStep s (rfWriteRun s n addr val) :=
  ⟨rfl, id, id, rfWriteRun_wf s n addr val ha⟩

theorem cwWriteRun_step (k : CwSel) (s : State) (n : Nat) (addr : Nat → Nat) (val : Nat → Byte)
    (ha : ∀ i < n, addr i < 255) : FecStep s (cwWriteRun k s n addr val) := by
  have hw := cwWriteRun_wf k s n addr val ha
  cases k <;> exact ⟨rfl, id, id, hw⟩

theorem fecPad_step (len : Nat) (s : State) : FecStep s (fecPad len s) :=
  rfWriteRun_step _ _ _ _ fun i hi => by simp at hi; omega

theorem fecZtrail_step (s : State) : FecStep s (fecZtrail s) := by
  obtain ⟨_, hw⟩ := zeroRegionOk_of_wf s.par
  exact rfWriteRun_step _ _ _ _ fun i hi => by omega

theorem gatherOne_step (k : CwSel) (par msg : Nat) (s : State) :
    FecStep s (gatherOne k par msg s) :=
  FecStep_trans (cwWriteRun_step _ _ _ _ _ fun i hi => by simp at hi ⊢; omega)
    (cwWriteRun_step _ _ _ _ _ fun i hi => by simp at hi ⊢; omega)

theorem fecGather_step (s : State) : FecStep s (fecGather s) :=
  FecStep_trans (gatherOne_step _ _ _ _) (gatherOne_step _ _ _ _)

theorem fecScatter_step (k : CwSel) (s : State) : FecStep s (fecScatter k s) := by
  obtain ⟨hw1, hw2⟩ := codewordsOk_of_wf s.par
  have ho : cwOffset k ≤ 1 := by cases k <;> decide
  exact FecStep_trans (rfWriteRun_step _ _ _ _ fun i hi => by simp at hi ⊢; omega)
    (rfWriteRun_step _ _ _ _ fun j hj => by simp at hj ⊢; omega)

/-- FEC.FORCE writes RF alone, inside its range. -/
theorem fecForce_step (s : State) : FecStep s (fecForce s) := by
  obtain ⟨⟨h1, h2, h3, h4, h5, _⟩, _⟩ := positions_of_wf s.par
  simp only [fecForce, fixedKinds, Vector.toList_mk, List.foldl_cons, List.foldl_nil]
  refine FecStep_trans (FecStep_trans ?_ (rfSet_step _ _ _ (by omega))) (rfSet_step _ _ _ (by omega))
  refine FecStep_trans (FecStep_trans ?_ (rfSet_step _ _ _ (by omega))) (rfSet_step _ _ _ (by omega))
  refine FecStep_trans (FecStep_trans ?_ (rfSet_step _ _ _ (by omega))) (rfSet_step _ _ _ (by omega))
  refine FecStep_trans (FecStep_trans ?_ (rfSet_step _ _ _ (by omega))) (rfSet_step _ _ _ (by omega))
  exact FecStep_trans (rfSet_step _ _ _ (by omega)) (rfSet_step _ _ _ (by omega))

theorem fecDec_step (ecc : Ecc) (k : CwSel) (s : State) : FecStep s (fecDec ecc k s).st := by
  unfold fecDec
  cases ecc s.status.eccReady (cwWord k s) with
  | failure => exact FecStep_refl s
  | corrected w e => exact cwWriteRun_step _ _ _ _ _ fun i hi => by simpa using hi

/-- The counts after a pass are in range, whatever they were. -/
theorem fecPass_step (ecc : Ecc) (s : State) : FecStep s (fecPass ecc s).st
    ∧ (-1 ≤ (fecPass ecc s).st.fec.err1 ∧ (fecPass ecc s).st.fec.err1 ≤ 12)
    ∧ (-1 ≤ (fecPass ecc s).st.fec.err2 ∧ (fecPass ecc s).st.fec.err2 ≤ 12) := by
  have g1 := FecStep_trans (fecGather_step s) (fecDec_step ecc .cw1 (fecGather s))
  obtain ⟨_, _, _, e1⟩ := fecDec_frame ecc .cw1 (fecGather s)
  unfold fecPass
  dsimp only
  generalize fecDec ecc .cw1 (fecGather s) = r1 at g1 e1 ⊢
  have g2 := fecDec_step ecc .cw2 (r1.st.withFec { r1.st.fec with err1 := r1.err })
  obtain ⟨m1, m2, hm, e2⟩ := fecDec_frame ecc .cw2 (r1.st.withFec { r1.st.fec with err1 := r1.err })
  generalize fecDec ecc .cw2 (r1.st.withFec { r1.st.fec with err1 := r1.err }) = r2 at g2 e2 hm ⊢
  have k1 : FecStep r1.st (r1.st.withFec { r1.st.fec with err1 := r1.err }) :=
    ⟨rfl, fun _ => e1, id, id⟩
  have k2 : FecStep r2.st (r2.st.withFec { r2.st.fec with err2 := r2.err }) :=
    ⟨rfl, id, fun _ => e2, id⟩
  refine ⟨FecStep_trans g1 (FecStep_trans k1 (FecStep_trans g2 k2)), ?_, e2⟩
  rw [hm]
  exact e1

theorem fecStat_step (ok1 ok2 : Bool) (s : State) : FecStep s (fecStat ok1 ok2 s) :=
  ⟨rfl, id, id, id⟩

theorem fecFinish_step (p : FecPass) : FecStep p.st (fecFinish p) := by
  unfold fecFinish
  cases p.ok1 <;> cases p.ok2
  · exact fecStat_step _ _ _
  · exact FecStep_trans (fecScatter_step .cw2 _) (fecStat_step _ _ _)
  · exact FecStep_trans (fecScatter_step .cw1 _) (fecStat_step _ _ _)
  · exact FecStep_trans (FecStep_trans (fecScatter_step .cw1 _) (fecScatter_step .cw2 _))
      (fecStat_step _ _ _)

theorem fecRetry_step (ecc : Ecc) (s : State) : FecStep s (fecRetry ecc s).st := by
  have h0 : FecStep s (s.withFec { s.fec with retried := true }) := ⟨rfl, id, id, id⟩
  have h1 := FecStep_trans h0 (fecForce_step _)
  unfold fecRetry
  dsimp only
  split
  · exact FecStep_trans (FecStep_trans h1 (fecZtrail_step _)) (fecPass_step _ _).1
  · exact FecStep_trans h1 (fecPass_step _ _).1

/-- What FEC.CORRECT changes. -/
theorem fecCorrect_step (ecc : Ecc) (len : Nat) (s : State) : FecStep s (fecCorrect ecc len s) := by
  have h0 := fecPad_step (min len Config.frameLen) s
  have h1 := FecStep_trans h0 (fecPass_step ecc _).1
  have h2 : ∀ t : State, FecStep t (t.withFec { t.fec with retried := false }) :=
    fun _ => ⟨rfl, id, id, id⟩
  have h3 := FecStep_trans h1 (h2 _)
  unfold fecCorrect
  dsimp only
  split
  · exact FecStep_trans h3 (FecStep_trans (fecRetry_step ecc _) (fecFinish_step _))
  · exact FecStep_trans h3 (fecFinish_step ⟨_, _, _⟩)

/-- The status a correction leaves lies in -128..24 (30_encoding.md R105, 10_state.md R36). -/
theorem fecFinish_status (p : FecPass) (h1 : -1 ≤ p.st.fec.err1 ∧ p.st.fec.err1 ≤ 12)
    (h2 : -1 ≤ p.st.fec.err2 ∧ p.st.fec.err2 ≤ 12) :
    -128 ≤ (fecFinish p).fec.status ∧ (fecFinish p).fec.status ≤ 24 := by
  obtain ⟨n1, n2, n3⟩ := sentinels_of_wf p.st.par
  have key : ∀ (a b : Bool) (t : State), t.par = p.st.par → t.fec.err1 = p.st.fec.err1 →
      t.fec.err2 = p.st.fec.err2 →
      -128 ≤ (fecStat a b t).fec.status ∧ (fecStat a b t).fec.status ≤ 24 := by
    intro a b t hp ha hb
    simp only [fecStat, State.withFec_fec, correctionStatus, hp, ha, hb]
    split_ifs <;> omega
  have hs : ∀ (k : CwSel) (t : State), (fecScatter k t).par = t.par ∧ (fecScatter k t).fec = t.fec :=
    fun k t => ⟨rfl, rfl⟩
  obtain ⟨s, ok1, ok2⟩ := p
  unfold fecFinish
  cases ok1 <;> cases ok2
  · exact key _ _ _ rfl rfl rfl
  · exact key _ _ _ (hs _ _).1 (by simp [hs]) (by simp [hs])
  · exact key _ _ _ (hs _ _).1 (by simp [hs]) (by simp [hs])
  · exact key _ _ _ ((hs _ _).1.trans (hs _ _).1) (by simp [hs]) (by simp [hs])

theorem fecCorrect_status (ecc : Ecc) (len : Nat) (s : State) :
    -128 ≤ (fecCorrect ecc len s).fec.status ∧ (fecCorrect ecc len s).fec.status ≤ 24 := by
  have hp := fun t => (fecPass_step ecc t).2
  unfold fecCorrect
  dsimp only
  split
  · exact fecFinish_status _ (hp _).1 (hp _).2
  · exact fecFinish_status ⟨_, _, _⟩ (hp _).1 (hp _).2

end Sys2Proof.Machine
end

