-- ==== Sys2Proof/Laws/Synchronizer.lean ====
section
/-! SUPPORT. What the synchroniser's shared operations can do, said once: what a bit leaves unchanged, what it appends to
the output, and that it keeps the sequencing state. -/

namespace Sys2Proof.Machine

/-! ## What delivering bits leaves unchanged -/

/-- `new` is a run of complete records numbered from `seq` on, each with a status that fits its header field. -/
def RecordsFrom (seq : Nat) (new : List FrameOut) : Prop :=
  new.map FrameOut.seq = (List.range new.length).map (fun k => seq + k)
    ∧ ∀ r ∈ new, (r.frame.length = 518 ∧ r.len ≤ 518) ∧ -128 ≤ r.fecStatus ∧ r.fecStatus ≤ 24

/-- What `t` keeps of `s` when bits have been delivered: the parameters, the configuration, the flags, the demodulator
and the port; records are only appended; every buffer stays in canonical form and every result in its range. -/
structure StreamStep (s t : State) : Prop where
  par : t.par = s.par
  cfg : t.cfg = s.cfg
  rate : t.rate = s.rate
  status : t.status = s.status
  dem : t.dem = s.dem
  port : t.port = s.port
  appends : ∃ new, t.out = { records := s.out.records ++ new, rdPtr := s.out.rdPtr,
                             frameSeq := s.out.frameSeq + new.length }
    ∧ RecordsFrom s.out.frameSeq new
  buffers : BuffersWf s → BuffersWf t
  results : ResultsOk s → ResultsOk t

theorem RecordsFrom_nil (n : Nat) : RecordsFrom n [] := ⟨rfl, nofun⟩

theorem RecordsFrom_append {n : Nat} {a b : List FrameOut} (ha : RecordsFrom n a)
    (hb : RecordsFrom (n + a.length) b) : RecordsFrom n (a ++ b) := by
  refine ⟨?_, fun r hr => (List.mem_append.mp hr).elim (ha.2 r) (hb.2 r)⟩
  rw [List.map_append, ha.1, hb.1, List.length_append, List.range_add, List.map_append,
    List.map_map]
  congr 1
  exact List.map_congr_left fun k _ => by simp; omega

theorem StreamStep_refl (s : State) : StreamStep s s :=
  ⟨rfl, rfl, rfl, rfl, rfl, rfl, ⟨[], by simp, RecordsFrom_nil _⟩, id, id⟩

theorem StreamStep_trans {s t u : State} (h : StreamStep s t) (g : StreamStep t u) :
    StreamStep s u := by
  obtain ⟨a, ha, ra⟩ := h.appends
  obtain ⟨b, hb, rb⟩ := g.appends
  refine ⟨g.par.trans h.par, g.cfg.trans h.cfg, g.rate.trans h.rate, g.status.trans h.status,
    g.dem.trans h.dem, g.port.trans h.port, ⟨a ++ b, ?_, ?_⟩, fun w => g.buffers (h.buffers w),
    fun w => g.results (h.results w)⟩
  · rw [hb, ha]
    simp [Nat.add_assoc]
  · rw [ha] at rb
    exact RecordsFrom_append ra rb

/-- An update of the synchroniser that leaves VAR_HIST alone. -/
theorem withSyn_step (s : State) (y : Syn) (h : y.varHist = s.syn.varHist) :
    StreamStep s (s.withSyn y) :=
  ⟨rfl, rfl, rfl, rfl, rfl, rfl, ⟨[], by simp, RecordsFrom_nil _⟩,
    fun w => ⟨w.rf, w.cw1, w.cw2, w.vring, by rw [State.withSyn_syn, h]; exact w.varHist⟩,
    fun w => ⟨w.err1, w.err2, w.status, w.aux⟩⟩

/-! ## One operation at a time -/

/-- What SYN.CMP answers: whether all 32 symbols are those of the reference window. -/
theorem synCmp_iff (s : State) : synCmp s = true
    ↔ ∀ i : Fin 32, s.syn.corr[i] = refSymbol s.par.val (s.par.val.headofs + 31 - i.val) := by
  unfold synCmp
  simp only [List.all_eq_true, List.mem_finRange, true_implies, decide_eq_true_eq]
  exact Iff.rfl

theorem synFtm_step (s : State) : StreamStep s (synFtm s) := by
  unfold synFtm
  split_ifs
  all_goals exact withSyn_step s _ rfl

theorem recordVariance_step (p : Nat) (hp : p < 518) (s : State) :
    StreamStep s (recordVariance p s) :=
  ⟨rfl, rfl, rfl, rfl, rfl, rfl, ⟨[], by simp [recordVariance], RecordsFrom_nil _⟩,
    fun w => ⟨w.rf, w.cw1, w.cw2, w.vring, cellsWf_set _ _ _ _ _ hp w.varHist⟩,
    fun w => ⟨w.err1, w.err2, w.status, w.aux⟩⟩

/-- What judging a byte writes: the run, and the target length when the run is full (42_synchronizer.md R182). -/
theorem judgeSuspect_eq (p : Nat) (s : State) (run : Nat)
    (h : run = if isSuspect p s then min Config.suspectMax (s.syn.suspectRun + 1) else 0) :
    judgeSuspect p s = s.withSyn { s.syn with
      suspectRun := run
      targetLen := if Config.suspectMax ≤ run ∧ cfgLenMode s.cfg = .auto ∧ scoreOpen s = true
        then max Config.ndataLen (p + 1 - Config.suspectMax) else s.syn.targetLen } := by
  unfold judgeSuspect
  rw [← h]
  dsimp only
  split <;> rfl

theorem judgeSuspect_step (p : Nat) (s : State) : StreamStep s (judgeSuspect p s) := by
  unfold judgeSuspect
  dsimp only
  generalize (if isSuspect p s = true then min Config.suspectMax (s.syn.suspectRun + 1) else 0) = r
  have h1 : StreamStep s (s.withSyn { s.syn with suspectRun := r }) := withSyn_step s _ rfl
  split
  · exact StreamStep_trans h1 (withSyn_step (s.withSyn { s.syn with suspectRun := r }) _ rfl)
  · exact h1

/-- What SYN.SUSP can do where it does not stop. -/
theorem synSusp_step (p : Nat) (s t : State) (h : synSusp p s = .ok t) : StreamStep s t := by
  unfold synSusp at h
  split_ifs at h with h1 h2
  · injection h with h
    subst h
    exact StreamStep_trans (recordVariance_step p h2 s) (judgeSuspect_step p _)
  · injection h with h
    subst h
    exact StreamStep_refl s

/-- What correcting a frame keeps beside RF and the FEC results. -/
theorem FecStep_keeps {s t : State} (h : FecStep s t) :
    t.par = s.par ∧ t.cfg = s.cfg ∧ t.rate = s.rate ∧ t.status = s.status ∧ t.dem = s.dem
      ∧ t.port = s.port ∧ t.out = s.out ∧ t.syn = s.syn ∧ t.crc = s.crc := by
  obtain ⟨only, _, _, _⟩ := h
  generalize t.rf = r at only
  generalize t.fec = g at only
  subst only
  exact ⟨rfl, rfl, rfl, rfl, rfl, rfl, rfl, rfl, rfl⟩

/-- Emitting a record and going back to the search. -/
theorem emitDone_step (n : Nat) (hn : n ≤ 518) (f : State)
    (hs : -128 ≤ f.fec.status ∧ f.fec.status ≤ 24) :
    StreamStep f (backToSearch (emitRecord n f)) :=
  ⟨rfl, rfl, rfl, rfl, rfl, rfl,
    ⟨[frameRecord n f], rfl, by simp [frameRecord],
      fun r hr => by rw [List.mem_singleton] at hr; subst hr; exact ⟨by simp [frameRecord, rfBytes, hn], hs⟩⟩,
    fun w => ⟨w.rf, w.cw1, w.cw2, w.vring, w.varHist⟩,
    fun w => ⟨w.err1, w.err2, w.status, w.aux⟩⟩

/-- What SYN.DONE corrects and scans before it emits. -/
theorem synDone_eq (ecc : Ecc) (len : Nat) (s : State) :
    ∃ f, synDone ecc len s = backToSearch (emitRecord (min len Config.frameLen) f)
      ∧ StreamStep s f ∧ f.syn = s.syn ∧ -128 ≤ f.fec.status ∧ f.fec.status ≤ 24 := by
  have fec := fecCorrect_step ecc (min len Config.frameLen)
    (s.withCrc { s.crc with mask := 0, auxCount := 0 })
  have st := fecCorrect_status ecc (min len Config.frameLen)
    (s.withCrc { s.crc with mask := 0, auxCount := 0 })
  unfold synDone
  dsimp only
  generalize fecCorrect ecc (min len Config.frameLen)
    (s.withCrc { s.crc with mask := 0, auxCount := 0 }) = f at fec st ⊢
  obtain ⟨z, hz, hn⟩ := crcScan_frame f
  obtain ⟨k1, k2, k3, k4, k5, k6, k7, k8, k9⟩ := FecStep_keeps fec
  refine ⟨_, rfl, ?_, by rw [hz]; exact k8, by rw [hz]; exact st⟩
  rw [hz]
  refine ⟨k1, k2, k3, k4, k5, k6, ⟨[], ?_, RecordsFrom_nil _⟩, fun w => ?_, fun w => ?_⟩
  · rw [State.withCrc_out, k7]
    simp
  · obtain ⟨w1, w2, w3⟩ := fec.wf ⟨w.rf, w.cw1, w.cw2⟩
    refine ⟨w1, w2, w3, ?_, ?_⟩
    · rw [State.withCrc_dem, k5]
      exact w.vring
    · rw [State.withCrc_syn, k8]
      exact w.varHist
  · refine ⟨fec.err1 w.err1, fec.err2 w.err2, st, ?_⟩
    rw [k9] at hn
    exact hn

/-- SYN.DONE appends one record, whatever FEC and CRC found. -/
theorem synDone_step (ecc : Ecc) (len : Nat) (s : State) : StreamStep s (synDone ecc len s) := by
  obtain ⟨f, e, h, _, hs⟩ := synDone_eq ecc len s
  rw [e]
  exact StreamStep_trans h (emitDone_step _ (Nat.min_le_right _ _) f hs)

theorem synDone_syn (ecc : Ecc) (len : Nat) (s : State) :
    (synDone ecc len s).syn = { s.syn with
      syncState := .search, byteIndex := s.par.val.framestart, bitCount := 0 } := by
  obtain ⟨f, e, h, hs, _⟩ := synDone_eq ecc len s
  rw [e, ← h.par, ← hs]
  rfl

theorem rfSet_stream (s : State) (a : Nat) (v : Byte) (ha : a < 518) :
    StreamStep s (rfSet s a v) :=
  ⟨rfl, rfl, rfl, rfl, rfl, rfl, ⟨[], by simp [rfSet], RecordsFrom_nil _⟩,
    fun w => ⟨(rfSet_wf s a v ha ⟨w.rf, w.cw1, w.cw2⟩).1, w.cw1, w.cw2, w.vring, w.varHist⟩,
    fun w => ⟨w.err1, w.err2, w.status, w.aux⟩⟩

theorem markerDecision_step (p : Nat) (s : State) : StreamStep s (markerDecision p s) := by
  unfold markerDecision
  split
  · exact synFtm_step s
  · exact StreamStep_refl s

theorem completeIfFull_step (ecc : Ecc) (s : State) : StreamStep s (completeIfFull ecc s) := by
  unfold completeIfFull
  split
  · exact synDone_step ecc _ s
  · exact StreamStep_refl s

/-- What SYN.BYTE can do where it does not stop. -/
theorem synByte_step (ecc : Ecc) (s t : State) (h : synByte ecc s = .ok t) : StreamStep s t := by
  unfold synByte at h
  dsimp only at h
  obtain ⟨a, ha, h⟩ := (andThen_eq_ok _ _ _).mp h
  obtain ⟨b, hb, h⟩ := (andThen_eq_ok _ _ _).mp h
  injection h with h
  subst h
  unfold rfSetChecked at ha
  split_ifs at ha with hi
  injection ha with ha
  have h1 : StreamStep s a := by rw [← ha]; exact rfSet_stream s _ _ hi
  have h2 := StreamStep_trans h1 (withSyn_step a { a.syn with byteIndex := s.syn.byteIndex + 1 } rfl)
  have h3 := StreamStep_trans h2 (synSusp_step _ _ _ hb)
  exact StreamStep_trans (StreamStep_trans h3 (markerDecision_step _ b)) (completeIfFull_step ecc _)

theorem synShift_step (b : Bit3) (s : State) : StreamStep s (synShift b s) :=
  withSyn_step s _ rfl

theorem synAcq_step (s : State) : StreamStep s (synAcq s) := withSyn_step s _ rfl

theorem collectBit_step (ecc : Ecc) (b : Bit3) (s t : State) (h : collectBit ecc b s = .ok t) :
    StreamStep s t := by
  unfold collectBit at h
  dsimp only at h
  generalize s.syn.bitbuf.set s.syn.bitCount.val b _ = w at h
  split_ifs at h
  · exact StreamStep_trans
      (withSyn_step s { s.syn with bitbuf := w, bitCount := 0 } rfl) (synByte_step ecc _ t h)
  · injection h with h
    rw [← h]
    exact withSyn_step s { s.syn with bitbuf := w, bitCount := s.syn.bitCount + 1 } rfl

/-- SYN.BIT as its two branches, over the state after the correlator has shifted. -/
theorem synBit_eq (ecc : Ecc) (b : Bit3) (s : State) :
    ∃ y, y.varHist = s.syn.varHist
      ∧ y = { s.syn with bitCounter := y.bitCounter, corr := y.corr }
      ∧ synBit ecc b s = match s.syn.syncState with
        | .search => .ok (if synCmp (s.withSyn y) then synAcq (s.withSyn y) else s.withSyn y)
        | .assemble => collectBit ecc b (s.withSyn y) := by
  refine ⟨(synShift b (s.withSyn { s.syn with bitCounter := s.syn.bitCounter + 1 })).syn,
    rfl, rfl, ?_⟩
  unfold synBit
  rfl

/-- What SYN.BIT can do where it does not stop. -/
theorem synBit_step (ecc : Ecc) (b : Bit3) (s t : State) (h : synBit ecc b s = .ok t) :
    StreamStep s t := by
  obtain ⟨y, hv, _, e⟩ := synBit_eq ecc b s
  have h0 := withSyn_step s y hv
  rw [e] at h
  split at h
  · injection h with h
    rw [← h]
    split
    · exact StreamStep_trans h0 (synAcq_step _)
    · exact h0
  · exact StreamStep_trans h0 (collectBit_step ecc b _ _ h)

theorem synBits_step (ecc : Ecc) (b : Bit3) (n : Nat) :
    ∀ s t : State, synBits ecc b n s = .ok t → StreamStep s t := by
  induction n with
  | zero =>
    intro s t h
    injection h with h
    subst h
    exact StreamStep_refl s
  | succ n ih =>
    intro s t h
    obtain ⟨a, ha, h⟩ := (andThen_eq_ok _ _ _).mp h
    exact StreamStep_trans (synBit_step ecc b s a ha) (ih a t h)

/-! ## The sequencing state (46_arithmetic_and_sequencing.md R283, 42_synchronizer.md R183) -/

/-- The part of the sequencing invariant that bits alone keep. -/
structure SeqOk (s : State) : Prop where
  search : s.syn.syncState = .search →
    s.syn.byteIndex = s.par.val.framestart ∧ s.syn.bitCount = 0
  index : s.par.val.framestart ≤ s.syn.byteIndex ∧ s.syn.byteIndex ≤ 517
  below : s.syn.syncState = .assemble → s.syn.byteIndex < s.syn.targetLen
  target : 320 ≤ s.syn.targetLen ∧ s.syn.targetLen ≤ 518
  suspect : s.syn.suspectRun ≤ 4

theorem synDone_seq (ecc : Ecc) (len : Nat) (s : State)
    (ht : 320 ≤ s.syn.targetLen ∧ s.syn.targetLen ≤ 518) (hr : s.syn.suspectRun ≤ 4) :
    SeqOk (synDone ecc len s) := by
  have hp := (synDone_step ecc len s).par
  have hs := synDone_syn ecc len s
  have hf := framestart_of_wf s.par
  refine ⟨fun _ => ?_, ?_, fun e => ?_, ?_, ?_⟩
  · rw [hs, hp]
    exact ⟨rfl, rfl⟩
  · rw [hs, hp]
    exact ⟨Nat.le_refl _, by show s.par.val.framestart ≤ 517; omega⟩
  · rw [hs] at e
    cases e
  · rw [hs]
    exact ht
  · rw [hs]
    exact hr

/-- What SYN.SUSP does to the sequencing state. -/
theorem synSusp_seq (p : Nat) (hp : p < 518) (s : State) :
    ∃ t, synSusp p s = .ok t
      ∧ (∃ r l v, t.syn = { s.syn with suspectRun := r, targetLen := l, varHist := v }
        ∧ (s.syn.suspectRun ≤ 4 → r ≤ 4)
        ∧ (320 ≤ s.syn.targetLen ∧ s.syn.targetLen ≤ 518 → 320 ≤ l ∧ l ≤ 518)) := by
  unfold synSusp
  by_cases h1 : cfgAlt s.cfg = true
  · simp only [h1, if_true, show p < Config.frameLen from hp]
    refine ⟨_, rfl, ?_⟩
    unfold judgeSuspect
    dsimp only
    have hr : (if isSuspect p (recordVariance p s) = true then
        min Config.suspectMax ((recordVariance p s).syn.suspectRun + 1) else 0) ≤ 4 := by
      split
      · exact Nat.min_le_left _ _
      · exact Nat.zero_le _
    generalize (if isSuspect p (recordVariance p s) = true then
        min Config.suspectMax ((recordVariance p s).syn.suspectRun + 1) else 0) = r at hr
    have hl : 320 ≤ max Config.ndataLen (p + 1 - Config.suspectMax)
        ∧ max Config.ndataLen (p + 1 - Config.suspectMax) ≤ 518 :=
      ⟨Nat.le_max_left _ _, Nat.max_le.mpr ⟨by decide, by omega⟩⟩
    generalize max Config.ndataLen (p + 1 - Config.suspectMax) = l at hl
    split
    · exact ⟨r, l, _, rfl, fun _ => hr, fun _ => hl⟩
    · exact ⟨r, _, _, rfl, fun _ => hr, id⟩
  · simp only [h1, if_false, Bool.false_eq_true]
    exact ⟨s, rfl, _, _, _, rfl, id, id⟩

theorem markerDecision_seq (p : Nat) (s : State) :
    ∃ l, (markerDecision p s).syn = { s.syn with targetLen := l }
      ∧ (320 ≤ s.syn.targetLen ∧ s.syn.targetLen ≤ 518 → 320 ≤ l ∧ l ≤ 518) := by
  unfold markerDecision synFtm
  split_ifs
  · exact ⟨320, rfl, fun _ => by decide⟩
  · exact ⟨518, rfl, fun _ => by decide⟩
  all_goals exact ⟨s.syn.targetLen, rfl, id⟩

/-- SYN.BYTE completes from every index inside RF. -/
theorem synByte_completes (ecc : Ecc) (s : State) (hi : s.syn.byteIndex ≤ 517) :
    ∃ t, synByte ecc s = .ok t := by
  unfold synByte
  dsimp only
  unfold rfSetChecked
  rw [if_pos (show s.syn.byteIndex < Config.frameLen by simp; omega), andThen_ok]
  obtain ⟨b, hb, _⟩ := synSusp_seq s.syn.byteIndex (by omega)
    ((rfSet s s.syn.byteIndex (dscXor s.par.val (rawByte (synPack s)) s.syn.byteIndex)).withSyn
      { (rfSet s s.syn.byteIndex (dscXor s.par.val (rawByte (synPack s)) s.syn.byteIndex)).syn with
        byteIndex := s.syn.byteIndex + 1 })
  rw [hb, andThen_ok]
  exact ⟨_, rfl⟩

/-- SYN.BYTE keeps the sequencing state, once the bit count is back at 0. -/
theorem synByte_seq (ecc : Ecc) (s t : State) (h : SeqOk s) (hb : s.syn.syncState = .assemble)
    (ht : synByte ecc s = .ok t) : SeqOk t := by
  have hidx := h.index
  unfold synByte at ht
  dsimp only at ht
  unfold rfSetChecked at ht
  rw [if_pos (show s.syn.byteIndex < Config.frameLen by simp; omega), andThen_ok] at ht
  obtain ⟨b, h1, r, l, v, h2, h3, h4⟩ := synSusp_seq s.syn.byteIndex (by omega)
    ((rfSet s s.syn.byteIndex (dscXor s.par.val (rawByte (synPack s)) s.syn.byteIndex)).withSyn
      { (rfSet s s.syn.byteIndex (dscXor s.par.val (rawByte (synPack s)) s.syn.byteIndex)).syn with
        byteIndex := s.syn.byteIndex + 1 })
  have hbp := (synSusp_step _ _ _ h1).par
  rw [h1, andThen_ok] at ht
  injection ht with ht
  obtain ⟨l', g1, g2⟩ := markerDecision_seq s.syn.byteIndex b
  have hmp := (markerDecision_step s.syn.byteIndex b).par
  generalize markerDecision s.syn.byteIndex b = d at g1 hmp ht
  have e1 : d.par = s.par := hmp.trans hbp
  have e2 : d.syn.byteIndex = s.syn.byteIndex + 1 := by rw [g1, h2]; rfl
  have e3 : d.syn.syncState = .assemble := by rw [g1, h2]; exact hb
  have e4 : d.syn.suspectRun ≤ 4 := by rw [g1, h2]; exact h3 h.suspect
  have e5 : 320 ≤ d.syn.targetLen ∧ d.syn.targetLen ≤ 518 := by
    rw [g1]
    refine g2 ?_
    rw [h2]
    exact h4 h.target
  subst ht
  unfold completeIfFull
  split
  · exact synDone_seq ecc _ d e5 e4
  · rename_i hlt
    exact ⟨fun e => (by rw [e3] at e; cases e), by rw [e1, e2]; omega, fun _ => by omega, e5, e4⟩

/-- SYN.BIT completes from every state whose byte index lies inside RF. -/
theorem synBit_completes (ecc : Ecc) (b : Bit3) (s : State) (hi : s.syn.byteIndex ≤ 517) :
    ∃ t, synBit ecc b s = .ok t := by
  obtain ⟨y, _, hy, e⟩ := synBit_eq ecc b s
  rw [e]
  split
  · exact ⟨_, rfl⟩
  · have hb : y.byteIndex ≤ 517 := by rw [hy]; exact hi
    unfold collectBit
    dsimp only
    split
    · exact synByte_completes ecc _ hb
    · exact ⟨_, rfl⟩

/-- SYN.BIT keeps the sequencing state. -/
theorem synBit_seq (ecc : Ecc) (b : Bit3) (s t : State) (h : SeqOk s)
    (ht : synBit ecc b s = .ok t) : SeqOk t := by
  have hf := framestart_of_wf s.par
  obtain ⟨y, _, hy, e⟩ := synBit_eq ecc b s
  rw [e] at ht
  have k : SeqOk (s.withSyn y) := by
    refine ⟨fun g => ?_, ?_, fun g => ?_, ?_, ?_⟩
    all_goals rw [State.withSyn_syn] at *
    all_goals rw [hy] at *
    · exact h.search g
    · exact h.index
    · exact h.below g
    · exact h.target
    · exact h.suspect
  have kp : (s.withSyn y).par = s.par := rfl
  have ks : (s.withSyn y).syn.syncState = s.syn.syncState := by rw [State.withSyn_syn, hy]
  generalize s.withSyn y = u at k ht kp ks
  split at ht
  · injection ht with ht
    subst ht
    split
    · have hi : 320 ≤ initialTarget u.cfg ∧ initialTarget u.cfg ≤ 518 := by
        unfold initialTarget; split <;> simp
      rw [← kp] at hf
      exact ⟨nofun, ⟨Nat.le_refl _, by show u.par.val.framestart ≤ 517; omega⟩,
        fun _ => by show u.par.val.framestart < initialTarget u.cfg; omega, hi, Nat.zero_le _⟩
    · exact k
  · rename_i hs
    rw [hs] at ks
    unfold collectBit at ht
    dsimp only at ht
    generalize u.syn.bitbuf.set u.syn.bitCount.val b _ = w at ht
    split_ifs at ht
    · refine synByte_seq ecc (u.withSyn { u.syn with bitbuf := w, bitCount := 0 }) t
        ⟨fun g => ?_, k.index, k.below, k.target, k.suspect⟩ ks ht
      have : u.syn.syncState = .search := g
      rw [ks] at this; cases this
    · injection ht with ht
      subst ht
      refine ⟨fun g => ?_, k.index, k.below, k.target, k.suspect⟩
      have : u.syn.syncState = .search := g
      rw [ks] at this; cases this

/-- Any number of bits completes and keeps the sequencing state. -/
theorem synBits_completes (ecc : Ecc) (b : Bit3) (n : Nat) :
    ∀ s : State, SeqOk s → ∃ t, synBits ecc b n s = .ok t ∧ SeqOk t := by
  induction n with
  | zero => intro s h; exact ⟨s, rfl, h⟩
  | succ n ih =>
    intro s h
    obtain ⟨a, ha⟩ := synBit_completes ecc b s h.index.2
    obtain ⟨t, ht, hk⟩ := ih a (synBit_seq ecc b s a h ha)
    exact ⟨t, by rw [synBits, ha, andThen_ok, ht], hk⟩

end Sys2Proof.Machine
end

