-- ==== Sys2Proof/Laws/Demodulator.lean ====
section
/-! SUPPORT. What the demodulator's shared operations can do, said once: what a sample leaves unchanged, that it
completes from a state that keeps the invariants, and that it keeps them. -/

namespace Sys2Proof.Machine

/-! ## What a sample leaves unchanged -/

/-- What `t` keeps of `s` when a sample has been processed: all that `StreamStep` says but the demodulator. -/
structure SampleStep (s t : State) : Prop where
  par : t.par = s.par
  cfg : t.cfg = s.cfg
  rate : t.rate = s.rate
  status : t.status = s.status
  port : t.port = s.port
  appends : ∃ new, t.out = { records := s.out.records ++ new, rdPtr := s.out.rdPtr,
                             frameSeq := s.out.frameSeq + new.length }
    ∧ RecordsFrom s.out.frameSeq new
  buffers : BuffersWf s → BuffersWf t
  results : ResultsOk s → ResultsOk t

theorem SampleStep_of_stream {s t : State} (h : StreamStep s t) : SampleStep s t :=
  ⟨h.par, h.cfg, h.rate, h.status, h.port, h.appends, h.buffers, h.results⟩

theorem SampleStep_refl (s : State) : SampleStep s s := SampleStep_of_stream (StreamStep_refl s)

theorem SampleStep_trans {s t u : State} (h : SampleStep s t) (g : SampleStep t u) :
    SampleStep s u := by
  obtain ⟨a, ha, ra⟩ := h.appends
  obtain ⟨b, hb, rb⟩ := g.appends
  refine ⟨g.par.trans h.par, g.cfg.trans h.cfg, g.rate.trans h.rate, g.status.trans h.status,
    g.port.trans h.port, ⟨a ++ b, ?_, ?_⟩, fun w => g.buffers (h.buffers w),
    fun w => g.results (h.results w)⟩
  · rw [hb, ha]
    simp [Nat.add_assoc]
  · rw [ha] at rb
    exact RecordsFrom_append ra rb

/-- An update of the demodulator that leaves VRING alone. -/
theorem withDem_step (s : State) (d : Dem) (h : d.vring = s.dem.vring) :
    SampleStep s (s.withDem d) :=
  ⟨rfl, rfl, rfl, rfl, rfl, ⟨[], by simp, RecordsFrom_nil _⟩,
    fun w => ⟨w.rf, w.cw1, w.cw2, by rw [State.withDem_dem, h]; exact w.vring, w.varHist⟩,
    fun w => ⟨w.err1, w.err2, w.status, w.aux⟩⟩

/-! ## What a sample keeps -/

/-- What processing samples needs and keeps: the ratio is set, the window position lies in the window, the sequencing
and the zero-crossing tracker are in order. -/
structure SampleOk (s : State) : Prop where
  spbn : s.rate.spbn ≠ 0
  spbd : s.rate.spbd ≠ 0
  vwin : s.rate.vwin ≤ 8192
  vpos : s.dem.vpos < s.rate.vwin
  seq : SeqOk s
  integrate : s.dem.mode = .int → s.syn.syncState = .assemble ∧ cfgAlt s.cfg = true
  tracker : TrackerOk s

theorem sgn_pos {y : Rat} (h : 0 ≤ y) : sgn y = .pos := if_pos h

theorem sgn_neg {y : Rat} (h : y < 0) : sgn y = .neg := if_neg (not_le.mpr h)

/-- The offset of a zero crossing lies in [0, 1] (41_demodulator.md R144). -/
theorem crossing_bounds (y p : Rat) (h : sgn y ≠ sgn p) :
    y - p ≠ 0 ∧ 0 ≤ y / (y - p) ∧ y / (y - p) ≤ 1 := by
  rcases le_or_gt 0 y with hy | hy <;> rcases le_or_gt 0 p with hp | hp
  · exact absurd ((sgn_pos hy).trans (sgn_pos hp).symm) h
  · have d : 0 < y - p := by linarith
    exact ⟨ne_of_gt d, div_nonneg hy d.le, (div_le_one d).mpr (by linarith)⟩
  · have d : y - p < 0 := by linarith
    exact ⟨ne_of_lt d, div_nonneg_of_nonpos hy.le d.le, (div_le_one_of_neg d).mpr (by linarith)⟩
  · exact absurd ((sgn_neg hy).trans (sgn_neg hp).symm) h

/-- What DEM.LEN does besides measuring: at most X0 moves, and it stays in [0, 1]. -/
theorem demLen_spec (y : Rat) (s : State) (hr : s.dem.runN ≠ 0) (hf : sgn y ≠ s.dem.runSign)
    (ht : TrackerOk s) :
    ∃ x, (demLen y s).st = s.withDem { s.dem with x0 := x } ∧ 0 ≤ x ∧ x ≤ 1 := by
  unfold demLen
  split
  · rw [← ht.sign hr] at hf
    obtain ⟨h0, h1, h2⟩ := crossing_bounds y s.dem.yPrev hf
    exact ⟨_, rfl, by rw [quotient, if_neg h0]; exact h1, by rw [quotient, if_neg h0]; exact h2⟩
  · exact ⟨s.dem.x0, rfl, ht.x0⟩

theorem demLeaveint_step (y : Rat) (s : State) : SampleStep s (demLeaveint y s) :=
  withDem_step s _ rfl

/-- DEM.INTCHK completes while a frame is being assembled, and leaves integrate mode with it. -/
theorem demIntchk_spec (ecc : Ecc) (y : Rat) (s : State) (h : SampleOk s)
    (hc : cfgAlt s.cfg = true) :
    ∃ t, demIntchk ecc y s = .ok t ∧ SampleStep s t ∧ SampleOk t := by
  unfold demIntchk
  split
  · dsimp only
    generalize bit3OfBool (integratedEvent s).symbol = b
    have g1 : SampleStep s (s.withDem { s.dem with intSum := 0, intK := s.dem.intK + 1 }) :=
      withDem_step s _ rfl
    have k1 : SampleOk (s.withDem { s.dem with intSum := 0, intK := s.dem.intK + 1 }) :=
      ⟨h.spbn, h.spbd, h.vwin, h.vpos, ⟨h.seq.search, h.seq.index, h.seq.below, h.seq.target,
        h.seq.suspect⟩, h.integrate, ⟨h.tracker.sign, h.tracker.x0⟩⟩
    have c1 : cfgAlt (s.withDem { s.dem with intSum := 0, intK := s.dem.intK + 1 }).cfg = true := hc
    generalize s.withDem { s.dem with intSum := 0, intK := s.dem.intK + 1 } = u at g1 k1 c1
    obtain ⟨v, hv⟩ := synBit_completes ecc b u k1.seq.index.2
    have gv := synBit_step ecc b u v hv
    have kv := synBit_seq ecc b u v k1.seq hv
    rw [hv, andThen_ok]
    refine ⟨_, rfl, ?_, ?_⟩
    · refine SampleStep_trans g1 (SampleStep_trans (SampleStep_of_stream gv) ?_)
      split
      · exact demLeaveint_step y v
      · exact SampleStep_refl v
    · have e1 : v.rate.spbn ≠ 0 := by rw [gv.rate]; exact k1.spbn
      have e2 : v.rate.spbd ≠ 0 := by rw [gv.rate]; exact k1.spbd
      have e3 : v.rate.vwin ≤ 8192 := by rw [gv.rate]; exact k1.vwin
      have e4 : v.dem.vpos < v.rate.vwin := by rw [gv.rate, gv.dem]; exact k1.vpos
      split
      · exact ⟨e1, e2, e3, e4, ⟨kv.search, kv.index, kv.below, kv.target, kv.suspect⟩, nofun,
          ⟨fun _ => rfl, le_refl (0 : Rat), zero_le_one⟩⟩
      · rename_i hs
        refine ⟨e1, e2, e3, e4, kv, fun _ => ⟨?_, by rw [gv.cfg]; exact c1⟩, ?_⟩
        · cases hq : v.syn.syncState with
          | search => exact absurd hq hs
          | assemble => rfl
        · exact ⟨by rw [gv.dem]; exact k1.tracker.sign, by rw [gv.dem]; exact k1.tracker.x0⟩
  · exact ⟨s, rfl, SampleStep_refl s, h⟩

theorem demEnterint_spec (ecc : Ecc) (y : Rat) (s : State) (h : SampleOk s)
    (ha : s.syn.syncState = .assemble) (hc : cfgAlt s.cfg = true) :
    ∃ t, demEnterint ecc y s = .ok t ∧ SampleStep s t ∧ SampleOk t := by
  obtain ⟨t, e, g, k⟩ := demIntchk_spec ecc y
    (s.withDem { s.dem with mode := .int, intSum := y, intN := 1, intK := 1 })
    ⟨h.spbn, h.spbd, h.vwin, h.vpos, ⟨h.seq.search, h.seq.index, h.seq.below, h.seq.target,
      h.seq.suspect⟩, fun _ => ⟨ha, hc⟩, ⟨h.tracker.sign, h.tracker.x0⟩⟩ hc
  exact ⟨t, e, SampleStep_trans (withDem_step s
    { s.dem with mode := .int, intSum := y, intN := 1, intK := 1 } rfl) g, k⟩

theorem demInt_spec (ecc : Ecc) (y : Rat) (s : State) (h : SampleOk s)
    (hc : cfgAlt s.cfg = true) :
    ∃ t, demInt ecc y s = .ok t ∧ SampleStep s t ∧ SampleOk t := by
  obtain ⟨t, e, g, k⟩ := demIntchk_spec ecc y
    (s.withDem { s.dem with intSum := s.dem.intSum + y, intN := s.dem.intN + 1 })
    ⟨h.spbn, h.spbd, h.vwin, h.vpos, ⟨h.seq.search, h.seq.index, h.seq.below, h.seq.target,
      h.seq.suspect⟩, h.integrate, ⟨h.tracker.sign, h.tracker.x0⟩⟩ hc
  exact ⟨t, e, SampleStep_trans (withDem_step s
    { s.dem with intSum := s.dem.intSum + y, intN := s.dem.intN + 1 } rfl) g, k⟩

/-- The flip branch of DEM.ZC. -/
theorem endRun_spec (ecc : Ecc) (y : Rat) (s : State) (h : SampleOk s) (hm : s.dem.mode = .zc)
    (hr : s.dem.runN ≠ 0) (hf : sgn y ≠ s.dem.runSign) :
    ∃ t, endRun ecc y s = .ok t ∧ SampleStep s t ∧ SampleOk t := by
  obtain ⟨x, hx, x1, x2⟩ := demLen_spec y s hr hf h.tracker
  unfold endRun
  dsimp only
  generalize bit3OfBool (demEmit (demLen y s).len (demLen y s).st).symbol = b
  generalize (demEmit (demLen y s).len (demLen y s).st).count.toNat = n
  rw [hx]
  have g0 : SampleStep s (startRun y (s.withDem { s.dem with x0 := x })) :=
    withDem_step s { s.dem with x0 := x, runSign := sgn y, runN := 1, yPrev := y } rfl
  have k0 : SampleOk (startRun y (s.withDem { s.dem with x0 := x })) :=
    ⟨h.spbn, h.spbd, h.vwin, h.vpos, ⟨h.seq.search, h.seq.index, h.seq.below, h.seq.target,
      h.seq.suspect⟩, h.integrate, ⟨fun _ => rfl, x1, x2⟩⟩
  have m0 : (startRun y (s.withDem { s.dem with x0 := x })).dem.mode = .zc := hm
  generalize startRun y (s.withDem { s.dem with x0 := x }) = u at g0 k0 m0
  obtain ⟨v, hv, kv⟩ := synBits_completes ecc b n u k0.seq
  have gv := synBits_step ecc b n u v hv
  have e : SampleOk v := by
    refine ⟨by rw [gv.rate]; exact k0.spbn, by rw [gv.rate]; exact k0.spbd,
      by rw [gv.rate]; exact k0.vwin, by rw [gv.rate, gv.dem]; exact k0.vpos, kv, fun q => ?_,
      ⟨by rw [gv.dem]; exact k0.tracker.sign, by rw [gv.dem]; exact k0.tracker.x0⟩⟩
    rw [gv.dem, m0] at q
    cases q
  have g := SampleStep_trans g0 (SampleStep_of_stream gv)
  rw [hv, andThen_ok]
  split
  · rename_i hc
    obtain ⟨t, et, gt, kt⟩ := demEnterint_spec ecc y v e hc.2 hc.1
    exact ⟨t, et, SampleStep_trans g gt, kt⟩
  · exact ⟨v, rfl, g, e⟩

theorem demZc_spec (ecc : Ecc) (y : Rat) (s : State) (h : SampleOk s) (hm : s.dem.mode = .zc) :
    ∃ t, demZc ecc y s = .ok t ∧ SampleStep s t ∧ SampleOk t := by
  have seq : ∀ d : Dem, SeqOk (s.withDem d) := fun d =>
    ⟨h.seq.search, h.seq.index, h.seq.below, h.seq.target, h.seq.suspect⟩
  unfold demZc
  split_ifs with h0 h1
  · exact ⟨_, rfl, withDem_step s _ rfl,
      ⟨h.spbn, h.spbd, h.vwin, h.vpos, seq _, h.integrate, ⟨fun _ => rfl, h.tracker.x0⟩⟩⟩
  · exact ⟨_, rfl, withDem_step s _ rfl,
      ⟨h.spbn, h.spbd, h.vwin, h.vpos, seq _, h.integrate, ⟨fun _ => h1, h.tracker.x0⟩⟩⟩
  · exact endRun_spec ecc y s h hm h0 h1

/-- The variance tracker's part of a sample. -/
theorem trackVariance_spec (y : Rat) (s : State) (h : SampleOk s) :
    ∃ t, trackVariance y s = .ok t ∧ SampleStep s t ∧ SampleOk t ∧ t.dem.mode = s.dem.mode
      ∧ t.syn = s.syn ∧ t.dem.sampleCount = s.dem.sampleCount := by
  have hw := h.vwin
  have hp := h.vpos
  unfold trackVariance
  split
  · have hv : s.dem.vpos < Config.vringCap := lt_of_lt_of_le hp hw
    have hn : nextVpos s.rate.vwin s.dem.vpos < s.rate.vwin := by
      rw [nextVpos, if_neg (by omega)]
      exact Nat.mod_lt _ (by omega)
    unfold demVar
    rw [if_pos hv]
    refine ⟨_, rfl, ⟨rfl, rfl, rfl, rfl, rfl, ⟨[], by simp, RecordsFrom_nil _⟩,
      fun w => ⟨w.rf, w.cw1, w.cw2, cellsWf_set _ _ _ _ _ hv w.vring, w.varHist⟩,
      fun w => ⟨w.err1, w.err2, w.status, w.aux⟩⟩, ?_, rfl, rfl, rfl⟩
    exact ⟨h.spbn, h.spbd, h.vwin, hn, ⟨h.seq.search, h.seq.index, h.seq.below, h.seq.target,
      h.seq.suspect⟩, h.integrate, ⟨h.tracker.sign, h.tracker.x0⟩⟩
  · exact ⟨s, rfl, SampleStep_refl s, h, rfl, rfl, rfl⟩

/-- DEM.SAMPLE completes and keeps what samples need. -/
theorem demSample_spec (ecc : Ecc) (raw : BitVec 16) (s : State) (h : SampleOk s) :
    ∃ t, demSample ecc raw s = .ok t ∧ SampleStep s t ∧ SampleOk t := by
  have seq : ∀ d : Dem, SeqOk (s.withDem d) := fun d =>
    ⟨h.seq.search, h.seq.index, h.seq.below, h.seq.target, h.seq.suspect⟩
  unfold demSample
  dsimp only
  obtain ⟨d, y, e, k1, k2, k3, k4⟩ : ∃ d y, (filterSample raw s).st.withDem
      { (filterSample raw s).st.dem with
        sampleCount := (filterSample raw s).st.dem.sampleCount + 1 } = s.withDem d
      ∧ (filterSample raw s).y = y ∧ d.vring = s.dem.vring ∧ d.vpos = s.dem.vpos
      ∧ d.mode = s.dem.mode ∧ TrackerOk (s.withDem d) := by
    unfold filterSample
    split
    · exact ⟨_, _, rfl, rfl, rfl, rfl, rfl, h.tracker.sign, h.tracker.x0⟩
    · exact ⟨_, _, rfl, rfl, rfl, rfl, rfl, h.tracker.sign, h.tracker.x0⟩
  rw [e, k1]
  have k : SampleOk (s.withDem d) :=
    ⟨h.spbn, h.spbd, h.vwin, by rw [State.withDem_dem, k3]; exact h.vpos, seq d,
      by rw [State.withDem_dem, k4.1]; exact h.integrate, k4.2⟩
  obtain ⟨u, hu, gu, ku, mu, su, _⟩ := trackVariance_spec y (s.withDem d) k
  have g := SampleStep_trans (withDem_step s d k2) gu
  rw [hu, andThen_ok]
  cases hm : u.dem.mode with
  | zc =>
    obtain ⟨t, et, gt, kt⟩ := demZc_spec ecc y u ku hm
    exact ⟨t, et, SampleStep_trans g gt, kt⟩
  | int =>
    obtain ⟨t, et, gt, kt⟩ := demInt_spec ecc y u ku (ku.integrate hm).2
    exact ⟨t, et, SampleStep_trans g gt, kt⟩

end Sys2Proof.Machine
end

