-- ==== Sys2Proof/Laws/PerInstr.lean ====
section
/-! SUPPORT. One statement for each instruction: its words have the format and the fixed bits of its row of
spec/opcode_table.json. -/

namespace Sys2Proof

/-- The four formats of spec/opcode_table.json. -/
inductive Format where
  | cmd32
  | tag16
  | ftm8
  | uop8
  deriving DecidableEq, Repr

/-- The format of words. -/
def Words.format : Words → Format
  | .cmd32 _ => .cmd32
  | .tag16 _ _ => .tag16
  | .ftm8 _ => .ftm8
  | .uop8 _ _ _ => .uop8

/-- The bits of words that a row fixes: OP, the high tag byte, the marker, the label. -/
def Words.key : Words → BitVec 8
  | .cmd32 w => w.extractLsb' 24 8
  | .tag16 _ w => tagHi w
  | .ftm8 m => m
  | .uop8 label _ _ => label

/-- The rows of spec/opcode_table.json: the format, and the fixed bits where the row has any. -/
def Instr.row : Instr → Format × Option (BitVec 8)
  | .nop => (.cmd32, some 0x00#8)
  | .reset => (.cmd32, some 0x01#8)
  | .cfgw _ => (.cmd32, some 0x02#8)
  | .spbw _ _ => (.cmd32, some 0x03#8)
  | .sample _ => (.cmd32, some 0x10#8)
  | .eos => (.cmd32, some 0x11#8)
  | .bit _ => (.cmd32, some 0x12#8)
  | .fload _ _ => (.cmd32, some 0x13#8)
  | .frun _ => (.cmd32, some 0x14#8)
  | .ack => (.cmd32, some 0x20#8)
  | .chkFrame => (.tag16, some 0x79#8)
  | .chkPtu => (.tag16, some 0x7A#8)
  | .chkGps1 => (.tag16, some 0x7C#8)
  | .chkGps2 => (.tag16, some 0x7D#8)
  | .chkGps3 => (.tag16, some 0x7B#8)
  | .chkAux _ => (.tag16, some 0x7E#8)
  | .chkZero _ => (.tag16, some 0x76#8)
  | .ftmStd => (.ftm8, some 0x0F#8)
  | .ftmExt => (.ftm8, some 0xF0#8)
  | .ftmOther _ => (.ftm8, none)
  | .dscXor _ _ => (.uop8, some 0x00#8)
  | .demSample _ => (.uop8, some 0x10#8)
  | .demAvg _ => (.uop8, some 0x11#8)
  | .demZc _ => (.uop8, some 0x12#8)
  | .demLen _ => (.uop8, some 0x13#8)
  | .demEmit _ => (.uop8, some 0x14#8)
  | .demEnterint _ => (.uop8, some 0x15#8)
  | .demInt _ => (.uop8, some 0x16#8)
  | .demIntchk _ => (.uop8, some 0x17#8)
  | .demLeaveint _ => (.uop8, some 0x18#8)
  | .demVar _ => (.uop8, some 0x19#8)
  | .demEos => (.uop8, some 0x1A#8)
  | .synBit _ => (.uop8, some 0x20#8)
  | .synShift _ => (.uop8, some 0x21#8)
  | .synCmp => (.uop8, some 0x22#8)
  | .synAcq => (.uop8, some 0x23#8)
  | .synPack => (.uop8, some 0x24#8)
  | .synByte => (.uop8, some 0x25#8)
  | .synScore _ => (.uop8, some 0x26#8)
  | .synFtm => (.uop8, some 0x27#8)
  | .synSusp _ => (.uop8, some 0x28#8)
  | .synDone _ => (.uop8, some 0x29#8)
  | .synAbort => (.uop8, some 0x2A#8)
  | .fecCorrect _ => (.uop8, some 0x30#8)
  | .fecPad _ => (.uop8, some 0x31#8)
  | .fecGather => (.uop8, some 0x32#8)
  | .fecDec _ => (.uop8, some 0x33#8)
  | .eccInit _ => (.uop8, some 0x34#8)
  | .fecForce => (.uop8, some 0x35#8)
  | .fecZtrail => (.uop8, some 0x36#8)
  | .fecScatter _ => (.uop8, some 0x37#8)
  | .fecStat _ _ => (.uop8, some 0x38#8)
  | .crcUpd _ _ => (.uop8, some 0x40#8)
  | .crcCalc _ _ => (.uop8, some 0x41#8)
  | .crcCheck _ _ => (.uop8, some 0x42#8)
  | .crcScan => (.uop8, some 0x43#8)
  | .crcAuxwalk => (.uop8, some 0x44#8)

namespace Laws

/-- The words of `i`, with the default tag values the table prints, are of its row: its format, its fixed bits. -/
def TableRow.Statement (i : Instr) : Prop :=
  (encode Config.defaultParams i).format = i.row.1
    ∧ ∀ k, i.row.2 = some k → (encode Config.defaultParams i).key = k

/-- OP of a command word. -/
theorem commandWord_key (op : BitVec 8) (arg : BitVec 24) :
    (Words.cmd32 (commandWord op arg)).key = op := by
  apply BitVec.eq_of_getLsbD_eq
  intro i hi
  have h := BitVec.getLsbD_append (x := op) (y := arg) (i := 24 + i)
  simp only [Words.key, commandWord, BitVec.getLsbD_extractLsb', hi, decide_true, Bool.true_and]
  exact h.trans (by simp)

/-- The high byte of a tag written with length 0. -/
theorem tagWord_key (hi : Byte) (pos : Nat) : (Words.tag16 pos (tagWord hi)).key = hi := by
  apply BitVec.eq_of_getLsbD_eq
  intro i hi'
  have h := BitVec.getLsbD_append (x := hi) (y := 0x00#8) (i := 8 + i)
  simp only [Words.key, tagHi, tagWord, BitVec.getLsbD_extractLsb', hi', decide_true, Bool.true_and]
  exact h.trans (by simp)

/-- A row is met by its format and its fixed bits. -/
theorem TableRow.of_key (i : Instr) (f : Format) (k : BitVec 8) (hr : i.row = (f, some k))
    (hf : (encode Config.defaultParams i).format = f)
    (hk : (encode Config.defaultParams i).key = k) : TableRow.Statement i := by
  refine ⟨by rw [hf, hr], fun k' h => ?_⟩
  rw [hr] at h
  injection h with h
  rw [hk, h]

theorem TableRow.nop : TableRow.Statement .nop :=
  TableRow.of_key _ _ _ rfl rfl (commandWord_key _ _)
theorem TableRow.reset : TableRow.Statement .reset :=
  TableRow.of_key _ _ _ rfl rfl (commandWord_key _ _)
theorem TableRow.cfgw (c : BitVec 8) : TableRow.Statement (.cfgw c) :=
  TableRow.of_key _ _ _ rfl rfl (commandWord_key _ _)
theorem TableRow.spbw (n : BitVec 16) (d : BitVec 8) : TableRow.Statement (.spbw n d) :=
  TableRow.of_key _ _ _ rfl rfl (commandWord_key _ _)
theorem TableRow.sample (v : BitVec 16) : TableRow.Statement (.sample v) :=
  TableRow.of_key _ _ _ rfl rfl (commandWord_key _ _)
theorem TableRow.eos : TableRow.Statement .eos :=
  TableRow.of_key _ _ _ rfl rfl (commandWord_key _ _)
theorem TableRow.bit (b : Bit3) : TableRow.Statement (.bit b) :=
  TableRow.of_key _ _ _ rfl rfl (commandWord_key _ _)
theorem TableRow.fload (idx : BitVec 10) (val : Byte) : TableRow.Statement (.fload idx val) :=
  TableRow.of_key _ _ _ rfl rfl (commandWord_key _ _)
theorem TableRow.frun (len : BitVec 10) : TableRow.Statement (.frun len) :=
  TableRow.of_key _ _ _ rfl rfl (commandWord_key _ _)
theorem TableRow.ack : TableRow.Statement .ack :=
  TableRow.of_key _ _ _ rfl rfl (commandWord_key _ _)
theorem TableRow.chkFrame : TableRow.Statement .chkFrame := TableRow.of_key _ _ _ rfl rfl rfl
theorem TableRow.chkPtu : TableRow.Statement .chkPtu := TableRow.of_key _ _ _ rfl rfl rfl
theorem TableRow.chkGps1 : TableRow.Statement .chkGps1 := TableRow.of_key _ _ _ rfl rfl rfl
theorem TableRow.chkGps2 : TableRow.Statement .chkGps2 := TableRow.of_key _ _ _ rfl rfl rfl
theorem TableRow.chkGps3 : TableRow.Statement .chkGps3 := TableRow.of_key _ _ _ rfl rfl rfl
theorem TableRow.chkAux (pos : Nat) : TableRow.Statement (.chkAux pos) :=
  TableRow.of_key _ _ _ rfl rfl (tagWord_key _ _)
theorem TableRow.chkZero (pos : Nat) : TableRow.Statement (.chkZero pos) :=
  TableRow.of_key _ _ _ rfl rfl (tagWord_key _ _)
theorem TableRow.ftmStd : TableRow.Statement .ftmStd := TableRow.of_key _ _ _ rfl rfl rfl
theorem TableRow.ftmExt : TableRow.Statement .ftmExt := TableRow.of_key _ _ _ rfl rfl rfl
theorem TableRow.ftmOther (m : Byte) : TableRow.Statement (.ftmOther m) := ⟨rfl, nofun⟩
theorem TableRow.dscXor (v : Byte) (i : Nat) : TableRow.Statement (.dscXor v i) :=
  TableRow.of_key _ _ _ rfl rfl rfl
theorem TableRow.demSample (raw : BitVec 16) : TableRow.Statement (.demSample raw) :=
  TableRow.of_key _ _ _ rfl rfl rfl
theorem TableRow.demAvg (raw : BitVec 16) : TableRow.Statement (.demAvg raw) :=
  TableRow.of_key _ _ _ rfl rfl rfl
theorem TableRow.demZc (y : Rat) : TableRow.Statement (.demZc y) :=
  TableRow.of_key _ _ _ rfl rfl rfl
theorem TableRow.demLen (y : Rat) : TableRow.Statement (.demLen y) :=
  TableRow.of_key _ _ _ rfl rfl rfl
theorem TableRow.demEmit (l : Rat) : TableRow.Statement (.demEmit l) :=
  TableRow.of_key _ _ _ rfl rfl rfl
theorem TableRow.demEnterint (y : Rat) : TableRow.Statement (.demEnterint y) :=
  TableRow.of_key _ _ _ rfl rfl rfl
theorem TableRow.demInt (y : Rat) : TableRow.Statement (.demInt y) :=
  TableRow.of_key _ _ _ rfl rfl rfl
theorem TableRow.demIntchk (y : Rat) : TableRow.Statement (.demIntchk y) :=
  TableRow.of_key _ _ _ rfl rfl rfl
theorem TableRow.demLeaveint (y : Rat) : TableRow.Statement (.demLeaveint y) :=
  TableRow.of_key _ _ _ rfl rfl rfl
theorem TableRow.demVar (y : Rat) : TableRow.Statement (.demVar y) :=
  TableRow.of_key _ _ _ rfl rfl rfl
theorem TableRow.demEos : TableRow.Statement .demEos := TableRow.of_key _ _ _ rfl rfl rfl
theorem TableRow.synBit (b : Bit3) : TableRow.Statement (.synBit b) :=
  TableRow.of_key _ _ _ rfl rfl rfl
theorem TableRow.synShift (b : Bit3) : TableRow.Statement (.synShift b) :=
  TableRow.of_key _ _ _ rfl rfl rfl
theorem TableRow.synCmp : TableRow.Statement .synCmp := TableRow.of_key _ _ _ rfl rfl rfl
theorem TableRow.synAcq : TableRow.Statement .synAcq := TableRow.of_key _ _ _ rfl rfl rfl
theorem TableRow.synPack : TableRow.Statement .synPack := TableRow.of_key _ _ _ rfl rfl rfl
theorem TableRow.synByte : TableRow.Statement .synByte := TableRow.of_key _ _ _ rfl rfl rfl
theorem TableRow.synScore (m : Byte) : TableRow.Statement (.synScore m) :=
  TableRow.of_key _ _ _ rfl rfl rfl
theorem TableRow.synFtm : TableRow.Statement .synFtm := TableRow.of_key _ _ _ rfl rfl rfl
theorem TableRow.synSusp (p : Nat) : TableRow.Statement (.synSusp p) :=
  TableRow.of_key _ _ _ rfl rfl rfl
theorem TableRow.synDone (len : Nat) : TableRow.Statement (.synDone len) :=
  TableRow.of_key _ _ _ rfl rfl rfl
theorem TableRow.synAbort : TableRow.Statement .synAbort := TableRow.of_key _ _ _ rfl rfl rfl
theorem TableRow.fecCorrect (len : Nat) : TableRow.Statement (.fecCorrect len) :=
  TableRow.of_key _ _ _ rfl rfl rfl
theorem TableRow.fecPad (len : Nat) : TableRow.Statement (.fecPad len) :=
  TableRow.of_key _ _ _ rfl rfl rfl
theorem TableRow.fecGather : TableRow.Statement .fecGather := TableRow.of_key _ _ _ rfl rfl rfl
theorem TableRow.fecDec (k : CwSel) : TableRow.Statement (.fecDec k) :=
  TableRow.of_key _ _ _ rfl rfl rfl
theorem TableRow.eccInit (sel : Nat) : TableRow.Statement (.eccInit sel) :=
  TableRow.of_key _ _ _ rfl rfl rfl
theorem TableRow.fecForce : TableRow.Statement .fecForce := TableRow.of_key _ _ _ rfl rfl rfl
theorem TableRow.fecZtrail : TableRow.Statement .fecZtrail := TableRow.of_key _ _ _ rfl rfl rfl
theorem TableRow.fecScatter (k : CwSel) : TableRow.Statement (.fecScatter k) :=
  TableRow.of_key _ _ _ rfl rfl rfl
theorem TableRow.fecStat (ok1 ok2 : Bool) : TableRow.Statement (.fecStat ok1 ok2) :=
  TableRow.of_key _ _ _ rfl rfl rfl
theorem TableRow.crcUpd (r : BitVec 16) (b : Byte) : TableRow.Statement (.crcUpd r b) :=
  TableRow.of_key _ _ _ rfl rfl rfl
theorem TableRow.crcCalc (start n : Nat) : TableRow.Statement (.crcCalc start n) :=
  TableRow.of_key _ _ _ rfl rfl rfl
theorem TableRow.crcCheck (pos : Nat) (hi : Byte) : TableRow.Statement (.crcCheck pos hi) :=
  TableRow.of_key _ _ _ rfl rfl rfl
theorem TableRow.crcScan : TableRow.Statement .crcScan := TableRow.of_key _ _ _ rfl rfl rfl
theorem TableRow.crcAuxwalk : TableRow.Statement .crcAuxwalk := TableRow.of_key _ _ _ rfl rfl rfl

end Laws

end Sys2Proof
end

