-- ==== Sys2Proof/Laws/Port.lean ====
section
/-! SUPPORT. No operation reads the model's own port: what it does to the state of RS-CORE, and whether and where it
stops, is the same whatever words wait and whatever value was last handed back (10_state.md R20, R43). -/

namespace Sys2Proof.Machine

/-! ## Operations that leave the port alone and do not read it -/

/-- `f` commutes with every change of the port. -/
def PortBlind (f : State → State) : Prop := ∀ s p, f (s.withPort p) = (f s).withPort p

/-- Change the port of a result. -/
def Res.withPort (p : Port) : Res State → Res State
  | .ok s => .ok (s.withPort p)
  | .error e => .error e

/-- `f`, which can stop, commutes with every change of the port. -/
def PortBlindRes (f : State → Res State) : Prop := ∀ s p, f (s.withPort p) = Res.withPort p (f s)

theorem PortBlind.comp {f g : State → State} (hg : PortBlind g) (hf : PortBlind f) :
    PortBlind fun s => g (f s) := fun s p => by simp only [hf s p, hg (f s) p]

theorem PortBlind.ite {f g : State → State} (c : State → Prop) [∀ s, Decidable (c s)]
    (hc : ∀ s p, c (s.withPort p) = c s) (hf : PortBlind f) (hg : PortBlind g) :
    PortBlind fun s => if c s then f s else g s := by
  intro s p
  by_cases h : c s
  · simp only [if_pos h, if_pos ((hc s p).mpr h), hf s p]
  · simp only [if_neg h, if_neg (fun k => h ((hc s p).mp k)), hg s p]

theorem PortBlind.res {f : State → State} (hf : PortBlind f) : PortBlindRes fun s => .ok (f s) :=
  fun s p => by simp only [hf s p, Res.withPort]

theorem PortBlindRes.ite {f g : State → Res State} (c : State → Prop) [∀ s, Decidable (c s)]
    (hc : ∀ s p, c (s.withPort p) = c s) (hf : PortBlindRes f) (hg : PortBlindRes g) :
    PortBlindRes fun s => if c s then f s else g s := by
  intro s p
  by_cases h : c s
  · simp only [if_pos h, if_pos ((hc s p).mpr h), hf s p]
  · simp only [if_neg h, if_neg (fun k => h ((hc s p).mp k)), hg s p]

theorem PortBlindRes.comp {f : State → Res State} {g : State → State} (hf : PortBlindRes f)
    (hg : PortBlind g) : PortBlindRes fun s => f (g s) := fun s p => by simp only [hg s p, hf (g s) p]

theorem PortBlindRes.andThen {f g : State → Res State} (hf : PortBlindRes f) (hg : PortBlindRes g) :
    PortBlindRes fun s => andThen (f s) g := by
  intro s p
  simp only [hf s p]
  cases f s with
  | ok t => exact hg t p
  | error e => rfl

/-! ## The FEC unit -/

theorem fecDec_port (ecc : Ecc) (k : CwSel) (s : State) (p : Port) :
    fecDec ecc k (s.withPort p) = ⟨(fecDec ecc k s).st.withPort p, (fecDec ecc k s).ok, (fecDec ecc k s).err⟩ := by
  have h : cwWord k (s.withPort p) = cwWord k s := by cases k <;> rfl
  unfold fecDec
  rw [h, State.withPort_status]
  cases ecc s.status.eccReady (cwWord k s)
  · cases k <;> rfl
  · rfl

theorem withFec_port (f : Fec) (s : State) (p : Port) :
    (s.withPort p).withFec f = (s.withFec f).withPort p := rfl

theorem cwWriteRun_port (k : CwSel) (n : Nat) (addr : Nat → Nat) (val : Nat → Byte) (s : State) (p : Port) :
    cwWriteRun k (s.withPort p) n addr val = (cwWriteRun k s n addr val).withPort p := by
  cases k <;> rfl

theorem fecGather_port : PortBlind fecGather := by
  intro s p
  have r : ∀ (t : State) (a : Nat), rfByte (t.withPort p) a = rfByte t a := fun _ _ => rfl
  simp only [fecGather, gatherOne, cwWriteRun_port, r, State.withPort_par]

theorem fecPass_port (ecc : Ecc) (s : State) (p : Port) :
    fecPass ecc (s.withPort p) = ⟨(fecPass ecc s).st.withPort p, (fecPass ecc s).ok1, (fecPass ecc s).ok2⟩ := by
  simp only [fecPass, fecGather_port s p, fecDec_port, State.withPort_fec, withFec_port]

theorem fecFinish_port (q : FecPass) (p : Port) :
    fecFinish ⟨q.st.withPort p, q.ok1, q.ok2⟩ = (fecFinish q).withPort p := by
  obtain ⟨s, ok1, ok2⟩ := q
  cases ok1 <;> cases ok2 <;> rfl

theorem fecForce_port : PortBlind fecForce := fun _ _ => rfl

theorem fecRetry_port (ecc : Ecc) (s : State) (p : Port) :
    fecRetry ecc (s.withPort p) = ⟨(fecRetry ecc s).st.withPort p, (fecRetry ecc s).ok1, (fecRetry ecc s).ok2⟩ := by
  have h : PortBlind fun t => if looksStandard t then fecZtrail t else t :=
    PortBlind.ite _ (fun _ _ => rfl) (fun _ _ => rfl) fun _ _ => rfl
  simp only [fecRetry, State.withPort_fec, withFec_port, fecForce_port _ p]
  generalize fecForce _ = t
  exact (congrArg (fecPass ecc) (h t p)).trans (fecPass_port ecc _ p)

theorem fecCorrect_port (ecc : Ecc) (len : Nat) : PortBlind (fecCorrect ecc len) := by
  intro s p
  have h : fecPad (min len Config.frameLen) (s.withPort p) = (fecPad (min len Config.frameLen) s).withPort p := rfl
  unfold fecCorrect
  simp only [h, fecPass_port, State.withPort_fec, withFec_port, State.withPort_cfg, fecRetry_port]
  split
  · exact fecFinish_port _ p
  · exact fecFinish_port ⟨_, _, _⟩ p

/-! ## The CRC unit -/

theorem crcCheck_port (pos : Nat) (hi : Byte) (s : State) (p : Port) :
    crcCheck pos hi (s.withPort p) = ⟨(crcCheck pos hi s).st.withPort p, (crcCheck pos hi s).res⟩ := by
  have r : ∀ a, rfByte (s.withPort p) a = rfByte s a := fun _ => rfl
  have d : declaredLen (s.withPort p) pos = declaredLen s pos := rfl
  have k : ∀ a n, crcRun a n (s.withPort p) = (crcRun a n s).withPort p := fun _ _ => rfl
  have st : ∀ n, storedCrc (s.withPort p) pos n = storedCrc s pos n := fun _ => rfl
  simp only [crcCheck, r, d, k, st, State.withPort_crc]
  split_ifs <;> rfl

theorem crcCalc_port (start n : Nat) : PortBlindRes (crcCalc start n) :=
  PortBlindRes.ite (fun _ => n = 0 ∨ start + n ≤ Config.frameLen) (fun _ _ => rfl) (fun _ _ => rfl)
    fun _ _ => rfl

theorem checkBlock_port (bit pos : Nat) (hi : Byte) (s : State) (p : Port) :
    checkBlock bit pos hi (s.withPort p)
      = ⟨(checkBlock bit pos hi s).st.withPort p, (checkBlock bit pos hi s).res⟩ := by
  simp only [checkBlock, crcCheck_port]
  split_ifs <;> rfl

theorem auxBlock_port (pos : Nat) (s : State) (p : Port) :
    auxBlock pos (s.withPort p) = ⟨(auxBlock pos s).st.withPort p, (auxBlock pos s).res⟩ := by
  simp only [auxBlock, crcCheck_port, State.withPort_par]
  split_ifs <;> rfl

theorem auxChain_port (n : Nat) : ∀ (pos : Nat) (s : State) (p : Port),
    auxChain n pos (s.withPort p)
      = ⟨(auxChain n pos s).st.withPort p, (auxChain n pos s).pos, (auxChain n pos s).failed⟩ := by
  induction n with
  | zero => exact fun _ _ _ => rfl
  | succ n ih =>
    intro pos s p
    have c : auxContinues pos (s.withPort p) = auxContinues pos s := rfl
    have d : declaredLen (s.withPort p) pos = declaredLen s pos := rfl
    simp only [auxChain, c, d, auxBlock_port]
    split_ifs
    · exact ih _ _ p
    · rfl
    · rfl

theorem crcAuxwalk_port : PortBlind crcAuxwalk := by
  intro s p
  simp only [crcAuxwalk, auxChain_port, State.withPort_par, checkBlock_port]
  split_ifs <;> rfl

theorem crcScan_port : PortBlind crcScan := by
  intro s p
  have h : ∀ (l : List (Nat × Nat × Byte)) (t : State),
      l.foldl (fun t b => (checkBlock b.1 b.2.1 b.2.2 t).st) (t.withPort p)
        = (l.foldl (fun t b => (checkBlock b.1 b.2.1 b.2.2 t).st) t).withPort p := by
    intro l
    induction l with
    | nil => exact fun _ => rfl
    | cons b l ih => intro t; rw [List.foldl_cons, checkBlock_port]; exact ih _
  simp only [crcScan, State.withPort_par, h, crcAuxwalk_port _ p]

/-! ## The synchroniser -/

theorem synFtm_port : PortBlind synFtm :=
  PortBlind.ite _ (fun _ _ => rfl) (PortBlind.ite _ (fun _ _ => rfl) (fun _ _ => rfl)
    (PortBlind.ite _ (fun _ _ => rfl) (fun _ _ => rfl) fun _ _ => rfl)) fun _ _ => rfl

theorem judgeSuspect_port (q : Nat) : PortBlind (judgeSuspect q) := by
  intro s p
  have h : ∀ t : State, isSuspect q (t.withPort p) = isSuspect q t := fun _ => rfl
  rw [judgeSuspect_eq q _ _ rfl, judgeSuspect_eq q s _ rfl, h]
  rfl

theorem synSusp_port (q : Nat) : PortBlindRes (synSusp q) := by
  have h : PortBlind fun s => judgeSuspect q (recordVariance q s) :=
    (judgeSuspect_port q).comp fun _ _ => rfl
  exact PortBlindRes.ite _ (fun _ _ => rfl)
    (PortBlindRes.ite _ (fun _ _ => rfl) h.res fun _ _ => rfl) fun _ _ => rfl

theorem synDone_port (ecc : Ecc) (len : Nat) : PortBlind (synDone ecc len) := by
  have h := (crcScan_port.comp (fecCorrect_port ecc (min len Config.frameLen))).comp
    (f := fun s => s.withCrc { s.crc with mask := 0, auxCount := 0 }) fun _ _ => rfl
  exact PortBlind.comp (g := fun s => backToSearch (emitRecord (min len Config.frameLen) s))
    (fun _ _ => rfl) h

theorem completeIfFull_port (ecc : Ecc) : PortBlind (completeIfFull ecc) := by
  intro s p
  unfold completeIfFull
  rw [State.withPort_syn, synDone_port]
  split_ifs <;> rfl

theorem synByte_port (ecc : Ecc) : PortBlindRes (synByte ecc) := by
  intro s p
  have h : PortBlindRes fun t => andThen (synSusp s.syn.byteIndex t) fun u =>
      .ok (completeIfFull ecc (markerDecision s.syn.byteIndex u)) :=
    (synSusp_port _).andThen ((completeIfFull_port ecc).comp
      (PortBlind.ite _ (fun _ _ => rfl) synFtm_port fun _ _ => rfl)).res
  unfold synByte rfSetChecked
  dsimp only [State.withPort_syn]
  split_ifs
  · exact h ((rfSet s s.syn.byteIndex _).withSyn { s.syn with byteIndex := s.syn.byteIndex + 1 }) p
  · rfl

theorem collectBit_port (ecc : Ecc) (b : Bit3) : PortBlindRes (collectBit ecc b) :=
  PortBlindRes.ite (fun s => s.syn.bitCount.val = 7) (fun _ _ => rfl)
    ((synByte_port ecc).comp fun _ _ => rfl) fun _ _ => rfl

theorem synBit_port (ecc : Ecc) (b : Bit3) : PortBlindRes (synBit ecc b) := by
  have acquire : PortBlindRes fun t => .ok (if synCmp t then synAcq t else t) :=
    (PortBlind.ite _ (fun _ _ => rfl) (fun _ _ => rfl) fun _ _ => rfl).res
  have branch : ∀ y : SyncState, PortBlindRes fun t => match y with
      | .search => .ok (if synCmp t then synAcq t else t)
      | .assemble => collectBit ecc b t := by
    intro y
    cases y
    · exact acquire
    · exact collectBit_port ecc b
  have shift : PortBlind fun s =>
      synShift b (s.withSyn { s.syn with bitCounter := s.syn.bitCounter + 1 }) := fun _ _ => rfl
  intro s p
  exact (branch s.syn.syncState).comp shift s p

theorem synBits_port (ecc : Ecc) (b : Bit3) (n : Nat) : PortBlindRes (synBits ecc b n) := by
  induction n with
  | zero => exact fun _ _ => rfl
  | succ n ih => exact (synBit_port ecc b).andThen ih

/-! ## The demodulator -/

theorem demVar_port (y : Rat) : PortBlindRes (demVar y) :=
  PortBlindRes.ite _ (fun _ _ => rfl) (fun _ _ => rfl) fun _ _ => rfl

theorem demIntchk_port (ecc : Ecc) (y : Rat) : PortBlindRes (demIntchk ecc y) := by
  intro s p
  have h : PortBlindRes fun t => andThen (synBit ecc (bit3OfBool (integratedEvent s).symbol) t)
      fun u => .ok (if u.syn.syncState = .search then demLeaveint y u else u) :=
    (synBit_port ecc _).andThen
      (PortBlind.ite _ (fun _ _ => rfl) (fun _ _ => rfl) fun _ _ => rfl).res
  have q : quotaReached (s.withPort p) = quotaReached s := rfl
  unfold demIntchk
  rw [q]
  split_ifs
  · exact h (s.withDem { s.dem with intSum := 0, intK := s.dem.intK + 1 }) p
  · rfl

theorem demEnterint_port (ecc : Ecc) (y : Rat) : PortBlindRes (demEnterint ecc y) :=
  fun s p => demIntchk_port ecc y (s.withDem { s.dem with mode := .int, intSum := y, intN := 1, intK := 1 }) p

theorem demInt_port (ecc : Ecc) (y : Rat) : PortBlindRes (demInt ecc y) :=
  fun s p => demIntchk_port ecc y
    (s.withDem { s.dem with intSum := s.dem.intSum + y, intN := s.dem.intN + 1 }) p

theorem demLen_port (y : Rat) (s : State) (p : Port) :
    demLen y (s.withPort p) = ⟨(demLen y s).st.withPort p, (demLen y s).len⟩ := by
  unfold demLen
  rw [State.withPort_cfg]
  split <;> rfl

theorem endRun_port (ecc : Ecc) (y : Rat) : PortBlindRes (endRun ecc y) := by
  intro s p
  unfold endRun
  rw [demLen_port]
  generalize demLen y s = m
  exact ((synBits_port ecc (bit3OfBool (demEmit m.len m.st).symbol) (demEmit m.len m.st).count.toNat).andThen
    (PortBlindRes.ite (fun t => cfgAlt t.cfg = true ∧ t.syn.syncState = .assemble) (fun _ _ => rfl)
      (demEnterint_port ecc y) fun _ _ => rfl)) (startRun y m.st) p

theorem demZc_port (ecc : Ecc) (y : Rat) : PortBlindRes (demZc ecc y) :=
  PortBlindRes.ite _ (fun _ _ => rfl) (fun _ _ => rfl)
    (PortBlindRes.ite _ (fun _ _ => rfl) (fun _ _ => rfl) (endRun_port ecc y))

theorem filterSample_port (raw : BitVec 16) (s : State) (p : Port) :
    filterSample raw (s.withPort p) = ⟨(filterSample raw s).st.withPort p, (filterSample raw s).y⟩ := by
  unfold filterSample
  rw [State.withPort_cfg]
  split_ifs <;> rfl

theorem demSample_port (ecc : Ecc) (raw : BitVec 16) : PortBlindRes (demSample ecc raw) := by
  intro s p
  unfold demSample
  rw [filterSample_port]
  generalize filterSample raw s = f
  have step : PortBlindRes fun t => match t.dem.mode with
      | .zc => demZc ecc f.y t
      | .int => demInt ecc f.y t := by
    intro t p
    dsimp only [State.withPort_dem]
    cases t.dem.mode
    · exact demZc_port ecc f.y t p
    · exact demInt_port ecc f.y t p
  have track : PortBlindRes (trackVariance f.y) :=
    PortBlindRes.ite _ (fun _ _ => rfl) (demVar_port f.y) fun _ _ => rfl
  exact track.andThen step
    (f.st.withDem { f.st.dem with sampleCount := f.st.dem.sampleCount + 1 }) p

/-! ## Every operation -/

/-- The outcome of a step as the state of RS-CORE alone. -/
def coreOutcome : Host.Outcome State Fault Refusal → Host.Outcome CoreState Fault Refusal
  | .next s => .next s.toCoreState
  | .fault e => .fault e
  | .refused r => .refused r

/-- What `f` does to the state of RS-CORE does not depend on the port. -/
def CoreBlind (f : State → Host.Outcome State Fault Refusal) : Prop :=
  ∀ s p, coreOutcome (f (s.withPort p)) = coreOutcome (f s)

theorem PortBlind.next {f : State → State} (h : PortBlind f) : CoreBlind fun s => .next (f s) :=
  fun s p => by simp only [h s p]; rfl

theorem PortBlindRes.outcome {f : State → Res State} (h : PortBlindRes f) :
    CoreBlind fun s => toOutcome (f s) := fun s p => by
  simp only [h s p]
  cases f s <;> rfl

theorem CoreBlind.ite {f g : State → Host.Outcome State Fault Refusal} (c : State → Prop)
    [∀ s, Decidable (c s)] (hc : ∀ s p, c (s.withPort p) = c s) (hf : CoreBlind f) (hg : CoreBlind g) :
    CoreBlind fun s => if c s then f s else g s := by
  intro s p
  by_cases h : c s
  · simp only [if_pos h, if_pos ((hc s p).mpr h), hf s p]
  · simp only [if_neg h, if_neg (fun k => h ((hc s p).mp k)), hg s p]

theorem refuse_port (f : StickyFlag) : PortBlind (refuse f) := fun _ _ => by cases f <;> rfl

theorem checkedNext_port {f : State → Checked}
    (h : ∀ s p, f (s.withPort p) = ⟨(f s).st.withPort p, (f s).res⟩) :
    CoreBlind fun s => checkedNext (f s) := fun s p => by simp only [h s p]; rfl

/-- The four input commands: past the guard they run, else they are refused. -/
theorem guarded_port (mode : InMode) {f : State → Host.Outcome State Fault Refusal} (h : CoreBlind f) :
    CoreBlind fun s => if inputGuardRefuses mode s then .next (refuse .cmderr s) else f s :=
  CoreBlind.ite _ (fun _ _ => rfl) (refuse_port _).next h

/-- A write of a host command that a started session or a configuration fault refuses. -/
theorem locked_port (c : State → Bool) (hc : ∀ s p, c (s.withPort p) = c s) {f : State → State}
    (h : PortBlind f) : CoreBlind fun s => if s.status.started then .next (refuse .cmderr s)
      else if c s then .next (refuse .cfgerr s) else .next (f s) :=
  CoreBlind.ite _ (fun _ _ => rfl) (refuse_port _).next
    (CoreBlind.ite (fun s => c s = true) (fun s p => by rw [hc s p]) (refuse_port _).next h.next)

/-- No operation reads the port: what it does to the state of RS-CORE, and whether it stops, is the same whatever
words wait and whatever value was handed back before. -/
theorem exec_ignores_port (i : Instr) : CoreBlind (exec i) := by
  cases i with
  | nop => exact fun _ _ => rfl
  | reset => exact fun _ _ => rfl
  | cfgw c => exact locked_port _ (fun _ _ => rfl) fun _ _ => rfl
  | spbw n d => exact locked_port _ (fun _ _ => rfl) fun _ _ => rfl
  | sample v =>
    exact guarded_port .samples (CoreBlind.ite (fun s => s.rate.spbn = 0) (fun _ _ => rfl)
      (refuse_port _).next ((demSample_port _ v).comp fun _ _ => rfl).outcome)
  | eos =>
    exact CoreBlind.ite _ (fun _ _ => rfl) (PortBlind.next fun _ _ => rfl) (PortBlind.next fun _ _ => rfl)
  | bit b => exact guarded_port .bits ((synBit_port _ b).comp fun _ _ => rfl).outcome
  | fload idx val =>
    exact guarded_port .frames (CoreBlind.ite (fun _ => Config.frameLen ≤ idx.toNat) (fun _ _ => rfl)
      (refuse_port _).next (PortBlind.next fun _ _ => rfl))
  | frun len => exact guarded_port .frames ((synDone_port _ _).comp fun _ _ => rfl).next
  | ack =>
    exact CoreBlind.ite _ (fun _ _ => rfl) (PortBlind.next fun _ _ => rfl) (PortBlind.next fun _ _ => rfl)
  | chkFrame => exact checkedNext_port fun s p => checkBlock_port _ _ _ s p
  | chkPtu => exact checkedNext_port fun s p => checkBlock_port _ _ _ s p
  | chkGps1 => exact checkedNext_port fun s p => checkBlock_port _ _ _ s p
  | chkGps2 => exact checkedNext_port fun s p => checkBlock_port _ _ _ s p
  | chkGps3 => exact checkedNext_port fun s p => checkBlock_port _ _ _ s p
  | chkAux pos =>
    exact CoreBlind.ite _ (fun _ _ => rfl) (checkedNext_port fun s p => auxBlock_port pos s p)
      fun _ _ => rfl
  | chkZero pos => exact checkedNext_port fun s p => checkBlock_port _ _ _ s p
  | ftmStd => exact (PortBlind.ite _ (fun _ _ => rfl) (fun _ _ => rfl) fun _ _ => rfl).next
  | ftmExt => exact (PortBlind.ite _ (fun _ _ => rfl) (fun _ _ => rfl) fun _ _ => rfl).next
  | ftmOther m => exact fun _ _ => rfl
  | dscXor v i => exact fun _ _ => rfl
  | demSample raw => exact (demSample_port _ raw).outcome
  | demAvg raw => exact fun _ _ => rfl
  | demZc y => exact (demZc_port _ y).outcome
  | demLen y => exact fun s p => by simp only [exec, execDemLen, demLen_port]; rfl
  | demEmit l => exact fun _ _ => rfl
  | demEnterint y => exact (demEnterint_port _ y).outcome
  | demInt y => exact (demInt_port _ y).outcome
  | demIntchk y => exact (demIntchk_port _ y).outcome
  | demLeaveint y => exact fun _ _ => rfl
  | demVar y => exact (demVar_port y).outcome
  | demEos => exact fun _ _ => rfl
  | synBit b => exact (synBit_port _ b).outcome
  | synShift b => exact fun _ _ => rfl
  | synCmp => exact fun _ _ => rfl
  | synAcq => exact fun _ _ => rfl
  | synPack => exact fun _ _ => rfl
  | synByte => exact (synByte_port _).outcome
  | synScore m => exact fun _ _ => rfl
  | synFtm => exact synFtm_port.next
  | synSusp q => exact (synSusp_port q).outcome
  | synDone len => exact (synDone_port _ len).next
  | synAbort => exact fun _ _ => rfl
  | fecCorrect len => exact (fecCorrect_port _ len).next
  | fecPad len => exact fun _ _ => rfl
  | fecGather => exact fecGather_port.next
  | fecDec k => exact PortBlind.next fun s p => by rw [fecDec_port]
  | eccInit sel => exact fun _ _ => rfl
  | fecForce => exact fecForce_port.next
  | fecZtrail => exact fun _ _ => rfl
  | fecScatter k => exact PortBlind.next fun _ _ => by cases k <;> rfl
  | fecStat ok1 ok2 => exact fun _ _ => rfl
  | crcUpd r b => exact fun _ _ => rfl
  | crcCalc start n =>
    intro s p
    simp only [exec, execCrcCalc, crcCalc_port start n s p]
    cases crcCalc start n s <;> rfl
  | crcCheck pos hi => exact fun s p => by simp only [exec, execCrcCheck, crcCheck_port]; rfl
  | crcScan => exact crcScan_port.next
  | crcAuxwalk => exact crcAuxwalk_port.next

end Sys2Proof.Machine
end

