-- ==== Sys2Proof/Tests/Slice0.lean ====
section
/-! SUPPORT. Tests: the checks of WellFormed refuse ill-formed terms; words written out from 30_encoding.md decode to what
they stand for; single steps against the vectors of 95_test_vectors.md, each named in its comment; and states that meet
the hypotheses of the statements. -/

namespace Sys2Proof.Tests

open Sys2Proof Sys2Proof.Machine

set_option Elab.async false

/-! ## Ill-formed terms are refused -/

/-- The default record with one change. -/
def dflt : Params := Config.defaultParams

/-- 00_scope.md R7 (a), (b): no room for the window; a window that does not end at byte FRAMESTART. -/
theorem test_wf_window : { dflt with headofs := 33 }.headOk = false
    ∧ { dflt with framestart := 8 }.startOk = false := by decide
/-- R7 (c): parity that runs into the message; a message that runs out of RF. -/
theorem test_wf_codewords : { dflt with parpos := 9 }.codewordsOk = false
    ∧ { dflt with msgpos := 57 }.codewordsOk = false := by decide
/-- R7 (d): a tag beyond RF; a marker beyond a standard frame. -/
theorem test_wf_positions : { dflt with posAux := 517 }.positionsOk = false
    ∧ { dflt with posFtype := 320 }.positionsOk = false := by decide
/-- R7 (e): equal sentinels; a sentinel that is not negative. -/
theorem test_wf_sentinels : { dflt with sentCw2 := -1 }.sentinelsOk = false
    ∧ { dflt with sentBoth := 0 }.sentinelsOk = false
    ∧ { dflt with sentBoth := -129 }.sentinelsOk = false
    ∧ { dflt with sentBoth := -128 }.sentinelsOk = true := by decide
/-- R7 (f): a first byte beyond the reference of byte 320. -/
theorem test_wf_lag : { dflt with framestart := 21 }.lagOk = false := by decide
/-- R7 (g): a region that ends before it begins, or beyond RF. -/
theorem test_wf_region : { dflt with retryZeroHi := 319 }.zeroRegionOk = false
    ∧ { dflt with retryZeroHi := 519 }.zeroRegionOk = false := by decide
/-- R6: a retry threshold that no score reaches. -/
theorem test_wf_types : { dflt with ftRetryStdMin := 5 }.typesOk = false := by decide
/-- A record that fails one check is refused whole; the default record is accepted. -/
theorem test_wf_accept : ({ dflt with parpos := 9 } : Params).accept = none
    ∧ dflt.accept = some Config.defaultP := by decide
/-- Operands outside the ranges of their rules. -/
theorem test_wf_operands : [Instr.chkAux 517, .chkZero 517, .ftmOther 0x0F, .ftmOther 0xF0,
    .dscXor 0 (2 ^ 32), .demZc (1 / 2), .demVar 32769, .demEmit (-1), .synSusp 518, .synDone (2 ^ 32),
    .fecPad 519, .eccInit (2 ^ 32), .crcCalc 0 256, .crcCalc 418 101, .crcCheck (2 ^ 32) 0].all
    (fun i => !i.wf) = true := by decide +kernel
/-- Words that name no operation are refused by name: an OP outside the table, a tag of no kind, a fixed kind's tag at
another place, a label of no operation, an operand out of range. -/
theorem test_decode_refuses : decode dflt (.cmd32 0x7F000000) = .error .illegalOp
    ∧ decode dflt (.tag16 57 0x8028) = .error .noSuchTag
    ∧ decode dflt (.tag16 58 0x7928) = .error .noSuchTag
    ∧ decode dflt (.uop8 0x45 0 0) = .error .noSuchLabel
    ∧ decode dflt (.uop8 0x28 518 0) = .error .operandOutOfRange := by decide +kernel

/-! ## Every constructor decodes from a word written out from the spec -/

/-- The ten commands, with the words of 30_encoding.md R110 and 95_test_vectors.md 2.6. -/
theorem test_decode_commands : [0x00FFFFFF#32, 0x01000000, 0x02000024, 0x03009310, 0x10FF8000,
      0x11000000, 0x12FFFFFE, 0x130205AB, 0x140003FF, 0x20000000].map (fun w => decode dflt (.cmd32 w))
    = [.ok .nop, .ok .reset, .ok (.cfgw 0x24), .ok (.spbw 147 16), .ok (.sample 0x8000), .ok .eos,
      .ok (.bit .x), .ok (.fload 517 0xAB), .ok (.frun 1023), .ok .ack] := by decide +kernel
/-- The symbols of BIT: 0, 1, and X for 2 and 3 (V-CMD-17). -/
theorem test_decode_bit : [0x12000000#32, 0x12000001, 0x12000002, 0x12000003].map
      (fun w => decode dflt (.cmd32 w))
    = [.ok (.bit .zero), .ok (.bit .one), .ok (.bit .x), .ok (.bit .x)] := by decide +kernel
/-- The seven tags of 30_encoding.md R100 at their places. -/
theorem test_decode_tags : [(57, 0x7928#16), (101, 0x7A2A), (147, 0x7C1E), (181, 0x7D59),
      (274, 0x7B15), (299, 0x7E0B), (322, 0x76C0)].map (fun e => decode dflt (.tag16 e.1 e.2))
    = [.ok .chkFrame, .ok .chkPtu, .ok .chkGps1, .ok .chkGps2, .ok .chkGps3, .ok (.chkAux 299),
      .ok (.chkZero 322)] := by decide +kernel
/-- The marker classes of 30_encoding.md R104. -/
theorem test_decode_markers : [0x0F#8, 0xF0, 0x0E].map (fun m => decode dflt (.ftm8 m))
    = [.ok .ftmStd, .ok .ftmExt, .ok (.ftmOther 0x0E)] := by decide
/-- The labels of the descrambler and the demodulator (30_encoding.md R109), with operand words. -/
theorem test_decode_dem : [(0x00#8, 0x10#32, 7#32), (0x10, 0xFC18, 0), (0x11, 5, 0), (0x12, 3, 0),
      (0x13, 0xFFFFFFFD, 0), (0x14, 48, 48), (0x15, 1, 0), (0x16, 6, 0), (0x17, 0, 0), (0x18, 9, 0),
      (0x19, 30, 0), (0x1A, 0, 0)].map (fun e => decode dflt (.uop8 e.1 e.2.1 e.2.2))
    = [.ok (.dscXor 0x10 7), .ok (.demSample 0xFC18), .ok (.demAvg 5), .ok (.demZc 1), .ok (.demLen (-1)),
      .ok (.demEmit (48 / 49)), .ok (.demEnterint (1 / 3)), .ok (.demInt 2), .ok (.demIntchk 0),
      .ok (.demLeaveint 3), .ok (.demVar 10), .ok .demEos] := by decide +kernel
/-- The labels of the synchroniser (R109). -/
theorem test_decode_syn : [(0x20#8, 1#32), (0x21, 2), (0x22, 0), (0x23, 0), (0x24, 0), (0x25, 0),
      (0x26, 0x0F), (0x27, 0), (0x28, 517), (0x29, 320), (0x2A, 0)].map
      (fun e => decode dflt (.uop8 e.1 e.2 0))
    = [.ok (.synBit .one), .ok (.synShift .x), .ok .synCmp, .ok .synAcq, .ok .synPack, .ok .synByte,
      .ok (.synScore 0x0F), .ok .synFtm, .ok (.synSusp 517), .ok (.synDone 320), .ok .synAbort] := by
  decide +kernel
/-- The labels of the FEC unit (R109). -/
theorem test_decode_fec : [(0x30#8, 320#32, 0#32), (0x31, 518, 0), (0x32, 0, 0), (0x33, 1, 0),
      (0x34, 3, 0), (0x35, 0, 0), (0x36, 0, 0), (0x37, 0, 0), (0x38, 1, 0)].map
      (fun e => decode dflt (.uop8 e.1 e.2.1 e.2.2))
    = [.ok (.fecCorrect 320), .ok (.fecPad 518), .ok .fecGather, .ok (.fecDec .cw2), .ok (.eccInit 3),
      .ok .fecForce, .ok .fecZtrail, .ok (.fecScatter .cw1), .ok (.fecStat true false)] := by
  decide +kernel
/-- The labels of the CRC unit (R109). -/
theorem test_decode_crc : [(0x40#8, 0xFFFF#32, 0x31#32), (0x41, 263, 255), (0x42, 57, 0x79),
      (0x43, 0, 0), (0x44, 0, 0)].map (fun e => decode dflt (.uop8 e.1 e.2.1 e.2.2))
    = [.ok (.crcUpd 0xFFFF 0x31), .ok (.crcCalc 263 255), .ok (.crcCheck 57 0x79), .ok .crcScan,
      .ok .crcAuxwalk] := by decide +kernel
/-- The opcode table's words through the host's numbering. -/
theorem test_table_words : decodeTableWord 32 0x14000140 = some (.frun 320)
    ∧ decodeTableWord 16 0x7D00 = some .chkGps2 ∧ decodeTableWord 8 0xF0 = some .ftmExt
    ∧ decodeTableWord 8 0x2A = some .synAbort ∧ decodeTableWord 32 0x7F000000 = none := by
  decide +kernel

/-! ## Single steps against the vectors of 95_test_vectors.md -/

/-- A field of the state an outcome leaves. -/
def after {α : Type} (o : Host.Outcome State Fault Refusal) (f : State → α) : Option α :=
  match o with
  | .next s => some (f s)
  | .fault _ => none
  | .refused _ => none

/-- A step after a word has been placed. -/
def runWord (s : State) (nbits w : Nat) : Host.Outcome State Fault Refusal :=
  step (s.withFetchWord nbits w)

/-- The state after reset with the ratio n/1. -/
def rated (n : BitVec 16) : State := { State.reset with rate := ⟨n, 1, windowLength n 1⟩ }

/-- The state after reset with RF holding `m`. -/
def holding (m : Memory) : State := { State.reset with rf := m }

/-- V-CMD-1, V-CMD-12: nothing changes; a step with nothing on the port retains all state. -/
theorem test_nop : after (runWord State.reset 32 0x00FFFFFF) id = some State.reset
    ∧ after (runWord State.reset 32 0x20000000) id = some State.reset
    ∧ after (step State.reset) id = some State.reset := by decide +kernel
/-- V-CMD-18. -/
theorem test_reset : after (runWord { rated 2 with cfg := 0x24, rf := [(9, 1)] } 32 0x01000000) id
    = some State.reset := by decide +kernel
/-- V-CMD-2: an illegal word sets CMDERR and nothing else. -/
theorem test_illegal : after (runWord State.reset 32 0xFF123456) id
    = some { State.reset with status := { State.reset.status with cmderr := true } } := by
  decide +kernel
/-- V-CMD-3, V-CMD-4: reserved images are a configuration fault. -/
theorem test_cfgw_reserved : after (runWord State.reset 32 0x02000080) (fun s => (s.cfg, s.status.cfgerr))
      = some (0x00, true)
    ∧ after (runWord State.reset 32 0x02000018) (fun s => (s.cfg, s.status.cfgerr))
      = some (0x00, true) := by decide +kernel
/-- V-CMD-5, second write: all fields at once. -/
theorem test_cfgw : after (runWord { State.reset with cfg := 0x24 } 32 0x02000008) (·.cfg)
    = some 0x08 := by decide +kernel
/-- V-CMD-6: illegal ratios. -/
theorem test_spbw_illegal : [0x03000500, 0x03000102, 0x03010101].all (fun w =>
      after (runWord State.reset 32 w) (fun s => (s.status.cfgerr, s.rate)) = some (true, ⟨0, 1, 0⟩))
    = true := by decide +kernel
/-- V-CMD-7, V-DEM-11: windows. -/
theorem test_spbw : [0x03010001, 0x03000101, 0x03012620, 0x03009310, 0x03000503].map (fun w =>
      after (runWord State.reset 32 w) (fun s => s.rate.vwin))
    = [some 8192, some 32, some 294, some 294, some 53] := by decide +kernel
/-- V-CMD-8: a sample without a ratio. -/
theorem test_sample_unrated : after (runWord State.reset 32 0x10000005) (·.status)
    = some { State.reset.status with cfgerr := true } := by decide +kernel
/-- V-CMD-16, V-DEM-12: the first sample starts a run; only the low 16 bits count. -/
theorem test_sample : after (runWord (rated 2) 32 0x10FF8000)
      (fun s => (s.dem.runSign, s.dem.runN, s.dem.yPrev, s.dem.sampleCount))
    = some (.neg, 1, -32768, 1) := by decide +kernel
/-- V-CMD-10: end of stream, and the second one. -/
theorem test_eos : after (runWord State.reset 32 0x11000000) (fun s => s.status.eos) = some true
    ∧ after (runWord { State.reset with status := { State.reset.status with eos := true } } 32
      0x12000000) (·.status)
      = some { State.reset.status with eos := true, cmderr := true } := by decide +kernel
/-- V-CMD-17: X enters the correlator. -/
theorem test_bit : after (runWord State.reset 32 0x12000003)
      (fun s => (s.syn.corr[0], s.syn.bitCounter, s.status.inmode))
    = some (.x, 1, .bits) := by decide +kernel
/-- V-CMD-13, V-CMD-14. -/
theorem test_fload : after (runWord State.reset 32 0x13020600) (·.status)
      = some { State.reset.status with cmderr := true }
    ∧ after (runWord State.reset 32 0x130205AB) (fun s => (rfByte s 517, s.status.inmode))
      = some (0xAB, .frames) := by decide +kernel

/-- V-DSC-2: the keystream. -/
theorem test_dsc : after (exec (.dscXor 0xF8 7) State.reset) (fun s => s.port.ret) = some (.byte 0x60)
    ∧ after (exec (.dscXor 0x00 517) State.reset) (fun s => s.port.ret) = some (.byte 0x49) := by
  decide +kernel
/-- V-DEM-7: the third sample, -900 after 300 and 300. -/
theorem test_avg : after (exec (.demAvg (BitVec.ofInt 16 (-900)))
      { State.reset with dem := { State.reset.dem with avgRing := #v[300, 300, 7] } })
      (fun s => (s.port.ret, s.dem.avgRing)) = some (.rational (-100), #v[-900, 300, 300]) := by decide +kernel
/-- V-DEM-2: the first run. -/
theorem test_len : after (exec (.demLen 1) { State.reset with
      rate := ⟨147, 16, 294⟩, dem := { State.reset.dem with runN := 9, runSign := .neg, yPrev := -1 } })
      (fun s => s.port.ret) = some (.rational (48 / 49)) := by decide +kernel
/-- V-DEM-5: the first crossing of precision mode. -/
theorem test_len_prec : after (exec (.demLen (-300)) { rated 4 with
      cfg := 0x02, dem := { State.reset.dem with runN := 4, yPrev := 100 } })
      (fun s => (s.port.ret, s.dem.x0)) = some (.rational (13 / 16), 3 / 4) := by decide +kernel
/-- V-DEM-1: 2/5, 1/2, 7/5, 3/2 round to 0, 1, 1, 2; V-DEM-4: POL inverts. -/
theorem test_emit : [2 / 5, 1 / 2, 7 / 5, 3 / 2].map (fun l : Rat => (demEmit l State.reset).count)
      = [0, 1, 1, 2]
    ∧ (demEmit 1 { State.reset with cfg := 0x01 }).symbol = false := by decide +kernel
/-- V-DEM-3: zero counts as positive; the ended run delivers its bit. -/
theorem test_zc : after (exec (.demZc 0) { rated 2 with
      dem := { State.reset.dem with runN := 2, runSign := .neg, yPrev := -5 } })
      (fun s => (s.syn.bitCounter, s.syn.corr[0], s.dem.runSign, s.dem.runN))
    = some (1, .zero, .pos, 1) := by decide +kernel
/-- V-DEM-9: a sum of 0 is a 1, a sum of -1 a 0; with POL the other way. -/
theorem test_intchk_symbol : [(0x04#8, 0), (0x04, -1), (0x05, 0), (0x05, -1)].map
      (fun e : BitVec 8 × Int => after (exec (.demIntchk 0) { rated 2 with
        cfg := e.1, dem := { State.reset.dem with mode := .int, intSum := e.2, intN := 2, intK := 1 } })
        (fun s => s.syn.corr[0])) = [some .one, some .zero, some .zero, some .one] := by
  decide +kernel
/-- 41_demodulator.md R149: at 5/3 bits end at the cumulative counts 2, 4, 5, 7, 9, 10, and at 147/16 the sixth ends at
56 after 46: each event's duration is the difference (30_encoding.md R108). -/
theorem test_integrated_duration : [(2, 1), (4, 2), (5, 3), (7, 4), (9, 5), (10, 6)].map
      (fun e : Nat × Nat => (integratedEvent { State.reset with
        rate := ⟨5, 3, 53⟩, dem := { State.reset.dem with intN := e.1, intK := e.2 } }).durationSamples)
      = [2, 2, 1, 2, 2, 1]
    ∧ (integratedEvent { State.reset with
        rate := ⟨147, 16, 294⟩, dem := { State.reset.dem with intN := 56, intK := 6 } }).durationSamples
      = 10 := by decide +kernel
/-- V-DEM-10: at 147/16 the first bit is decided at the tenth sample. -/
theorem test_int_quota : [8, 9].map (fun n => after (exec (.demInt 5) { State.reset with
      rate := ⟨147, 16, 294⟩, dem := { State.reset.dem with mode := .int, intN := n, intK := 1 } })
      (fun s => s.syn.bitCounter)) = [some 0, some 1] := by decide +kernel
/-- 41_demodulator.md R147, R151: entering and leaving integrate mode. -/
theorem test_int_mode : after (exec (.demEnterint (-7)) (rated 4))
      (fun s => (s.dem.mode, s.dem.intSum, s.dem.intN, s.dem.intK)) = some (.int, -7, 1, 1)
    ∧ after (exec (.demLeaveint (-7)) { rated 4 with dem := { State.reset.dem with mode := .int } })
      (fun s => (s.dem.mode, s.dem.runSign, s.dem.runN)) = some (.zc, .neg, 1) := by decide +kernel
/-- V-DEM-8, the last sample but the window's: 30 replaces 10. -/
theorem test_var : after (exec (.demVar 30) { rated 1 with dem := { State.reset.dem with
        vring := [(2, 10)], vpos := 2, vs1 := 50, vs2 := 4800 } })
      (fun s => (s.dem.vs1, s.dem.vs2, scaledVariance s, s.dem.vpos))
    = some (70, 5600, 174300, 3) := by decide +kernel
/-- V-SYN-1: the last of the 32 bits acquires, no earlier one. -/
theorem test_acquire : after (exec (.synBit .zero) { State.reset with syn := { State.reset.syn with
        corr := Vector.ofFn fun i => if i.val < 31 then refSymbol dflt (54 - i.val) else .x } })
      (fun s => (s.syn.syncState, s.syn.byteIndex, s.syn.targetLen)) = some (.assemble, 7, 518) := by
  decide +kernel
/-- V-SYN-2: with one bit inverted there is no match. -/
theorem test_no_fuzzy_match : after (exec .synCmp { State.reset with syn := { State.reset.syn with
        corr := Vector.ofFn fun i => if i.val = 17 then .one else refSymbol dflt (55 - i.val) } })
      (fun s => s.port.ret) = some (.bool false) := by decide +kernel
/-- V-SYN-7: a forced standard length at acquisition. -/
theorem test_acq_std : after (exec .synAcq { State.reset with cfg := 0x08 }) (fun s => s.syn.targetLen)
    = some 320 := by decide +kernel
/-- V-SYN-3: the raw byte 0xF8 at index 7. -/
theorem test_byte : after (exec .synByte { State.reset with syn := { State.reset.syn with
        syncState := .assemble, bitbuf := #v[.zero, .zero, .zero, .one, .one, .one, .one, .one] } })
      (fun s => (rfByte s 7, s.syn.byteIndex)) = some (0x60, 8) := by decide +kernel
/-- V-SYN-4: a byte with an X is stored as a raw 0. -/
theorem test_byte_x : after (exec .synByte { State.reset with syn := { State.reset.syn with
        syncState := .assemble, byteIndex := 60,
        bitbuf := #v[.one, .one, .x, .zero, .zero, .zero, .zero, .zero] } })
      (fun s => (rfByte s 60, s.syn.byteIndex)) = some (0xBF, 61) := by decide +kernel
/-- V-SYN-5: scores. -/
theorem test_score : [0x0F#8, 0xF0, 0x0E, 0x1F, 0x07, 0x8F, 0x70, 0xF1, 0x30, 0x00, 0xFF, 0xA5, 0x3C].map
      frameScore = [4, -4, 3, 3, 3, 3, -3, -3, -2, 0, 0, 0, 0] := by decide
/-- V-SYN-6, V-SYN-7: the marker's decision, and a forced length. -/
theorem test_ftm : after (exec .synFtm (holding [(56, 0x0F)])) (fun s => s.syn.targetLen) = some 320
    ∧ after (exec .synFtm (holding [(56, 0x0E)])) (fun s => s.syn.targetLen) = some 518
    ∧ after (exec .synFtm { holding [(56, 0x0F)] with cfg := 0x10 }) (fun s => s.syn.targetLen)
      = some 518 := by decide +kernel
/-- V-SYN-8: the fourth suspect byte truncates to 320; with a pure marker nothing is cut. -/
theorem test_susp : [0x0E#8, 0x0F].map (fun m => after (exec (.synSusp 323) { holding [(56, m)] with
        cfg := 0x04, rate := ⟨1, 1, 32⟩, dem := { State.reset.dem with vs2 := 1 }
        syn := { State.reset.syn with suspectRun := 3, varHist := [(23, 21)] } })
      (fun s => (s.syn.suspectRun, s.syn.targetLen))) = [some (4, 320), some (4, 518)] := by
  decide +kernel
/-- V-SYN-9: a byte that is not suspect clears the run. -/
theorem test_susp_clear : after (exec (.synSusp 322) { State.reset with
        cfg := 0x04, rate := ⟨1, 1, 32⟩, dem := { State.reset.dem with vs2 := 1 }
        syn := { State.reset.syn with suspectRun := 2, varHist := [(22, 22)] } })
      (fun s => (s.syn.suspectRun, varHistAt s 322)) = some (0, 32) := by decide +kernel
/-- V-SYN-10: end of stream inside a frame. -/
theorem test_abort : after (exec .eos { State.reset with syn := { State.reset.syn with
        syncState := .assemble, byteIndex := 200, bitCount := 5 } })
      (fun s => (s.syn.syncState, s.syn.byteIndex, s.syn.bitCount, s.out.records)) = some (.search, 7, 0, []) := by
  decide +kernel

/-- The first bytes of F-STD from the marker on, and its Frame/ID payload. -/
def fStd : Memory :=
  [(56, 0x0F), (57, 0x79), (58, 0x28)] ++ (List.range 40).map fun i => (59 + i, BitVec.ofNat 8 (i + 1))

/-- A sub-block whose payload is one zero byte; its CRC is E1 F0 (V-CRC-3). -/
def blockAt (pos : Nat) (hi : Byte) : Memory :=
  [(pos, hi), (pos + 1, 0x01), (pos + 3, 0xE1), (pos + 4, 0xF0)]

/-- A frame of seven such blocks: the five fixed ones, one AUX block, the zero-padding block behind it. -/
def frame : Memory :=
  blockAt 57 0x79 ++ blockAt 101 0x7A ++ blockAt 147 0x7C ++ blockAt 181 0x7D ++ blockAt 274 0x7B
    ++ blockAt 299 0x7E ++ blockAt 304 0x76

/-- The frame with another byte at `a`. -/
def damaged (a : Nat) (v : Byte) : Memory := cellsSet (rfReset dflt) frame a v

/-- The mask and the count an operation leaves. -/
def crcOf (i : Instr) (m : Memory) : Option (BitVec 7 × Nat) :=
  after (exec i (holding m)) fun s => (s.crc.mask, s.crc.auxCount)

/-- V-CRC-2 to V-CRC-8. -/
theorem test_crc : crc16 [] = 0xFFFF ∧ crc16 [0x31, 0x32, 0x33, 0x34, 0x35, 0x36, 0x37, 0x38, 0x39] = 0x29B1
    ∧ crc16 [0x00] = 0xE1F0 ∧ crc16 [0xFF] = 0xFF00 ∧ crc16 [0x41] = 0xB915 := by decide +kernel
theorem test_crc_calc : after (exec (.crcCalc 59 40) (holding fStd)) (fun s => s.crc.reg)
    = some 0x0E1A := by decide +kernel
theorem test_crc_upd : after (exec (.crcUpd 0xFFFF 0x01) State.reset) (fun s => s.port.ret)
    = some (.word 0xF1D1) := by decide +kernel
/-- V-CRC-13: another tag; V-CRC-21's case: a length that runs out of RF. -/
theorem test_crc_check : after (exec (.crcCheck 147 0x7C) (holding [(147, 0x7D)])) (fun s => s.port.ret)
      = some (.check .mismatchMarker)
    ∧ after (exec (.crcCheck 322 0x76) (holding [(322, 0x76), (323, 0xFF)])) (fun s => s.port.ret)
      = some (.check .crcFail) := by decide +kernel
/-- A whole frame (as V-CRC-17), and with GPS1's tag wrong (as V-CRC-13). -/
theorem test_scan : crcOf .crcScan frame = some (0x00, 1)
    ∧ crcOf .crcScan (damaged 147 0x7D) = some (0x04, 1) := by decide +kernel
/-- A damaged AUX payload (as V-CRC-18), and a damaged zero-block CRC (as V-CRC-20). -/
theorem test_auxwalk : crcOf .crcAuxwalk (damaged 301 0x01) = some (0x60, 0)
    ∧ crcOf .crcAuxwalk (damaged 308 0xF1) = some (0x40, 1) := by decide +kernel
/-- The five fixed checks on the frame, and on RF without any tag. -/
theorem test_checks : [Instr.chkFrame, .chkPtu, .chkGps1, .chkGps2, .chkGps3].map (crcOf · frame)
      = List.replicate 5 (some (0x00, 0))
    ∧ [Instr.chkFrame, .chkPtu, .chkGps1, .chkGps2, .chkGps3].map (crcOf · [])
      = [some (0x01, 0), some (0x02, 0), some (0x04, 0), some (0x08, 0), some (0x10, 0)] := by
  decide +kernel
/-- One block of the variable region: a good one, a damaged one, no block. -/
theorem test_check_aux : crcOf (.chkAux 299) frame = some (0x00, 1)
    ∧ crcOf (.chkAux 299) (damaged 301 0x01) = some (0x20, 0)
    ∧ crcOf (.chkAux 304) frame = some (0x00, 0) := by decide +kernel
theorem test_check_zero : crcOf (.chkZero 304) frame = some (0x00, 0)
    ∧ crcOf (.chkZero 299) frame = some (0x40, 0) := by decide +kernel

/-- 95_test_vectors.md 2.5: CW1[24..27] and CW2[24..27] of F-STD. -/
theorem test_gather : after (exec .fecGather (holding fStd)) (fun s =>
      ((List.range 4).map (fun i => cwByte .cw1 s (24 + i)), (List.range 4).map (fun i => cwByte .cw2 s (24 + i))))
    = some ([0x0F, 0x28, 0x02, 0x04], [0x79, 0x01, 0x03, 0x05]) := by decide +kernel
/-- 43_fec.md R210: the first parity byte and the last message byte of codeword 2. -/
theorem test_scatter : after (exec (.fecScatter .cw2) { State.reset with
        fec := { State.reset.fec with cw2 := [(0, 0xC8), (254, 0x11)] } })
      (fun s => s.rf) = some [(32, 0xC8), (517, 0x11)] := by decide +kernel
theorem test_pad : after (exec (.fecPad 320) (holding [(319, 1), (320, 2), (517, 3)])) (·.rf)
    = some [(319, 1)] := by decide +kernel
theorem test_ztrail : after (exec .fecZtrail (holding [(319, 1), (320, 2), (517, 3)])) (·.rf)
    = some [(319, 1)] := by decide +kernel
theorem test_force : after (exec .fecForce State.reset) (·.rf)
    = some [(57, 0x79), (58, 0x28), (101, 0x7A), (102, 0x2A), (147, 0x7C), (148, 0x1E), (181, 0x7D),
      (182, 0x59), (274, 0x7B), (275, 0x15)] := by decide +kernel
/-- V-FEC-2, V-FEC-5, V-FEC-4, V-FEC-7: the sum, and the three sentinels. -/
theorem test_stat : [(true, true), (false, true), (true, false), (false, false)].map (fun e =>
      after (exec (.fecStat e.1 e.2) { State.reset with
        fec := { State.reset.fec with err1 := 2, err2 := 1 } }) (fun s => s.fec.status))
    = [some 3, some (-1), some (-2), some (-3)] := by decide +kernel
theorem test_ecc_init : after (exec (.eccInit 0) { State.reset with
      status := { State.reset.status with eccReady := false } }) (fun s => s.status.eccReady) = some true := by
  decide +kernel

/-- A service that always answers failure. -/
def eccNever : Ecc := fun _ _ => .failure

/-- A service that always answers the zero word, with the distance as count. -/
def eccZero : Ecc := fun _ w =>
  .corrected (Vector.replicate 255 0) (Fin.ofNat 13 (Codeword.distance w (Vector.replicate 255 0)))

/-- 43_fec.md R203: a codeword corrected, and one that is not. -/
theorem test_dec : (fecDec eccZero .cw1 { State.reset with
        fec := { State.reset.fec with cw1 := [(7, 1), (254, 9)] } }).err = 2
    ∧ (fecDec eccNever .cw2 State.reset).err = -1 := by decide +kernel
/-- 43_fec.md R206, R207: both fail, the retry rewrites the tags and fails again. -/
theorem test_correct_fails : (fun t : State => (t.fec.status, t.fec.retried, rfByte t 57))
    (fecCorrect eccNever 518 { State.reset with cfg := 0x20 }) = (-3, true, 0x79) := by decide +kernel
/-- The case of V-FEC-3 for the zero codeword: an error in each codeword is corrected, padding comes first. -/
theorem test_correct : (fun t : State => (t.fec.status, t.rf))
    (fecCorrect eccZero 320 (holding [(8, 1), (57, 2), (60, 3), (400, 4)])) = (3, []) := by decide +kernel
/-- V-CMD-15, 30_encoding.md R107: the record of a frame run with length 1023, and a header of 95_test_vectors.md
2.7. -/
theorem test_done : (synDone eccNever 1023 State.reset).out.records.map headerWord = [0x00000000DFFD0206]
    ∧ headerWord ⟨3, 518, 0, 0, 2, false, 0, []⟩ = 0x0000000380001206 := by decide +kernel
/-- V-CMD-9: a frame run in a session of bits is refused. -/
theorem test_frun : after (exec (.frun 320) { State.reset with
        status := { State.reset.status with started := true, inmode := .bits } })
      (fun s => (s.status.cmderr, s.out.records)) = some (true, []) := by decide +kernel
/-- ACK takes the record at the head. -/
theorem test_ack : after (exec .ack { State.reset with
      out := ⟨[⟨0, 320, 0, 0, 0, false, 0x0F, []⟩], 0, 1⟩ }) (fun s => (s.out.rdPtr, statusOutValid s))
    = some (1, false) := by decide +kernel
/-- The port's three model items: a label, a tag in RF, the marker in RF. -/
theorem test_port : after (runWord State.reset 8 0x2A) (fun s => s.syn.syncState) = some .search
    ∧ after (runWord State.reset 16 0x7E00) (fun s => (s.crc.mask, s.port.pending)) = some (0x20, [])
    ∧ after (runWord State.reset 8 0x0F) (fun s => s.syn.targetLen) = some 320 := by decide +kernel

/-! ## States that meet the hypotheses of the statements

One theorem for each statement with hypotheses, one clause for each of its clauses, at the ends of the ranges. -/

/-- A session of samples at two samples a bit, in a given mode, with a run of three positive samples and one sample in
the variance window. -/
def demo (c : BitVec 8) (m : DemMode) (y : SyncState) : State :=
  { rated 2 with
    cfg := c
    status := { State.reset.status with started := true, inmode := .samples }
    dem := { State.reset.dem with mode := m, runN := 3, yPrev := 5, intN := 1, intK := 1, vring := [(0, 3)],
                                  vpos := 1, vs1 := 3, vs2 := 9 }
    syn := { State.reset.syn with syncState := y } }

theorem demo_ok (c : BitVec 8) (m : DemMode) (y : SyncState) (hc : cfgReserved c = false)
    (hm : m = .int → y = .assemble ∧ cfgAlt c = true) : StateOk (demo c m y) where
  buffers := ⟨rfl, rfl, rfl,
    (by decide +kernel : cellsWf ratReset 8192 [(0, (3 : Rat))] = true), rfl⟩
  config := ⟨hc, .inr ⟨(by decide : ratioIllegal 2 1 = false), rfl⟩,
    .inl (by decide : 1 < windowLength 2 1)⟩
  session := ⟨rfl, (by decide : true = true ↔ InMode.samples ≠ .none), fun _ => (by decide : (2#16) ≠ 0)⟩
  sequencing := ⟨fun _ => ⟨rfl, rfl⟩, hm, fun _ => rfl, nofun, (by decide : 7 ≤ 7 ∧ 7 ≤ 517),
    fun _ => (by decide : 7 < 518), (by decide : 320 ≤ 518 ∧ 518 ≤ 518), (by decide : 0 ≤ 4)⟩
  tracker := ⟨fun _ => (by decide +kernel : sgn 5 = .pos), (by decide +kernel : (0 : Rat) ≤ 0 ∧ (0 : Rat) ≤ 1)⟩
  results := ⟨(by decide : (-1 : Int) ≤ 0 ∧ (0 : Int) ≤ 12), (by decide : (-1 : Int) ≤ 0 ∧ (0 : Int) ≤ 12),
    (by decide : (-128 : Int) ≤ 0 ∧ (0 : Int) ≤ 24), (by decide : 0 ≤ 129)⟩
  output := ⟨Nat.le_refl 0, rfl, rfl, nofun, nofun⟩

/-- The same before any input and without a ratio. -/
def unrated (c : BitVec 8) : State := { State.reset with cfg := c }

theorem unrated_ok (c : BitVec 8) (hc : cfgReserved c = false) : StateOk (unrated c) where
  buffers := ⟨rfl, rfl, rfl, rfl, rfl⟩
  config := ⟨hc, .inl ⟨rfl, rfl, rfl⟩, .inr rfl⟩
  session := ⟨rfl, (by decide : false = true ↔ InMode.none ≠ .none), nofun⟩
  sequencing := ⟨fun _ => ⟨rfl, rfl⟩, nofun, nofun, fun _ => rfl, (by decide : 7 ≤ 7 ∧ 7 ≤ 517), nofun,
    (by decide : 320 ≤ 518 ∧ 518 ≤ 518), (by decide : 0 ≤ 4)⟩
  tracker := ⟨fun h => absurd rfl h, (by decide +kernel : (0 : Rat) ≤ 0 ∧ (0 : Rat) ≤ 1)⟩
  results := ⟨(by decide : (-1 : Int) ≤ 0 ∧ (0 : Int) ≤ 12), (by decide : (-1 : Int) ≤ 0 ∧ (0 : Int) ≤ 12),
    (by decide : (-128 : Int) ≤ 0 ∧ (0 : Int) ≤ 24), (by decide : 0 ≤ 129)⟩
  output := ⟨Nat.le_refl 0, rfl, rfl, nofun, nofun⟩

/-- The state after reset with other flags. -/
def flagged (st : Status) : State := { State.reset with status := st }

/-- The flags after reset. -/
def quiet : Status := State.reset.status

/-- The flags of a session. -/
def inSession (m : InMode) : Status := { quiet with started := true, inmode := m }

/-- The state after reset in a session of frames that is assembling its last byte. -/
def lastByte (c : BitVec 8) : State :=
  { State.reset with cfg := c, syn := { State.reset.syn with
    syncState := .assemble, byteIndex := 517, bitCount := 7 } }

theorem witness_DecodeEncodeAgree : dflt.tagsDistinct = true
    ∧ [Instr.ack, .chkZero 516, .ftmOther 0, .demVar (-32768), .demEmit 0, .synSusp 517, .crcCalc 263 255].all
      Instr.wf = true := by decide +kernel
theorem witness_CommandWordsDecode : (0x15000000#32).extractLsb' 24 8
      ∉ [0x00#8, 0x01#8, 0x02#8, 0x03#8, 0x10#8, 0x11#8, 0x12#8, 0x13#8, 0x14#8, 0x20#8]
    ∧ (0xFFFFFC#24).extractLsb' 0 2 = 0#2 ∧ (0xFFFFFD#24).extractLsb' 0 2 = 1#2
    ∧ (2#24).getLsbD 1 = true := by decide
/-- A state with each kind of item on its port, whose words decode; the last tag position of RF. -/
theorem witness_StepRunsDecoded : State.reset.port.pending = []
    ∧ decode State.reset.par.val (.cmd32 0x20000000) = .ok .ack
    ∧ decode State.reset.par.val (.tag16 516
        (rfByte (holding [(516, 0x7E)]) 516 ++ rfByte (holding [(516, 0x7E)]) (516 + 1))) = .ok (.chkAux 516)
    ∧ decode State.reset.par.val (.ftm8 (rfByte State.reset 56)) = .ok (.ftmOther 0)
    ∧ decode State.reset.par.val (.uop8 0x43 0 0) = .ok .crcScan
    ∧ ∀ p : Pending, ({ State.reset with port := ⟨[p], .none⟩ } : State).port.pending = p :: [] :=
  ⟨rfl, by decide +kernel, by decide +kernel, by decide +kernel, by decide +kernel, fun _ => rfl⟩
theorem witness_NopAndAck : (fun s : State => s.out.rdPtr < s.out.records.length)
      { State.reset with out := ⟨[⟨0, 320, 0, 0, 0, false, 0x0F, []⟩], 0, 1⟩ }
    ∧ State.reset.out.records.length ≤ State.reset.out.rdPtr := ⟨Nat.one_pos, Nat.le_refl 0⟩
theorem witness_ResetKeepsThePort : State.reset.par = Config.defaultP ∧ State.reset.port.pending = [] :=
  ⟨rfl, rfl⟩
theorem witness_CfgwWritesCfg : (flagged (inSession .bits)).status.started = true
    ∧ (flagged quiet).status.started = false ∧ (0x80#8).getLsbD 7 = true ∧ (0x18#8).extractLsb' 3 2 = 3#2
    ∧ (0x77#8).getLsbD 7 = false ∧ (0x77#8).extractLsb' 3 2 ≠ 3#2 := by decide
theorem witness_SpbwWritesRatio : [(5, 0), (1, 2), (257, 1)].all (fun e : BitVec 16 × BitVec 8 =>
      decide (e.2.toNat = 0 ∨ e.1.toNat < e.2.toNat ∨ 256 * e.2.toNat < e.1.toNat)) = true
    ∧ [(1, 1), (256, 1), (65280, 255)].all (fun e : BitVec 16 × BitVec 8 =>
      decide (e.2.toNat ≠ 0 ∧ e.2.toNat ≤ e.1.toNat ∧ e.1.toNat ≤ 256 * e.2.toNat)) = true
    ∧ (flagged quiet).status.started = false ∧ (flagged (inSession .bits)).status.started = true := by decide
theorem witness_WindowIsRounded : (255#8).toNat ≠ 0 ∧ (255#8).toNat ≤ (255#16).toNat
    ∧ (255#8).toNat ≤ (65280#16).toNat ∧ (65280#16).toNat ≤ 256 * (255#8).toNat := by decide
theorem witness_GuardRefuses : decode State.reset.par.val (.cmd32 0x04000000) = .error .illegalOp
    ∧ ({ State.reset with port := ⟨[.command 0x04000000], .none⟩ } : State).port.pending
      = .command 0x04000000 :: []
    ∧ (flagged { quiet with eos := true }).status.eos = true
    ∧ (flagged { quiet with cfgerr := true }).status.cfgerr = true
    ∧ ((flagged (inSession .frames)).status.inmode ≠ .none
      ∧ (flagged (inSession .frames)).status.inmode ≠ .samples
      ∧ (flagged (inSession .frames)).status.inmode ≠ .bits)
    ∧ ((flagged (inSession .bits)).status.inmode ≠ .none
      ∧ (flagged (inSession .bits)).status.inmode ≠ .frames) := by decide
theorem witness_SampleAccepted :
    (StateOk (unrated 0) ∧ (unrated 0).status.eos = false ∧ (unrated 0).status.cfgerr = false
      ∧ (unrated 0).status.inmode = .none ∧ (unrated 0).rate.spbn = 0)
    ∧ (StateOk (demo 4 .int .assemble) ∧ (demo 4 .int .assemble).status.eos = false
      ∧ (demo 4 .int .assemble).status.cfgerr = false ∧ (demo 4 .int .assemble).status.inmode = .samples
      ∧ (demo 4 .int .assemble).rate.spbn ≠ 0) :=
  ⟨⟨unrated_ok 0 (by decide), by decide⟩, ⟨demo_ok 4 .int .assemble (by decide) (by decide), by decide⟩⟩
theorem witness_BitAndFrunAccepted : (lastByte 0).status.eos = false ∧ (lastByte 0).status.cfgerr = false
    ∧ (lastByte 0).status.inmode = .none ∧ (lastByte 0).syn.byteIndex ≤ 517
    ∧ (flagged (inSession .bits)).status.inmode = .bits
    ∧ (flagged (inSession .frames)).status.inmode = .frames := by decide
theorem witness_FloadStoresByte : (flagged (inSession .frames)).status.eos = false
    ∧ (flagged (inSession .frames)).status.cfgerr = false
    ∧ (flagged (inSession .frames)).status.inmode = .frames
    ∧ 517 < (518#10).toNat ∧ (517#10).toNat ≤ 517 ∧ (0#10).toNat ≤ 517 := by decide
theorem witness_EndOfStream : (flagged { quiet with eos := true }).status.eos = true
    ∧ State.reset.status.eos = false := by decide
theorem witness_OutputPortLayout : let r : FrameOut := ⟨2 ^ 32 - 1, 518, -128, 0x7F, 129, true, 0x0F, []⟩
    r.seq < 2 ^ 32 ∧ r.len ≤ 518 ∧ -128 ≤ r.fecStatus ∧ r.fecStatus ≤ 127 := by decide
theorem witness_RunLength : (demo 2 .zc .search).rate.spbn ≠ 0 ∧ (demo 2 .zc .search).rate.spbd ≠ 0
    ∧ cfgPrec (demo 0 .zc .search).cfg = false ∧ cfgPrec (demo 2 .zc .search).cfg = true
    ∧ (-1 : Rat) ≠ (demo 2 .zc .search).dem.yPrev := by decide +kernel
theorem witness_RunLengthBounds : StateOk (demo 2 .zc .search) ∧ (demo 2 .zc .search).rate.spbn ≠ 0
    ∧ (demo 2 .zc .search).dem.runN ≠ 0 ∧ sgn (-1) ≠ (demo 2 .zc .search).dem.runSign
    ∧ ∃ t, exec (.demLen (-1)) (demo 2 .zc .search) = .next t ∧ ∃ l, t.port.ret = .rational l :=
  ⟨demo_ok 2 .zc .search (by decide) nofun, by decide, by decide, by decide +kernel, _, rfl, _, rfl⟩
theorem witness_ZeroCrossingStep : State.reset.dem.runN = 0
    ∧ ((demo 4 .zc .assemble).dem.runN ≠ 0 ∧ sgn 0 = (demo 4 .zc .assemble).dem.runSign)
    ∧ StateOk (demo 4 .zc .assemble) ∧ sgn (-1) ≠ (demo 4 .zc .assemble).dem.runSign :=
  ⟨rfl, by decide +kernel, demo_ok 4 .zc .assemble (by decide) nofun, by decide +kernel⟩
theorem witness_IntegratedBit : (demo 4 .int .assemble).dem.intN * (demo 4 .int .assemble).rate.spbd.toNat
      < (demo 4 .int .assemble).dem.intK * (demo 4 .int .assemble).rate.spbn.toNat
    ∧ (lastByte 4).dem.intK * (lastByte 4).rate.spbn.toNat ≤ (lastByte 4).dem.intN * (lastByte 4).rate.spbd.toNat
    ∧ (lastByte 4).syn.byteIndex ≤ 517 := by decide
theorem witness_IntegrateMode : (lastByte 4).syn.byteIndex ≤ 517 := by decide
theorem witness_VarianceWindowStep :
    ({ rated 256 with dem := { State.reset.dem with vpos := 8191 } } : State).dem.vpos ≤ 8191
    ∧ (rated 256).rate.vwin ≠ 0 := by decide
theorem witness_OneSample : StateOk (unrated 0) ∧ StateOk (demo 0x44 .zc .assemble)
    ∧ StateOk (demo 4 .int .assemble) ∧ (demo 4 .int .assemble).dem.mode = .int :=
  ⟨unrated_ok 0 (by decide), demo_ok 0x44 .zc .assemble (by decide) nofun,
    demo_ok 4 .int .assemble (by decide) (by decide), rfl⟩
theorem witness_VarianceNonnegative : WindowSums (demo 4 .zc .search) where
  inside i h := by
    have : i ≠ 0 := fun e => by subst e; exact absurd h (by decide)
    simp [vringAt, demo, cellsGet, ratReset, this]
  sum := by decide +kernel
  squares := by decide +kernel
theorem witness_BitsDependOnSignsOnly : cfgPrec (demo 0 .zc .search).cfg = false
    ∧ cfgAvg (demo 0 .zc .search).cfg = false ∧ cfgAlt (demo 0 .zc .search).cfg = false
    ∧ (demo 0 .zc .search).dem.mode = .zc ∧ (0 ≤ (0#16).toInt ↔ 0 ≤ (0x7FFF#16).toInt)
    ∧ (0 ≤ (0xFFFF#16).toInt ↔ 0 ≤ (0x8000#16).toInt)
    ∧ (after (exec (.sample 0x8000) (demo 0 .zc .search)) fun s => s.syn.bitCounter) = some 2 := by
  decide +kernel
theorem witness_Correlator : ∃ i : Fin 32, State.reset.syn.corr[i] = .x := ⟨31, by decide⟩
theorem witness_AcceptBit : (lastByte 0).syn.byteIndex ≤ 517 ∧ (lastByte 0).syn.syncState = .assemble
    ∧ (lastByte 0).syn.bitCount.val = 7 ∧ State.reset.syn.syncState = .search
    ∧ (demo 0 .zc .assemble).syn.syncState = .assemble ∧ (demo 0 .zc .assemble).syn.bitCount.val < 7 := by
  decide
theorem witness_PackByte :
    (∃ i : Fin 8, ({ State.reset with syn := { State.reset.syn with
      bitbuf := #v[.one, .one, .one, .one, .one, .one, .one, .x] } } : State).syn.bitbuf[i] = .x)
    ∧ ∀ i : Fin 8, State.reset.syn.bitbuf[i] ≠ .x := ⟨⟨7, by decide⟩, by decide⟩
theorem witness_StoreByte : (lastByte 4).syn.byteIndex ≤ 517 ∧ State.reset.syn.byteIndex ≤ 517 := by decide
theorem witness_MarkerScoreAndDecision : (unrated 8).cfg.extractLsb' 3 2 ≠ 0#2
    ∧ (holding [(56, 0x0F)]).cfg.extractLsb' 3 2 = 0#2
    ∧ rfByte (holding [(56, 0x0F)]) (holding [(56, 0x0F)]).par.val.posFtype = 0x0F#8
    ∧ rfByte (holding [(56, 0xF0)]) (holding [(56, 0xF0)]).par.val.posFtype = 0xF0#8
    ∧ rfByte (holding [(56, 0x0E)]) (holding [(56, 0x0E)]).par.val.posFtype ≠ 0x0F#8
    ∧ rfByte (holding [(56, 0x0E)]) (holding [(56, 0x0E)]).par.val.posFtype ≠ 0xF0#8 := by decide +kernel
theorem witness_MarkerClasses : (unrated 0).cfg.extractLsb' 3 2 = 0#2
    ∧ (unrated 0x10).cfg.extractLsb' 3 2 ≠ 0#2 := by decide
/-- A suspect byte at the first index that can be judged, and one below it. -/
theorem witness_SuspectLogic : cfgAlt (unrated 0).cfg = false ∧ cfgAlt (unrated 4).cfg = true
    ∧ (after (exec (.synSusp 320) { demo 4 .zc .assemble with
        syn := { State.reset.syn with varHist := [(20, 1)] } })
      fun t => (decide (3 * varHistAt t (320 - 300) < 2 * varHistAt t 320), t.syn.suspectRun)) = some (true, 1)
    ∧ (after (exec (.synSusp 319) (demo 4 .zc .assemble)) fun t => t.syn.suspectRun) = some 0 := by
  decide +kernel
theorem witness_ScatterCodeword : (0 = match CwSel.cw1 with | .cw1 => 0 | .cw2 => 1)
    ∧ (1 = match CwSel.cw2 with | .cw1 => 0 | .cw2 => 1) := ⟨rfl, rfl⟩
theorem witness_DecodeCodeword : (∃ w e, eccZero State.reset.status.eccReady
      (Vector.ofFn fun i => cwByte .cw1 State.reset i.val) = .corrected w e)
    ∧ eccNever State.reset.status.eccReady (Vector.ofFn fun i => cwByte .cw2 State.reset i.val) = .failure :=
  ⟨⟨_, _, rfl⟩, rfl⟩
/-- Both codewords fail with RETRY set, and without it. -/
theorem witness_CorrectFrame : cfgRetry (unrated 0x20).cfg = true ∧ cfgRetry (unrated 0).cfg = false
    ∧ (fecPass eccNever (fecPad 518 (unrated 0x20))).ok1 = false
    ∧ (fecPass eccNever (fecPad 518 (unrated 0x20))).ok2 = false
    ∧ (fecPass eccZero (fecPad 518 (unrated 0x20))).ok1 = true := by decide +kernel
/-- A frame with twelve errors in codeword 1 and none in codeword 2, for the zero codewords. -/
def twelve : State := holding ((List.range 12).map fun i => (60 + 2 * i, 1))

theorem eccZero_contract : EccContract (· = Vector.replicate 255 0) eccZero := by
  intro c w hc hd
  subst hc
  rfl

theorem witness_CorrectionRestoresFrame : EccContract (· = Vector.replicate 255 0) eccZero
    ∧ twelve.status.eccReady = true ∧ ∃ p g, exec (.fecPad (min 320 518)) twelve = .next p
      ∧ exec .fecGather p = .next g
      ∧ Codeword.distance (cwWord .cw1 g) (Vector.replicate 255 0) = 12
      ∧ Codeword.distance (cwWord .cw2 g) (Vector.replicate 255 0) = 0 :=
  ⟨eccZero_contract, rfl, fecPad (min 320 518) twelve, fecGather (fecPad (min 320 518) twelve),
    by simp only [exec, execFecPad], by simp only [exec, execFecGather], by decide +kernel, by decide +kernel⟩
theorem witness_CrcOfRange : 255 ≤ 255 ∧ 263 + 255 ≤ 518 ∧ 0 ≤ 255 ∧ 518 + 0 ≤ 518 := by decide
theorem witness_CrcCheckResult : (518 ≤ 518 ∨ rfByte State.reset 518 ≠ 0)
    ∧ rfByte State.reset 57 ≠ 0x79 ∧ (515 < 518 ∧ rfByte State.reset 515 = 0 ∧ 518 < 515 + 4)
    ∧ (514 + 4 ≤ 518 ∧ rfByte State.reset 514 = 0
      ∧ 514 + (rfByte State.reset (514 + 1)).toNat + 4 ≤ 518)
    ∧ (514 + 4 ≤ 518 ∧ rfByte (holding [(515, 1)]) 514 = 0
      ∧ 518 < 514 + (rfByte (holding [(515, 1)]) (514 + 1)).toNat + 4) := by decide +kernel
theorem witness_AuxBlockCheck : ¬(518 < 518 ∧ rfByte State.reset 518 = State.reset.par.val.tagAuxHi)
    ∧ rfByte State.reset 299 ≠ State.reset.par.val.tagAuxHi
    ∧ 517 < 518 ∧ rfByte (holding [(517, 0x7E)]) 517 = State.reset.par.val.tagAuxHi := by decide +kernel
/-- A state with a command word on its port. -/
theorem witness_EveryCommandKeepsInvariant : ∃ s, commandsOnly s ∧ StateOk s ∧ s.port.pending ≠ [] := by
  have k := demo_ok 4 .int .assemble (by decide) (by decide)
  refine ⟨{ demo 4 .int .assemble with port := ⟨[.command 0x10000005], .none⟩ }, rfl, ?_, nofun⟩
  exact ⟨⟨k.buffers.rf, k.buffers.cw1, k.buffers.cw2, k.buffers.vring, k.buffers.varHist⟩,
    ⟨k.config.cfg, k.config.rate, k.config.vpos⟩, ⟨k.session.ready, k.session.started, k.session.samples⟩,
    ⟨k.sequencing.search, k.sequencing.integrate, k.sequencing.integrateSamples, k.sequencing.idle,
      k.sequencing.index, k.sequencing.below, k.sequencing.target, k.sequencing.suspect⟩,
    ⟨k.tracker.sign, k.tracker.x0⟩, ⟨k.results.err1, k.results.err2, k.results.status, k.results.aux⟩,
    ⟨k.output.ptr, k.output.count, k.output.seqs, k.output.complete, k.output.status⟩⟩
theorem witness_EveryStepKeepsBuffers : BuffersWf (demo 4 .zc .search)
    ∧ step (demo 4 .zc .search) = .next (demo 4 .zc .search) :=
  ⟨(demo_ok 4 .zc .search (by decide) nofun).buffers, rfl⟩
theorem witness_WindowSumsKept : commandsOnly (demo 4 .zc .search) ∧ StateOk (demo 4 .zc .search)
    ∧ WindowSums (demo 4 .zc .search) ∧ step (demo 4 .zc .search) = .next (demo 4 .zc .search) :=
  ⟨rfl, demo_ok 4 .zc .search (by decide) nofun, witness_VarianceNonnegative, rfl⟩
/-- A started session, a command that is no reset and answers a next state. -/
theorem witness_ConfigurationLocked : (demo 4 .zc .search).status.started = true
    ∧ (demo 4 .zc .search).status.inmode ≠ .none ∧ Instr.cfgw 0 ≠ .reset
    ∧ (after (exec (.cfgw 0) (demo 4 .zc .search)) (·.cfg)) = some 4 := by decide +kernel
theorem witness_StickyFlagsStay : Instr.eos ≠ .reset
    ∧ (flagged ⟨false, true, true, true, .none, true⟩).status.cmderr = true
    ∧ (after (exec .eos (flagged ⟨false, true, true, true, .none, true⟩)) (·.status))
      = some ⟨false, true, true, true, .none, true⟩ := by decide +kernel
theorem witness_OutputAppendOnly : Instr.nop ≠ .reset ∧ exec .nop State.reset = .next State.reset :=
  ⟨by decide, rfl⟩
theorem witness_OutsideIndexFaults :
    8192 ≤ ({ State.reset with dem := { State.reset.dem with vpos := 8192 } } : State).dem.vpos
    ∧ cfgAlt (unrated 4).cfg = true ∧ 518 ≤ 518
    ∧ 518 ≤ ({ State.reset with syn := { State.reset.syn with byteIndex := 518 } } : State).syn.byteIndex
    ∧ (1 ≠ 0 ∧ 518 < 518 + 1) ∧ 518 < 263 + 256 := by decide

end Sys2Proof.Tests
end

namespace Sys2Proof.Machine

/-! ## The window length (10_state.md R22, 46_arithmetic_and_sequencing.md R282) -/

/-- The integer formula of SPBW is the rational one rounded half up. -/
theorem windowLength_eq_floor (n : BitVec 16) (d : BitVec 8) (hd : d.toNat ≠ 0) :
    ((windowLength n d : Nat) : Int) = Int.floor ((32 : Rat) * (n.toNat / d.toNat) + 1 / 2) := by
  have hq : (32 : Rat) * (n.toNat / d.toNat) + 1 / 2
      = ((2 * 32 * n.toNat + d.toNat : Nat) : Rat) / ((2 * d.toNat : Nat) : Rat) := by
    push_cast
    field_simp
    ring
  rw [hq, Rat.floor_natCast_div_natCast]
  rfl

/-- The window of a legal ratio holds 32 to 8192 samples. -/
theorem windowLength_bounds (n : BitVec 16) (d : BitVec 8) (hd : d.toNat ≠ 0)
    (hlo : d.toNat ≤ n.toNat) (hhi : n.toNat ≤ 256 * d.toNat) :
    32 ≤ windowLength n d ∧ windowLength n d ≤ 8192 := by
  have hpos : 0 < 2 * d.toNat := by omega
  refine ⟨(Nat.le_div_iff_mul_le hpos).mpr ?_, Nat.le_of_lt_succ ((Nat.div_lt_iff_lt_mul hpos).mpr ?_)⟩
  · show 32 * (2 * d.toNat) ≤ 2 * 32 * n.toNat + d.toNat
    omega
  · show 2 * 32 * n.toNat + d.toNat < (8192 + 1) * (2 * d.toNat)
    omega

/-- When SPBW accepts a ratio (30_encoding.md R98 (c)). -/
theorem ratioIllegal_eq_false (n : BitVec 16) (d : BitVec 8) :
    ratioIllegal n d = false ↔ d.toNat ≠ 0 ∧ d.toNat ≤ n.toNat ∧ n.toNat ≤ 256 * d.toNat := by
  simp [ratioIllegal, and_assoc]

/-- Settles O10: the formula is the rounded quotient, and its bounds are those of the ratio. -/
theorem windowIsRounded : Obligations.WindowIsRounded := fun n d hd hlo hhi =>
  ⟨windowLength_eq_floor n d hd, windowLength_bounds n d hd hlo hhi⟩

/-! ## The reset state (10_state.md R42) -/

/-- The reset sequence leaves the state after reset for the parameter record and the words it found. -/
theorem resetSequence_eq (s : State) :
    resetSequence s = State.atReset s.par true s.port.pending := rfl

/-- A header byte of RF after reset, bit by bit: the reference pattern's, eight to a byte, xor MASK. -/
theorem hdrInit_getLsbD (P : Params) (i : Nat) {j : Nat} (hj : j < 8) :
    (hdrInit P i).getLsbD j = ((P.refpat.getLsbD (8 * i + j)) ^^ (maskAt P i).getLsbD j) := by
  simp [hdrInit, refbyte, hj]

/-- Below FRAMESTART the reset state's RF holds the header bytes. -/
theorem rfByte_atReset_header (P : Parameters) (r : Bool) (l : List Pending) {i : Nat}
    (hi : i < P.val.framestart) : rfByte (State.atReset P r l) i = hdrInit P.val i := if_pos hi

/-- From FRAMESTART on the reset state's RF holds zeros. -/
theorem rfByte_atReset_body (P : Parameters) (r : Bool) (l : List Pending) {i : Nat}
    (hi : P.val.framestart ≤ i) : rfByte (State.atReset P r l) i = 0 := if_neg (Nat.not_lt.mpr hi)

/-- Both codeword buffers hold zeros after reset. -/
theorem cwByte_atReset (k : CwSel) (P : Parameters) (r : Bool) (l : List Pending) (i : Nat) :
    cwByte k (State.atReset P r l) i = 0 := by cases k <;> rfl

/-- Settles O6: every entry of the table is a field of the reset state or a read of one of its buffers. -/
theorem resetSetsTheTable : Obligations.ResetSetsTheTable := by
  intro s
  refine ⟨State.atReset s.par true s.port.pending, rfl, rfl, rfl, rfl, fun i => ?avgRing,
    ⟨rfl, rfl, rfl, rfl, rfl⟩, ⟨rfl, rfl, rfl⟩, ⟨fun _ => rfl, rfl, rfl, rfl⟩, ⟨rfl, rfl, rfl⟩,
    fun i => ?corr, rfl, fun i => ?bitbuf, rfl, rfl, rfl, rfl, fun _ => rfl, fun i hi j hj => ?header,
    fun i hi => ?body, fun k i => ?codewords, ⟨rfl, rfl, rfl, rfl⟩, rfl, rfl, rfl⟩
  case avgRing => exact Vector.getElem_replicate i.isLt
  case corr => exact Vector.getElem_replicate i.isLt
  case bitbuf => exact Vector.getElem_replicate i.isLt
  case header => rw [rfByte_atReset_header s.par _ _ hi, hdrInit_getLsbD s.par.val i hj]
  case body => exact rfByte_atReset_body s.par _ _ hi
  case codewords => exact cwByte_atReset k s.par _ _ i

/-- Settles O7: the reset state carries the record and the waiting words it was given. -/
theorem resetKeepsThePort : Obligations.ResetKeepsThePort := by
  intro s
  refine ⟨State.atReset s.par true s.port.pending, rfl, rfl, rfl, fun hpar hport => ?_⟩
  rw [hpar, hport]
  rfl

/-- The reset state keeps the invariant, whatever the record and the waiting words. -/
theorem atReset_ok (P : Parameters) (l : List Pending) : StateOk (State.atReset P true l) where
  buffers := reset_buffersWf P true l
  config := ⟨(by decide : cfgReserved 0x00#8 = false), .inl ⟨rfl, rfl, rfl⟩, .inr rfl⟩
  session := ⟨rfl, ⟨nofun, fun h => absurd rfl h⟩, nofun⟩
  sequencing := ⟨fun _ => ⟨rfl, rfl⟩, nofun, nofun, fun _ => rfl,
    ⟨Nat.le_refl _, Nat.le_trans (framestart_of_wf P) (by decide)⟩, nofun,
    (by decide : 320 ≤ 518 ∧ 518 ≤ 518), Nat.zero_le _⟩
  tracker := ⟨fun h => absurd rfl h, le_refl _, zero_le_one⟩
  results := ⟨(by decide : (-1 : Int) ≤ 0 ∧ (0 : Int) ≤ 12), (by decide : (-1 : Int) ≤ 0 ∧ (0 : Int) ≤ 12),
    (by decide : (-128 : Int) ≤ 0 ∧ (0 : Int) ≤ 24), Nat.zero_le _⟩
  output := ⟨Nat.le_refl _, rfl, rfl, nofun, nofun⟩

/-- A variance window without a ratio, as after reset, is empty and its sums are 0. -/
theorem atReset_windowSums (P : Parameters) (r : Bool) (l : List Pending) :
    WindowSums (State.atReset P r l) := ⟨fun _ _ => rfl, rfl, rfl⟩

/-- Settles O53: the default record is one record, and no word waits. -/
theorem resetKeepsInvariant : Obligations.ResetKeepsInvariant :=
  ⟨atReset_ok _ _, atReset_windowSums _ _ _, rfl⟩

end Sys2Proof.Machine

namespace Sys2Proof.Machine

/-! ## Fields of a concatenation -/

/-- Reading above the low part of a concatenation reads the high part. -/
theorem extract_high {v w : Nat} (start len : Nat) (hi : BitVec v) (lo : BitVec w) :
    (hi ++ lo).extractLsb' (w + start) len = hi.extractLsb' start len := by
  rw [BitVec.extractLsb'_append_eq_of_le (Nat.le_add_right w start), Nat.add_sub_cancel_left]

/-- A one-bit field that holds a Boolean, read as a bit. -/
theorem getLsbD_of_extract {n i : Nat} {w : BitVec n} {b : Bool}
    (h : w.extractLsb' i 1 = BitVec.ofBool b) : w.getLsbD i = b := by
  have h0 := congrArg (fun v => v.getLsbD 0) h
  simpa [BitVec.getLsbD_extractLsb'] using h0

/-! ## The record header (30_encoding.md R107) -/

section
variable (r : FrameOut)

theorem headerWord_seq : (headerWord r).extractLsb' 32 32 = BitVec.ofNat 32 r.seq :=
  (extract_high 22 32 _ _).trans <| (extract_high 21 32 _ _).trans <| (extract_high 16 32 _ _).trans <|
    (extract_high 8 32 _ _).trans <| (extract_high 1 32 _ _).trans <| (extract_high 0 32 _ _).trans <|
    BitVec.extractLsb'_eq_self

theorem headerWord_valid : (headerWord r).extractLsb' 31 1 = 1#1 :=
  (extract_high 21 1 _ _).trans <| (extract_high 20 1 _ _).trans <| (extract_high 15 1 _ _).trans <|
    (extract_high 7 1 _ _).trans <| (extract_high 0 1 _ _).trans <| BitVec.extractLsb'_append_eq_right

theorem headerWord_crcMask : (headerWord r).extractLsb' 24 7 = r.crcMask :=
  (extract_high 14 7 _ _).trans <| (extract_high 13 7 _ _).trans <| (extract_high 8 7 _ _).trans <|
    (extract_high 0 7 _ _).trans <| BitVec.extractLsb'_append_eq_right

theorem headerWord_fecStatus : (headerWord r).extractLsb' 16 8 = BitVec.ofInt 8 r.fecStatus :=
  (extract_high 6 8 _ _).trans <| (extract_high 5 8 _ _).trans <| (extract_high 0 8 _ _).trans <|
    BitVec.extractLsb'_append_eq_right

theorem headerWord_auxCount : (headerWord r).extractLsb' 11 5 = BitVec.ofNat 5 (min r.auxCount 31) :=
  (extract_high 1 5 _ _).trans <| (extract_high 0 5 _ _).trans <| BitVec.extractLsb'_append_eq_right

theorem headerWord_retried : (headerWord r).extractLsb' 10 1 = BitVec.ofBool r.retried :=
  (extract_high 0 1 _ _).trans <| BitVec.extractLsb'_append_eq_right

theorem headerWord_len : (headerWord r).extractLsb' 0 10 = BitVec.ofNat 10 r.len := BitVec.extractLsb'_append_eq_right
end

/-! ## The STATUS register (10_state.md R23) -/

section
variable (s : State)

theorem statusWord_started : (statusWord s).extractLsb' 0 1 = BitVec.ofBool s.status.started :=
  BitVec.extractLsb'_append_eq_right

theorem statusWord_eos : (statusWord s).extractLsb' 1 1 = BitVec.ofBool s.status.eos :=
  (extract_high 0 1 _ _).trans <| BitVec.extractLsb'_append_eq_right

theorem statusWord_cmderr : (statusWord s).extractLsb' 2 1 = BitVec.ofBool s.status.cmderr :=
  (extract_high 1 1 _ _).trans <| (extract_high 0 1 _ _).trans <| BitVec.extractLsb'_append_eq_right

theorem statusWord_cfgerr : (statusWord s).extractLsb' 3 1 = BitVec.ofBool s.status.cfgerr :=
  (extract_high 2 1 _ _).trans <| (extract_high 1 1 _ _).trans <| (extract_high 0 1 _ _).trans <|
    BitVec.extractLsb'_append_eq_right

theorem statusWord_inmode : (statusWord s).extractLsb' 4 2 = inModeField s.status.inmode :=
  (extract_high 3 2 _ _).trans <| (extract_high 2 2 _ _).trans <| (extract_high 1 2 _ _).trans <|
    (extract_high 0 2 _ _).trans <| BitVec.extractLsb'_append_eq_right

theorem statusWord_eccReady : (statusWord s).extractLsb' 6 1 = BitVec.ofBool s.status.eccReady :=
  (extract_high 5 1 _ _).trans <| (extract_high 4 1 _ _).trans <| (extract_high 3 1 _ _).trans <|
    (extract_high 2 1 _ _).trans <| (extract_high 0 1 _ _).trans <| BitVec.extractLsb'_append_eq_right

theorem statusWord_sync : (statusWord s).extractLsb' 7 1 = BitVec.ofBool (statusSync s) :=
  (extract_high 6 1 _ _).trans <| (extract_high 5 1 _ _).trans <| (extract_high 4 1 _ _).trans <|
    (extract_high 3 1 _ _).trans <| (extract_high 1 1 _ _).trans <| (extract_high 0 1 _ _).trans <|
    BitVec.extractLsb'_append_eq_right

theorem statusWord_outValid : (statusWord s).extractLsb' 8 1 = BitVec.ofBool (statusOutValid s) :=
  (extract_high 7 1 _ _).trans <| (extract_high 6 1 _ _).trans <| (extract_high 5 1 _ _).trans <|
    (extract_high 4 1 _ _).trans <| (extract_high 2 1 _ _).trans <| (extract_high 1 1 _ _).trans <|
    (extract_high 0 1 _ _).trans BitVec.extractLsb'_eq_self

end

/-- A natural read back from a field it fits. -/
theorem toNat_ofNat_field {w n : Nat} (h : n < 2 ^ w) : (BitVec.ofNat w n).toNat = n := by
  rw [BitVec.toNat_ofNat, Nat.mod_eq_of_lt h]

/-- Settles O16: each field of the two words is read back from its place. -/
theorem outputPortLayout : Obligations.OutputPortLayout := by
  refine ⟨fun s => ⟨?_, ?_, ?_, ?_, ?_, ?_, ?_, ?_⟩, fun r hseq hlen hlo hhi => ⟨?_, ?_, ?_, ?_, ?_, ?_, ?_⟩⟩
  · exact getLsbD_of_extract (statusWord_started s)
  · exact getLsbD_of_extract (statusWord_eos s)
  · exact getLsbD_of_extract (statusWord_cmderr s)
  · exact getLsbD_of_extract (statusWord_cfgerr s)
  · rw [statusWord_inmode]
    cases s.status.inmode <;> rfl
  · exact getLsbD_of_extract (statusWord_eccReady s)
  · rw [getLsbD_of_extract (statusWord_sync s), statusSync, decide_eq_true_eq]
  · rw [getLsbD_of_extract (statusWord_outValid s), statusOutValid, decide_eq_true_eq]
  · rw [headerWord_seq, toNat_ofNat_field hseq]
  · exact getLsbD_of_extract (b := true) (headerWord_valid r)
  · exact headerWord_crcMask r
  · rw [headerWord_fecStatus, BitVec.toInt_ofInt_eq_self (by decide) hlo (by omega)]
  · rw [headerWord_auxCount, toNat_ofNat_field (by omega)]
  · exact getLsbD_of_extract (headerWord_retried r)
  · rw [headerWord_len, toNat_ofNat_field (by omega)]

end Sys2Proof.Machine

namespace Sys2Proof.Machine

/-! ## The variance window (10_state.md R28, 41_demodulator.md R152, R153) -/

/-- The registers of the variance window. -/
structure Window where
  vwin : Nat
  vring : Cells Rat
  vpos : Nat
  vs1 : Rat
  vs2 : Rat

/-- The variance window of a state. -/
def window (s : State) : Window := ⟨s.rate.vwin, s.dem.vring, s.dem.vpos, s.dem.vs1, s.dem.vs2⟩

/-- The sums of the window are a matter of the window's registers alone. -/
theorem WindowSums_congr {s t : State} (e : window t = window s) (h : WindowSums s) :
    WindowSums t := by
  obtain ⟨inside, sum, squares⟩ := h
  injection e with ew er _ e1 e2
  have ea : vringAt t = vringAt s := by
    funext i
    rw [vringAt, vringAt, er]
  exact ⟨by rw [ew, ea]; exact inside, by rw [ew, ea, e1]; exact sum,
    by rw [ew, ea, e2]; exact squares⟩

/-- An emptied window has the sums 0. -/
theorem WindowSums_empty {s : State} (hr : s.dem.vring = []) (h1 : s.dem.vs1 = 0)
    (h2 : s.dem.vs2 = 0) : WindowSums s := by
  have ha : vringAt s = fun _ => 0 := by
    funext i
    rw [vringAt, hr]
    rfl
  exact ⟨fun i _ => congrFun ha i, by simp [ha, h1], by simp [ha, h2]⟩

/-- Replacing one term of a sum adds the new one and takes the old one away. -/
theorem sum_range_update (f : Nat → Rat) {n k : Nat} (hk : k < n) (v : Rat) :
    ((List.range n).map (Function.update f k v)).sum = ((List.range n).map f).sum + v - f k := by
  show ∑ i ∈ Finset.range n, Function.update f k v i = ∑ i ∈ Finset.range n, f i + v - f k
  have hm : k ∈ Finset.range n := Finset.mem_range.mpr hk
  rw [Finset.sum_update_of_mem hm, Finset.sum_eq_add_sum_sdiff_singleton_of_mem hm f]
  ring

/-- DEM.VAR replaces the entry at VPOS, in VRING and in both sums. -/
theorem demVar_windowSums {y : Rat} {s t : State} (hp : s.dem.vpos < s.rate.vwin)
    (h : WindowSums s) (ht : demVar y s = .ok t) : WindowSums t := by
  unfold demVar at ht
  split_ifs at ht
  injection ht with ht
  have hw : t.rate.vwin = s.rate.vwin := by rw [← ht]; rfl
  have ha : vringAt t = Function.update (vringAt s) s.dem.vpos y := by
    funext i
    rw [← ht, Function.update_apply]
    exact cellsGet_set ratReset s.dem.vring s.dem.vpos y i
  have hsq : (fun i => vringAt t i * vringAt t i)
      = Function.update (fun i => vringAt s i * vringAt s i) s.dem.vpos (y * y) := by
    rw [ha]
    exact Function.comp_update (fun x : Rat => x * x) (vringAt s) s.dem.vpos y
  refine ⟨fun i hi => ?_, ?_, ?_⟩
  · rw [hw] at hi
    rw [ha, Function.update_of_ne (by omega)]
    exact h.inside i hi
  · rw [hw, ha, sum_range_update _ hp, ← h.sum, ← ht]
    rfl
  · rw [hw, hsq, sum_range_update _ hp, ← h.squares, ← ht]
    rfl

/-! ## What the demodulator keeps from any state -/

/-- What a run of bits and the demodulator's mode changes keep: all a sample keeps, and the variance window. -/
structure DemStep (s t : State) : Prop extends SampleStep s t where
  window : window t = window s

theorem DemStep_refl (s : State) : DemStep s s := ⟨SampleStep_refl s, rfl⟩

theorem DemStep_trans {s t u : State} (h : DemStep s t) (g : DemStep t u) : DemStep s u :=
  ⟨SampleStep_trans h.toSampleStep g.toSampleStep, g.window.trans h.window⟩

theorem DemStep_of_stream {s t : State} (h : StreamStep s t) : DemStep s t :=
  ⟨SampleStep_of_stream h, by rw [Machine.window, h.rate, h.dem]; rfl⟩

/-- An update of the demodulator that leaves the variance window alone. -/
theorem withDem_demStep {s : State} {d : Dem} (h : window (s.withDem d) = window s) :
    DemStep s (s.withDem d) :=
  ⟨withDem_step s d (congrArg Window.vring h), h⟩

theorem demLeaveint_demStep (y : Rat) (s : State) : DemStep s (demLeaveint y s) := withDem_demStep rfl

theorem startRun_demStep (y : Rat) (s : State) : DemStep s (startRun y s) := withDem_demStep rfl

theorem extendRun_demStep (y : Rat) (s : State) : DemStep s (extendRun y s) := withDem_demStep rfl

/-- DEM.LEN moves at most X0. -/
theorem demLen_demStep (y : Rat) (s : State) : DemStep s (demLen y s).st := by
  unfold demLen
  split
  · exact withDem_demStep rfl
  · exact DemStep_refl s

theorem demEos_demStep (s : State) : DemStep s (demEos s) := withDem_demStep rfl

theorem demAvg_demStep (raw : BitVec 16) (s : State) : DemStep s (demAvg raw s).st :=
  withDem_demStep rfl

/-- The filter moves at most AVG_RING. -/
theorem filterSample_demStep (raw : BitVec 16) (s : State) : DemStep s (filterSample raw s).st := by
  unfold filterSample
  split
  · exact demAvg_demStep raw s
  · exact DemStep_refl s

theorem demIntchk_demStep {ecc : Ecc} {y : Rat} {s t : State} (h : demIntchk ecc y s = .ok t) :
    DemStep s t := by
  unfold demIntchk at h
  split at h
  · obtain ⟨u, hu, h⟩ := (andThen_eq_ok _ _ _).mp h
    injection h with h
    have g : DemStep s u :=
      DemStep_trans (withDem_demStep (d := { s.dem with intSum := 0, intK := s.dem.intK + 1 }) rfl)
        (DemStep_of_stream (synBit_step ecc _ _ u hu))
    rw [← h]
    split
    · exact DemStep_trans g (demLeaveint_demStep y u)
    · exact g
  · injection h with h
    exact h ▸ DemStep_refl s

theorem demEnterint_demStep {ecc : Ecc} {y : Rat} {s t : State} (h : demEnterint ecc y s = .ok t) :
    DemStep s t :=
  DemStep_trans (withDem_demStep (d := { s.dem with mode := .int, intSum := y, intN := 1, intK := 1 }) rfl)
    (demIntchk_demStep h)

theorem demInt_demStep {ecc : Ecc} {y : Rat} {s t : State} (h : demInt ecc y s = .ok t) :
    DemStep s t :=
  DemStep_trans
    (withDem_demStep (d := { s.dem with intSum := s.dem.intSum + y, intN := s.dem.intN + 1 }) rfl)
    (demIntchk_demStep h)

theorem endRun_demStep {ecc : Ecc} {y : Rat} {s t : State} (h : endRun ecc y s = .ok t) :
    DemStep s t := by
  obtain ⟨u, hu, h⟩ := (andThen_eq_ok _ _ _).mp h
  have g : DemStep s u := DemStep_trans
    (DemStep_trans (demLen_demStep y s) (startRun_demStep y _)) (DemStep_of_stream (synBits_step ecc _ _ _ u hu))
  split at h
  · exact DemStep_trans g (demEnterint_demStep h)
  · injection h with h
    exact h ▸ g

theorem demZc_demStep {ecc : Ecc} {y : Rat} {s t : State} (h : demZc ecc y s = .ok t) :
    DemStep s t := by
  unfold demZc at h
  split_ifs at h
  · injection h with h
    exact h ▸ startRun_demStep y s
  · injection h with h
    exact h ▸ extendRun_demStep y s
  · exact endRun_demStep h

/-- A sample in three parts: the filter and the count, the variance tracker, the mode's own work. Only the tracker
writes the variance window. -/
theorem demSample_parts {ecc : Ecc} {raw : BitVec 16} {s t : State}
    (h : demSample ecc raw s = .ok t) :
    ∃ u v y, DemStep s u ∧ trackVariance y u = .ok v ∧ DemStep v t := by
  obtain ⟨v, hv, h⟩ := (andThen_eq_ok _ _ _).mp h
  have hf := filterSample_demStep raw s
  generalize filterSample raw s = f at hf hv h
  refine ⟨_, v, f.y, DemStep_trans hf
    (withDem_demStep (d := { f.st.dem with sampleCount := f.st.dem.sampleCount + 1 }) rfl), hv, ?_⟩
  split at h
  · exact demZc_demStep h
  · exact demInt_demStep h

/-- What DEM.VAR can do where it does not stop. -/
theorem demVar_sampleStep {y : Rat} {s t : State} (h : demVar y s = .ok t) : SampleStep s t := by
  unfold demVar at h
  split_ifs at h with hv
  injection h with h
  rw [← h]
  exact ⟨rfl, rfl, rfl, rfl, rfl, ⟨[], by simp, RecordsFrom_nil _⟩,
    fun w => ⟨w.rf, w.cw1, w.cw2, cellsWf_set _ _ _ _ _ hv w.vring, w.varHist⟩,
    fun w => ⟨w.err1, w.err2, w.status, w.aux⟩⟩

theorem trackVariance_sampleStep {y : Rat} {s t : State} (h : trackVariance y s = .ok t) :
    SampleStep s t := by
  unfold trackVariance at h
  split at h
  · exact demVar_sampleStep h
  · injection h with h
    exact h ▸ SampleStep_refl s

/-- What DEM.SAMPLE can do where it does not stop, from any state. -/
theorem demSample_sampleStep {ecc : Ecc} {raw : BitVec 16} {s t : State}
    (h : demSample ecc raw s = .ok t) : SampleStep s t := by
  obtain ⟨u, v, y, hu, hv, ht⟩ := demSample_parts h
  exact SampleStep_trans hu.toSampleStep
    (SampleStep_trans (trackVariance_sampleStep hv) ht.toSampleStep)

/-- A sample taken at a position inside the window keeps the window's sums. -/
theorem demSample_windowSums {ecc : Ecc} {raw : BitVec 16} {s t : State}
    (hp : s.dem.vpos < s.rate.vwin) (h : WindowSums s) (ht : demSample ecc raw s = .ok t) :
    WindowSums t := by
  obtain ⟨u, v, y, hu, hv, ht⟩ := demSample_parts ht
  have hwu := WindowSums_congr hu.window h
  have hpu : u.dem.vpos < u.rate.vwin := by
    have ep : u.dem.vpos = s.dem.vpos := congrArg Window.vpos hu.window
    have ew : u.rate.vwin = s.rate.vwin := congrArg Window.vwin hu.window
    omega
  refine WindowSums_congr ht.window ?_
  unfold trackVariance at hv
  split at hv
  · exact demVar_windowSums hpu hwu hv
  · injection hv with hv
    exact hv ▸ hwu

end Sys2Proof.Machine

namespace Sys2Proof.Machine

/-! ## The invariant under updates of one unit -/

/-- The model's own port is in no part of the invariant. -/
theorem StateOk_withPort {s : State} (h : StateOk s) (p : Port) : StateOk (s.withPort p) :=
  let ⟨b, c, n, q, t, r, o⟩ := h
  ⟨⟨b.rf, b.cw1, b.cw2, b.vring, b.varHist⟩, ⟨c.cfg, c.rate, c.vpos⟩,
    ⟨n.ready, n.started, n.samples⟩,
    ⟨q.search, q.integrate, q.integrateSamples, q.idle, q.index, q.below, q.target, q.suspect⟩,
    ⟨t.sign, t.x0⟩, ⟨r.err1, r.err2, r.status, r.aux⟩, ⟨o.ptr, o.count, o.seqs, o.complete, o.status⟩⟩

/-- The invariant speaks of the session's flags only: whether it has started, its mode, and ECC_READY. -/
theorem StateOk_withStatus {s : State} (h : StateOk s) {u : Status}
    (hs : u.started = s.status.started) (hm : u.inmode = s.status.inmode)
    (he : u.eccReady = s.status.eccReady) : StateOk (s.withStatus u) := by
  obtain ⟨b, c, n, q, t, r, o⟩ := h
  refine ⟨⟨b.rf, b.cw1, b.cw2, b.vring, b.varHist⟩, ⟨c.cfg, c.rate, c.vpos⟩, ⟨?_, ?_, ?_⟩,
    ⟨q.search, q.integrate, ?_, ?_, q.index, q.below, q.target, q.suspect⟩,
    ⟨t.sign, t.x0⟩, ⟨r.err1, r.err2, r.status, r.aux⟩, ⟨o.ptr, o.count, o.seqs, o.complete, o.status⟩⟩
  · exact he.trans n.ready
  · rw [State.withStatus_status, hs, hm]
    exact n.started
  · rw [State.withStatus_status, hm]
    exact n.samples
  · rw [State.withStatus_status, hm]
    exact q.integrateSamples
  · rw [State.withStatus_status, hm]
    exact q.idle

theorem StateOk_refuse {s : State} (h : StateOk s) (f : StickyFlag) : StateOk (refuse f s) := by
  cases f with
  | cmderr => exact StateOk_withStatus h rfl rfl rfl
  | cfgerr => exact StateOk_withStatus h rfl rfl rfl

/-- Before the session starts no frame is being assembled and the demodulator is not integrating. -/
theorem idle_of_not_started {s : State} (h : StateOk s) (hs : s.status.started = false) :
    s.status.inmode = .none ∧ s.dem.mode ≠ .int := by
  have hm : s.status.inmode = .none := by
    by_contra hne
    exact absurd (h.session.started.mpr hne) (by simp [hs])
  refine ⟨hm, fun hi => ?_⟩
  have := h.sequencing.integrateSamples hi
  rw [hm] at this
  cases this

/-- CFGW writes no reserved value, and only before the session starts. -/
theorem StateOk_withCfg {s : State} (h : StateOk s) (hs : s.status.started = false) {c : BitVec 8}
    (hc : cfgReserved c = false) : StateOk (s.withCfg c) := by
  obtain ⟨_, hmode⟩ := idle_of_not_started h hs
  obtain ⟨b, g, n, q, t, r, o⟩ := h
  exact ⟨⟨b.rf, b.cw1, b.cw2, b.vring, b.varHist⟩, ⟨hc, g.rate, g.vpos⟩,
    ⟨n.ready, n.started, n.samples⟩,
    ⟨q.search, fun hi => absurd hi hmode, q.integrateSamples, q.idle, q.index, q.below, q.target, q.suspect⟩,
    ⟨t.sign, t.x0⟩, ⟨r.err1, r.err2, r.status, r.aux⟩, ⟨o.ptr, o.count, o.seqs, o.complete, o.status⟩⟩

/-- SPBW writes a legal ratio with its window, and only before the session starts. -/
theorem StateOk_writeRate {s : State} (h : StateOk s) (hs : s.status.started = false)
    {n : BitVec 16} {d : BitVec 8} (hr : ratioIllegal n d = false) : StateOk (writeRate n d s) := by
  obtain ⟨hnone, _⟩ := idle_of_not_started h hs
  obtain ⟨b, g, m, q, t, r, o⟩ := h
  refine ⟨⟨b.rf, b.cw1, b.cw2, rfl, b.varHist⟩, ⟨g.cfg, .inr ⟨hr, rfl⟩, .inr rfl⟩,
    ⟨m.ready, m.started, fun hm => ?_⟩,
    ⟨q.search, q.integrate, q.integrateSamples, q.idle, q.index, q.below, q.target, q.suspect⟩,
    ⟨t.sign, t.x0⟩, ⟨r.err1, r.err2, r.status, r.aux⟩, ⟨o.ptr, o.count, o.seqs, o.complete, o.status⟩⟩
  have hm : s.status.inmode = .samples := hm
  rw [hnone] at hm
  cases hm

/-- ACK moves RD_PTR past a record that is there. -/
theorem StateOk_ack {s : State} (h : StateOk s) (hp : s.out.rdPtr < s.out.records.length) :
    StateOk (s.withOut { s.out with rdPtr := s.out.rdPtr + 1 }) :=
  let ⟨b, c, n, q, t, r, o⟩ := h
  ⟨⟨b.rf, b.cw1, b.cw2, b.vring, b.varHist⟩, ⟨c.cfg, c.rate, c.vpos⟩,
    ⟨n.ready, n.started, n.samples⟩,
    ⟨q.search, q.integrate, q.integrateSamples, q.idle, q.index, q.below, q.target, q.suspect⟩,
    ⟨t.sign, t.x0⟩, ⟨r.err1, r.err2, r.status, r.aux⟩, ⟨hp, o.count, o.seqs, o.complete, o.status⟩⟩

/-- EOS ends integration and the frame in progress together (45_host_commands.md R269). -/
theorem StateOk_abort {s : State} (h : StateOk s) : StateOk (synAbort (demEos s)) := by
  obtain ⟨b, c, n, q, t, r, o⟩ := h
  have hf := framestart_of_wf s.par
  exact ⟨⟨b.rf, b.cw1, b.cw2, b.vring, b.varHist⟩, ⟨c.cfg, c.rate, c.vpos⟩,
    ⟨n.ready, n.started, n.samples⟩,
    ⟨fun _ => ⟨rfl, rfl⟩, nofun, nofun, fun _ => rfl, ⟨Nat.le_refl _, Nat.le_trans hf (by decide)⟩,
      nofun, q.target, q.suspect⟩,
    ⟨t.sign, t.x0⟩, ⟨r.err1, r.err2, r.status, r.aux⟩, ⟨o.ptr, o.count, o.seqs, o.complete, o.status⟩⟩

/-- Opening or continuing a session whose mode the guard admits; a session of samples needs a ratio (45_host_commands.md
R260, R265). -/
theorem StateOk_inputAccept {s : State} (h : StateOk s) {m : InMode} (hm : m ≠ .none)
    (hg : inputGuardRefuses m s = false) (hr : m = .samples → s.rate.spbn ≠ 0) :
    StateOk (inputAccept m s) := by
  obtain ⟨_, _, hmode⟩ := (inputGuardRefuses_false m s).mp hg
  obtain ⟨b, c, n, q, t, r, o⟩ := h
  have hint : s.dem.mode = .int → m = .samples := fun hi => by
    have hs := q.integrateSamples hi
    rcases hmode with e | e
    · rw [e] at hs
      cases hs
    · exact e.symm.trans hs
  have hidle : m = .none ∨ m = .frames → s.syn.syncState = .search := fun hk =>
    q.idle (hmode.imp_right fun e => e.trans (hk.resolve_left hm))
  exact ⟨⟨b.rf, b.cw1, b.cw2, b.vring, b.varHist⟩, ⟨c.cfg, c.rate, c.vpos⟩,
    ⟨n.ready, ⟨fun _ => hm, fun _ => rfl⟩, hr⟩,
    ⟨q.search, q.integrate, hint, hidle, q.index, q.below, q.target, q.suspect⟩,
    ⟨t.sign, t.x0⟩, ⟨r.err1, r.err2, r.status, r.aux⟩, ⟨o.ptr, o.count, o.seqs, o.complete, o.status⟩⟩

/-! ## The invariant under bits and samples -/

/-- Appending complete records numbered on keeps the output in order. -/
theorem OutputOk_append {s t : State} (h : OutputOk s) {new : List FrameOut}
    (ht : t.out = { records := s.out.records ++ new, rdPtr := s.out.rdPtr,
                    frameSeq := s.out.frameSeq + new.length })
    (hn : RecordsFrom s.out.frameSeq new) : OutputOk t := by
  obtain ⟨hseq, hnew⟩ := hn
  refine ⟨?_, ?_, ?_, fun r hr => ?_, fun r hr => ?_⟩
  · rw [ht]
    simpa using Nat.le_add_right_of_le h.ptr
  · rw [ht]
    simp [h.count]
  · rw [ht]
    simp [h.seqs, hseq, h.count, List.range_add]
  · rw [ht] at hr
    exact (List.mem_append.mp hr).elim (h.complete r) fun hr => (hnew r hr).1
  · rw [ht] at hr
    exact (List.mem_append.mp hr).elim (h.status r) fun hr => (hnew r hr).2

/-- The part of the sequencing invariant that bits keep. -/
theorem SequencingOk.seqOk {s : State} (h : SequencingOk s) : SeqOk s :=
  ⟨h.search, h.index, h.below, h.target, h.suspect⟩

/-- What keeps the invariant: keeping what a sample keeps, with the parts that a sample writes in order again. -/
theorem StateOk_of_sampleStep {s t : State} (h : StateOk s) (g : SampleStep s t)
    (vpos : t.dem.vpos < t.rate.vwin ∨ t.dem.vpos = 0) (seq : SeqOk t)
    (integrate : t.dem.mode = .int →
      (t.syn.syncState = .assemble ∧ cfgAlt t.cfg = true) ∧ t.status.inmode = .samples)
    (idle : t.status.inmode = .none ∨ t.status.inmode = .frames → t.syn.syncState = .search)
    (tracker : TrackerOk t) : StateOk t := by
  obtain ⟨new, ht, hn⟩ := g.appends
  obtain ⟨b, c, n, _, _, r, o⟩ := h
  refine ⟨g.buffers b, ⟨?_, ?_, vpos⟩, ⟨?_, ?_, ?_⟩,
    ⟨seq.search, fun hi => (integrate hi).1, fun hi => (integrate hi).2, idle, seq.index, seq.below,
      seq.target, seq.suspect⟩, tracker, g.results r, OutputOk_append o ht hn⟩
  · rw [g.cfg]
    exact c.cfg
  · rw [g.rate]
    exact c.rate
  · rw [g.status]
    exact n.ready
  · rw [g.status]
    exact n.started
  · rw [g.status, g.rate]
    exact n.samples

/-- Delivering bits keeps the invariant in every session but one of samples. -/
theorem StateOk_of_streamStep {s t : State} (h : StateOk s) (hm : s.status.inmode ≠ .samples)
    (g : StreamStep s t) (seq : SeqOk t)
    (idle : s.status.inmode = .none ∨ s.status.inmode = .frames → t.syn.syncState = .search) :
    StateOk t := by
  refine StateOk_of_sampleStep h (SampleStep_of_stream g) ?_ seq (fun hi => ?_) ?_ ⟨?_, ?_⟩
  · rw [g.dem, g.rate]
    exact h.config.vpos
  · rw [g.dem] at hi
    exact absurd (h.sequencing.integrateSamples hi) hm
  · rw [g.status]
    exact idle
  · rw [g.dem]
    exact h.tracker.sign
  · rw [g.dem]
    exact h.tracker.x0

/-- In a session of samples the invariant gives what a sample needs: a ratio, a window of at most 8192 samples, and a
position inside it. -/
theorem StateOk.sampleOk {s : State} (h : StateOk s) (hm : s.status.inmode = .samples) :
    SampleOk s := by
  have hn := h.session.samples hm
  rcases h.config.rate with ⟨h0, _, _⟩ | ⟨hr, hw⟩
  · exact absurd h0 hn
  obtain ⟨hd, hlo, hhi⟩ := (ratioIllegal_eq_false _ _).mp hr
  obtain ⟨wlo, whi⟩ := windowLength_bounds _ _ hd hlo hhi
  refine ⟨hn, fun e => hd (by rw [e]; rfl), hw ▸ whi, ?_, h.sequencing.seqOk,
    h.sequencing.integrate, h.tracker⟩
  rcases h.config.vpos with hv | hv <;> omega

/-! ## The ten host commands -/

/-- A host command's outcome `o` from `s` is a next state that keeps the invariant and the waiting words, and the sums
of the variance window where they were right. -/
def CompletesOk (s : State) (o : Host.Outcome State Fault Refusal) : Prop :=
  ∃ t, o = .next t ∧ StateOk t ∧ t.port.pending = s.port.pending ∧ (WindowSums s → WindowSums t)

theorem CompletesOk_next {s t : State} (h : StateOk t) (hp : t.port.pending = s.port.pending)
    (hw : WindowSums s → WindowSums t) : CompletesOk s (.next t) := ⟨t, rfl, h, hp, hw⟩

/-- The commands that leave the variance window alone. -/
theorem CompletesOk_sameWindow {s t : State} (h : StateOk t) (hp : t.port.pending = s.port.pending)
    (hw : window t = window s) : CompletesOk s (.next t) :=
  CompletesOk_next h hp (WindowSums_congr hw)

theorem CompletesOk_refuse {s : State} (h : StateOk s) (f : StickyFlag) :
    CompletesOk s (.next (refuse f s)) := by
  cases f with
  | cmderr => exact CompletesOk_sameWindow (StateOk_refuse h .cmderr) rfl rfl
  | cfgerr => exact CompletesOk_sameWindow (StateOk_refuse h .cfgerr) rfl rfl

/-- An input command that has run bits in a session it opened or continued. -/
theorem CompletesOk_stream {m : InMode} {s t : State} (ht : StateOk t)
    (g : StreamStep (inputAccept m s) t) : CompletesOk s (.next t) :=
  CompletesOk_sameWindow ht (by rw [g.port]; rfl) ((DemStep_of_stream g).window.trans rfl)

section
variable {s : State} (h : StateOk s)
include h

theorem execCfgw_completes (c : BitVec 8) : CompletesOk s (execCfgw c s) := by
  unfold execCfgw
  split_ifs with hs hc
  · exact CompletesOk_refuse h _
  · exact CompletesOk_refuse h _
  · exact CompletesOk_sameWindow (StateOk_withCfg h (by simpa using hs) (by simpa using hc)) rfl rfl

/-- SPBW empties the variance window. -/
theorem execSpbw_completes (n : BitVec 16) (d : BitVec 8) : CompletesOk s (execSpbw n d s) := by
  unfold execSpbw
  split_ifs with hs hr
  · exact CompletesOk_refuse h _
  · exact CompletesOk_refuse h _
  · exact CompletesOk_next (StateOk_writeRate h (by simpa using hs) (by simpa using hr)) rfl
      fun _ => WindowSums_empty rfl rfl rfl

theorem execSample_completes (v : BitVec 16) : CompletesOk s (execSample v s) := by
  unfold execSample
  split_ifs with hg hn
  · exact CompletesOk_refuse h _
  · exact CompletesOk_refuse h _
  have hu := StateOk_inputAccept h (m := .samples) nofun (by simpa using hg) fun _ => hn
  have hk := hu.sampleOk rfl
  obtain ⟨t, ht, g, k⟩ := demSample_spec Config.eccDecode v _ hk
  have hm : t.status.inmode = .samples := by rw [g.status]; rfl
  have hidle : t.status.inmode = .none ∨ t.status.inmode = .frames → t.syn.syncState = .search := by
    rw [hm]
    exact nofun
  have hok : StateOk t := StateOk_of_sampleStep hu g (.inl k.vpos) k.seq
    (fun hi => ⟨k.integrate hi, hm⟩) hidle k.tracker
  have hw : WindowSums s → WindowSums t := fun w =>
    demSample_windowSums hk.vpos (WindowSums_congr (s := s) rfl w) ht
  rw [ht]
  exact CompletesOk_next hok (by rw [g.port]; rfl) hw

theorem execEos_completes : CompletesOk s (execEos s) := by
  unfold execEos
  split_ifs
  · exact CompletesOk_sameWindow h rfl rfl
  · exact CompletesOk_sameWindow (StateOk_abort (StateOk_withStatus h rfl rfl rfl)) rfl rfl

theorem execBit_completes (b : Bit3) : CompletesOk s (execBit b s) := by
  unfold execBit
  split_ifs with hg
  · exact CompletesOk_refuse h _
  have hu := StateOk_inputAccept h (m := .bits) nofun (by simpa using hg) nofun
  have hq := hu.sequencing.seqOk
  obtain ⟨t, ht⟩ := synBit_completes Config.eccDecode b _ hq.index.2
  have g := synBit_step _ b _ t ht
  rw [ht]
  exact CompletesOk_stream (StateOk_of_streamStep hu nofun g (synBit_seq _ b _ t hq ht) nofun) g

theorem execFload_completes (idx : BitVec 10) (val : Byte) : CompletesOk s (execFload idx val s) := by
  unfold execFload
  split_ifs with hg hi
  · exact CompletesOk_refuse h _
  · exact CompletesOk_refuse h _
  have hu := StateOk_inputAccept h (m := .frames) nofun (by simpa using hg) nofun
  have hq := hu.sequencing.seqOk
  have g := rfSet_stream (inputAccept .frames s) idx.toNat val (Nat.lt_of_not_le hi)
  exact CompletesOk_stream (StateOk_of_streamStep hu nofun g
    ⟨hq.search, hq.index, hq.below, hq.target, hq.suspect⟩ hu.sequencing.idle) g

theorem execFrun_completes (len : BitVec 10) : CompletesOk s (execFrun len s) := by
  unfold execFrun
  split_ifs with hg
  · exact CompletesOk_refuse h _
  have hu := StateOk_inputAccept h (m := .frames) nofun (by simpa using hg) nofun
  have g := synDone_step Config.eccDecode (min len.toNat Config.frameLen) (inputAccept .frames s)
  refine CompletesOk_stream (StateOk_of_streamStep hu nofun g
    (synDone_seq _ _ _ hu.sequencing.target hu.sequencing.suspect) fun _ => ?_) g
  rw [synDone_syn]

theorem execAck_completes : CompletesOk s (execAck s) := by
  unfold execAck
  split_ifs with hp
  · exact CompletesOk_sameWindow (StateOk_ack h hp) rfl rfl
  · exact CompletesOk_sameWindow h rfl rfl

end

/-- The ten operations that a command word can stand for (30_encoding.md R92). -/
inductive HostCommand : Instr → Prop where
  | nop : HostCommand .nop
  | reset : HostCommand .reset
  | cfgw (c : BitVec 8) : HostCommand (.cfgw c)
  | spbw (n : BitVec 16) (d : BitVec 8) : HostCommand (.spbw n d)
  | sample (v : BitVec 16) : HostCommand (.sample v)
  | eos : HostCommand .eos
  | bit (b : Bit3) : HostCommand (.bit b)
  | fload (idx : BitVec 10) (val : Byte) : HostCommand (.fload idx val)
  | frun (len : BitVec 10) : HostCommand (.frun len)
  | ack : HostCommand .ack

/-- A result of the decoder of command words: a host command, or an illegal OP. -/
def CommandResult (r : Except DecodeError Instr) : Prop :=
  (∃ i, r = .ok i ∧ HostCommand i) ∨ r = .error .illegalOp

theorem CommandResult_ok {i : Instr} (h : HostCommand i) : CommandResult (.ok i) := .inl ⟨i, rfl, h⟩

theorem CommandResult_ite {c : Prop} [Decidable c] {a b : Except DecodeError Instr}
    (ha : CommandResult a) (hb : CommandResult b) : CommandResult (if c then a else b) := by
  split
  · exact ha
  · exact hb

/-- What a command word decodes to, OP by OP. -/
theorem decodeCommand_result (w : BitVec 32) : CommandResult (decodeCommand w) :=
  CommandResult_ite (CommandResult_ok .nop) <|
  CommandResult_ite (CommandResult_ok .reset) <|
  CommandResult_ite (CommandResult_ok (.cfgw _)) <|
  CommandResult_ite (CommandResult_ok (.spbw _ _)) <|
  CommandResult_ite (CommandResult_ok (.sample _)) <|
  CommandResult_ite (CommandResult_ok .eos) <|
  CommandResult_ite (CommandResult_ok (.bit _)) <|
  CommandResult_ite (CommandResult_ok (.fload _ _)) <|
  CommandResult_ite (CommandResult_ok (.frun _)) <|
  CommandResult_ite (CommandResult_ok .ack) <| .inr rfl

/-- Every host command completes, and what it leaves is in order. -/
theorem exec_hostCommand_completes {i : Instr} (hi : HostCommand i) {s : State} (h : StateOk s) :
    CompletesOk s (exec i s) := by
  cases hi with
  | nop => exact CompletesOk_sameWindow h rfl rfl
  | reset =>
    exact CompletesOk_next (atReset_ok s.par s.port.pending) rfl fun _ => atReset_windowSums _ _ _
  | cfgw c => exact execCfgw_completes h c
  | spbw n d => exact execSpbw_completes h n d
  | sample v => exact execSample_completes h v
  | eos => exact execEos_completes h
  | bit b => exact execBit_completes h b
  | fload idx val => exact execFload_completes h idx val
  | frun len => exact execFrun_completes h len
  | ack => exact execAck_completes h

/-- What a step can do with only command words waiting: idle, run a host command, or refuse an illegal word. -/
theorem step_command_cases {s : State} (hc : commandsOnly s) :
    step s = .next s
    ∨ ∃ rest, rest.all Pending.isCommand = true
      ∧ ((∃ i, HostCommand i ∧ step s = exec i (takePending rest s))
        ∨ step s = .next (refuse .cmderr (takePending rest s))) := by
  unfold commandsOnly at hc
  unfold step
  cases hp : s.port.pending with
  | nil => exact .inl rfl
  | cons p rest =>
    rw [hp, List.all_cons, Bool.and_eq_true] at hc
    obtain ⟨hword, hrest⟩ := hc
    refine .inr ⟨rest, hrest, ?_⟩
    cases p with
    | command w =>
      rcases decodeCommand_result w with ⟨i, hd, hi⟩ | hd
      · exact .inl ⟨i, hi, by simp only [fetchWords, decode, hd]⟩
      · exact .inr (by simp only [fetchWords, decode, hd, rejectWords])
    | tagAt pos => cases hword
    | marker => cases hword
    | operation label a b => cases hword

/-- One step over command words: it completes and keeps everything that commands keep. -/
theorem step_completes {s : State} (hc : commandsOnly s) (h : StateOk s) :
    ∃ t, step s = .next t ∧ StateOk t ∧ commandsOnly t ∧ (WindowSums s → WindowSums t) := by
  rcases step_command_cases hc with hs | ⟨rest, hrest, hs⟩
  · exact ⟨s, hs, h, hc, id⟩
  have hu : StateOk (takePending rest s) := StateOk_withPort h _
  have hout : CompletesOk (takePending rest s) (step s) := by
    rcases hs with ⟨i, hi, hs⟩ | hs
    · rw [hs]
      exact exec_hostCommand_completes hi hu
    · rw [hs]
      exact CompletesOk_refuse hu _
  obtain ⟨t, hnext, hok, hpend, hw⟩ := hout
  refine ⟨t, hnext, hok, ?_, fun w => hw (WindowSums_congr (s := s) rfl w)⟩
  rw [commandsOnly, hpend]
  exact hrest

/-- Settles O54: each of the ten commands completes and keeps the invariant, and so does the refusal of a word that is
none of them. -/
theorem everyCommandKeepsInvariant : Obligations.EveryCommandKeepsInvariant := by
  intro s hc h
  obtain ⟨t, hs, hok, hcmd, _⟩ := step_completes hc h
  exact ⟨t, hs, hok, hcmd⟩

/-- Settles O56: DEM.VAR replaces one entry in the window and in both sums, RESET and SPBW empty the window, every other
command leaves it alone. -/
theorem windowSumsKept : Obligations.WindowSumsKept := by
  intro s t hc h hw hs
  obtain ⟨u, hu, _, _, hwu⟩ := step_completes hc h
  rw [hu] at hs
  injection hs with hs
  exact hs ▸ hwu hw

end Sys2Proof.Machine

namespace Sys2Proof.Machine

/-! ## What every operation but RESET keeps -/

/-- What the flags keep: a started session goes on in its mode, and the sticky flags stay (10_state.md R23, 60_exceptions.md
R299). -/
structure StatusStep (a b : Status) : Prop where
  started : a.started = true → b.started = true
  inmode : a.inmode ≠ .none → b.inmode = a.inmode
  cmderr : a.cmderr = true → b.cmderr = true
  cfgerr : a.cfgerr = true → b.cfgerr = true
  eos : a.eos = true → b.eos = true

theorem StatusStep_refl (a : Status) : StatusStep a a := ⟨id, fun _ => rfl, id, id, id⟩

theorem StatusStep_trans {a b c : Status} (h : StatusStep a b) (g : StatusStep b c) :
    StatusStep a c where
  started := g.started ∘ h.started
  inmode := fun n => (g.inmode (by rw [h.inmode n]; exact n)).trans (h.inmode n)
  cmderr := g.cmderr ∘ h.cmderr
  cfgerr := g.cfgerr ∘ h.cfgerr
  eos := g.eos ∘ h.eos

/-- What `t` keeps of `s` whatever operation but RESET has run: the parameters, the configuration once a session has
started, the flags, the records, and the canonical form of the buffers. -/
structure OpStep (s t : State) : Prop where
  par : t.par = s.par
  locked : s.status.started = true → t.cfg = s.cfg ∧ t.rate = s.rate
  status : StatusStep s.status t.status
  appends : ∃ new, t.out.records = s.out.records ++ new
    ∧ t.out.frameSeq = s.out.frameSeq + new.length ∧ RecordsFrom s.out.frameSeq new
  ptr : s.out.rdPtr ≤ t.out.rdPtr
  buffers : BuffersWf s → BuffersWf t

theorem OpStep_trans {s t u : State} (h : OpStep s t) (g : OpStep t u) : OpStep s u := by
  obtain ⟨a, ha, na, ra⟩ := h.appends
  obtain ⟨b, hb, nb, rb⟩ := g.appends
  refine ⟨g.par.trans h.par, fun hs => ?_, StatusStep_trans h.status g.status,
    ⟨a ++ b, ?_, ?_, RecordsFrom_append ra (na ▸ rb)⟩, Nat.le_trans h.ptr g.ptr,
    fun w => g.buffers (h.buffers w)⟩
  · obtain ⟨c1, r1⟩ := h.locked hs
    obtain ⟨c2, r2⟩ := g.locked (h.status.started hs)
    exact ⟨c2.trans c1, r2.trans r1⟩
  · rw [hb, ha, List.append_assoc]
  · rw [nb, na, List.length_append, Nat.add_assoc]

/-- Where the configuration, the flags and the output are as before. -/
theorem OpStep_of_same {s t : State} (par : t.par = s.par) (cfg : t.cfg = s.cfg)
    (rate : t.rate = s.rate) (status : t.status = s.status) (out : t.out = s.out)
    (buffers : BuffersWf s → BuffersWf t) : OpStep s t :=
  ⟨par, fun _ => ⟨cfg, rate⟩, status ▸ StatusStep_refl _,
    ⟨[], by rw [out, List.append_nil], by rw [out]; rfl, RecordsFrom_nil _⟩, out ▸ Nat.le_refl _, buffers⟩

theorem OpStep_refl (s : State) : OpStep s s := OpStep_of_same rfl rfl rfl rfl rfl id

theorem OpStep_of_sample {s t : State} (h : SampleStep s t) : OpStep s t := by
  obtain ⟨new, ho, hn⟩ := h.appends
  exact ⟨h.par, fun _ => ⟨h.cfg, h.rate⟩, h.status ▸ StatusStep_refl _,
    ⟨new, by rw [ho], by rw [ho], hn⟩, by rw [ho], h.buffers⟩

theorem OpStep_of_stream {s t : State} (h : StreamStep s t) : OpStep s t :=
  OpStep_of_sample (SampleStep_of_stream h)

theorem OpStep_of_dem {s t : State} (h : DemStep s t) : OpStep s t := OpStep_of_sample h.toSampleStep

theorem OpStep_of_fec {s t : State} (h : FecStep s t) : OpStep s t := by
  obtain ⟨par, cfg, rate, status, dem, _, out, syn, _⟩ := FecStep_keeps h
  refine OpStep_of_same par cfg rate status out fun w => ?_
  obtain ⟨rf, cw1, cw2⟩ := h.wf ⟨w.rf, w.cw1, w.cw2⟩
  exact ⟨rf, cw1, cw2, by rw [dem]; exact w.vring, by rw [syn]; exact w.varHist⟩

theorem OpStep_withCrc {s t : State} {c : Crc} (h : t = s.withCrc c) : OpStep s t :=
  h ▸ OpStep_of_same rfl rfl rfl rfl rfl fun w => ⟨w.rf, w.cw1, w.cw2, w.vring, w.varHist⟩

theorem OpStep_withRet {s t : State} (h : OpStep s t) (r : Ret) : OpStep s (t.withRet r) :=
  OpStep_trans h
    (OpStep_of_same rfl rfl rfl rfl rfl fun w => ⟨w.rf, w.cw1, w.cw2, w.vring, w.varHist⟩)

theorem OpStep_withStatus {s : State} {u : Status} (h : StatusStep s.status u) :
    OpStep s (s.withStatus u) :=
  ⟨rfl, fun _ => ⟨rfl, rfl⟩, h, ⟨[], by simp, rfl, RecordsFrom_nil _⟩, Nat.le_refl _,
    fun w => ⟨w.rf, w.cw1, w.cw2, w.vring, w.varHist⟩⟩

theorem OpStep_refuse (f : StickyFlag) (s : State) : OpStep s (refuse f s) := by
  cases f with
  | cmderr => exact OpStep_withStatus ⟨id, fun _ => rfl, fun _ => rfl, id, id⟩
  | cfgerr => exact OpStep_withStatus ⟨id, fun _ => rfl, id, fun _ => rfl, id⟩

/-- A session that the guard admits goes on in its own mode. -/
theorem OpStep_inputAccept {m : InMode} {s : State} (hg : inputGuardRefuses m s = false) :
    OpStep s (inputAccept m s) := by
  obtain ⟨_, _, hm⟩ := (inputGuardRefuses_false m s).mp hg
  exact OpStep_withStatus ⟨fun _ => rfl, fun hn => (hm.resolve_left hn).symm, id, id, id⟩

/-! ## The outcome of each operation -/

/-- Where `o` is a next state, it keeps of `s` what every operation keeps. -/
def OutcomeStep (s : State) (o : Host.Outcome State Fault Refusal) : Prop :=
  ∀ t, o = .next t → OpStep s t

theorem OutcomeStep_next {s t : State} (h : OpStep s t) : OutcomeStep s (.next t) := by
  intro u hu
  injection hu with hu
  exact hu ▸ h

theorem OutcomeStep_toOutcome {s : State} {r : Res State} (h : ∀ t, r = .ok t → OpStep s t) :
    OutcomeStep s (toOutcome r) := fun t ht => h t ((toOutcome_eq_next r t).mp ht)

/-- A data-selected check: CRC_REG, CRC_MASK or AUX_COUNT move, the answer is handed back. -/
theorem OutcomeStep_checked {s : State} {r : Checked} {c : Crc} (h : r.st = s.withCrc c) :
    OutcomeStep s (checkedNext r) := OutcomeStep_next (OpStep_withRet (OpStep_withCrc h) _)

theorem checkBlock_outcome (bit pos : Nat) (hi : Byte) (s : State) :
    OutcomeStep s (checkedNext (checkBlock bit pos hi s)) := by
  obtain ⟨_, _, h, _⟩ := checkBlock_spec bit pos hi s
  exact OutcomeStep_checked h

theorem execChkAux_outcome (pos : Nat) (s : State) : OutcomeStep s (execChkAux pos s) := by
  unfold execChkAux
  split_ifs
  · obtain ⟨_, _, _, h, _⟩ := auxBlock_spec pos s
    exact OutcomeStep_checked h
  · exact OutcomeStep_next (OpStep_withRet (OpStep_refl s) _)

/-- A write of the configuration, refused once the session has started. -/
theorem OutcomeStep_locked {s t : State} {c : Bool} (par : t.par = s.par) (status : t.status = s.status)
    (out : t.out = s.out) (buffers : BuffersWf s → BuffersWf t) :
    OutcomeStep s (if s.status.started then .next (refuse .cmderr s)
      else if c then .next (refuse .cfgerr s) else .next t) := by
  split_ifs with hs hc
  · exact OutcomeStep_next (OpStep_refuse _ s)
  · exact OutcomeStep_next (OpStep_refuse _ s)
  · exact OutcomeStep_next ⟨par, fun h => absurd h hs, status ▸ StatusStep_refl _,
      ⟨[], by rw [out, List.append_nil], by rw [out]; rfl, RecordsFrom_nil _⟩, out ▸ Nat.le_refl _, buffers⟩

/-- An input command: refused, or what it does once its session has started. -/
theorem OutcomeStep_guarded {m : InMode} {s : State} {o : Host.Outcome State Fault Refusal}
    (h : OpStep s (inputAccept m s) → OutcomeStep s o) :
    OutcomeStep s (if inputGuardRefuses m s then .next (refuse .cmderr s) else o) := by
  split_ifs with hg
  · exact OutcomeStep_next (OpStep_refuse _ s)
  · exact h (OpStep_inputAccept (by simpa using hg))

theorem execSample_outcome (v : BitVec 16) (s : State) : OutcomeStep s (execSample v s) := by
  refine OutcomeStep_guarded fun ha => ?_
  split_ifs
  · exact OutcomeStep_next (OpStep_refuse _ s)
  · exact OutcomeStep_toOutcome fun t ht =>
      OpStep_trans ha (OpStep_of_sample (demSample_sampleStep ht))

theorem synAbort_step (s : State) : StreamStep s (synAbort s) := withSyn_step s _ rfl

theorem execEos_outcome (s : State) : OutcomeStep s (execEos s) := by
  unfold execEos
  split_ifs
  · exact OutcomeStep_next (OpStep_refl s)
  · have h1 : OpStep s (s.withStatus { s.status with eos := true }) :=
      OpStep_withStatus ⟨id, fun _ => rfl, id, id, fun _ => rfl⟩
    exact OutcomeStep_next (OpStep_trans (OpStep_trans h1 (OpStep_of_dem (demEos_demStep _)))
      (OpStep_of_stream (synAbort_step _)))

theorem execFload_outcome (idx : BitVec 10) (val : Byte) (s : State) :
    OutcomeStep s (execFload idx val s) := by
  refine OutcomeStep_guarded fun ha => ?_
  split_ifs with hi
  · exact OutcomeStep_next (OpStep_refuse _ s)
  · exact OutcomeStep_next (OpStep_trans ha
      (OpStep_of_stream (rfSet_stream _ _ val (Nat.lt_of_not_le hi))))

theorem execAck_outcome (s : State) : OutcomeStep s (execAck s) := by
  unfold execAck
  split_ifs
  · exact OutcomeStep_next ⟨rfl, fun _ => ⟨rfl, rfl⟩, StatusStep_refl _,
      ⟨[], by simp, rfl, RecordsFrom_nil _⟩, Nat.le_succ _,
      fun w => ⟨w.rf, w.cw1, w.cw2, w.vring, w.varHist⟩⟩
  · exact OutcomeStep_next (OpStep_refl s)

theorem decideLength_opStep (len : Nat) (s : State) : OpStep s (decideLength len s) := by
  unfold decideLength
  split_ifs
  · exact OpStep_of_stream (withSyn_step s _ rfl)
  · exact OpStep_refl s

theorem execCrcCalc_outcome (start n : Nat) (s : State) : OutcomeStep s (execCrcCalc start n s) := by
  refine OutcomeStep_toOutcome fun t ht => ?_
  obtain ⟨u, hu, ht⟩ := (andThen_eq_ok _ _ _).mp ht
  injection ht with ht
  unfold crcCalc at hu
  split_ifs at hu
  injection hu with hu
  exact ht ▸ OpStep_withRet (OpStep_withCrc hu.symm) _

/-- Every operation but RESET keeps what `OpStep` says, from every state in which it answers a next state. -/
theorem exec_opStep {i : Instr} (hne : i ≠ .reset) (s : State) : OutcomeStep s (exec i s) := by
  have same : OpStep s s := OpStep_refl s
  cases i with
  | nop => exact OutcomeStep_next same
  | reset => exact absurd rfl hne
  | cfgw c =>
    exact OutcomeStep_locked rfl rfl rfl fun w => ⟨w.rf, w.cw1, w.cw2, w.vring, w.varHist⟩
  | spbw n d => exact OutcomeStep_locked rfl rfl rfl fun w => ⟨w.rf, w.cw1, w.cw2, rfl, w.varHist⟩
  | sample v => exact execSample_outcome v s
  | eos => exact execEos_outcome s
  | bit b =>
    exact OutcomeStep_guarded fun ha => OutcomeStep_toOutcome fun t ht =>
      OpStep_trans ha (OpStep_of_stream (synBit_step _ b _ t ht))
  | fload idx val => exact execFload_outcome idx val s
  | frun len =>
    exact OutcomeStep_guarded fun ha =>
      OutcomeStep_next (OpStep_trans ha (OpStep_of_stream (synDone_step _ _ _)))
  | ack => exact execAck_outcome s
  | chkFrame => exact checkBlock_outcome _ _ _ s
  | chkPtu => exact checkBlock_outcome _ _ _ s
  | chkGps1 => exact checkBlock_outcome _ _ _ s
  | chkGps2 => exact checkBlock_outcome _ _ _ s
  | chkGps3 => exact checkBlock_outcome _ _ _ s
  | chkAux pos => exact execChkAux_outcome pos s
  | chkZero pos => exact checkBlock_outcome _ _ _ s
  | ftmStd => exact OutcomeStep_next (decideLength_opStep _ s)
  | ftmExt => exact OutcomeStep_next (decideLength_opStep _ s)
  | ftmOther m => exact OutcomeStep_next (OpStep_withRet same _)
  | dscXor v k => exact OutcomeStep_next (OpStep_withRet same _)
  | demSample raw =>
    exact OutcomeStep_toOutcome fun t ht => OpStep_of_sample (demSample_sampleStep ht)
  | demAvg raw => exact OutcomeStep_next (OpStep_withRet (OpStep_of_dem (demAvg_demStep raw s)) _)
  | demZc y => exact OutcomeStep_toOutcome fun t ht => OpStep_of_dem (demZc_demStep ht)
  | demLen y => exact OutcomeStep_next (OpStep_withRet (OpStep_of_dem (demLen_demStep y s)) _)
  | demEmit l => exact OutcomeStep_next same
  | demEnterint y => exact OutcomeStep_toOutcome fun t ht => OpStep_of_dem (demEnterint_demStep ht)
  | demInt y => exact OutcomeStep_toOutcome fun t ht => OpStep_of_dem (demInt_demStep ht)
  | demIntchk y => exact OutcomeStep_toOutcome fun t ht => OpStep_of_dem (demIntchk_demStep ht)
  | demLeaveint y => exact OutcomeStep_next (OpStep_of_dem (demLeaveint_demStep y s))
  | demVar y => exact OutcomeStep_toOutcome fun t ht => OpStep_of_sample (demVar_sampleStep ht)
  | demEos => exact OutcomeStep_next (OpStep_of_dem (demEos_demStep s))
  | synBit b => exact OutcomeStep_toOutcome fun t ht => OpStep_of_stream (synBit_step _ b s t ht)
  | synShift b => exact OutcomeStep_next (OpStep_of_stream (synShift_step b s))
  | synCmp => exact OutcomeStep_next (OpStep_withRet same _)
  | synAcq => exact OutcomeStep_next (OpStep_of_stream (synAcq_step s))
  | synPack => exact OutcomeStep_next (OpStep_withRet same _)
  | synByte => exact OutcomeStep_toOutcome fun t ht => OpStep_of_stream (synByte_step _ s t ht)
  | synScore m => exact OutcomeStep_next (OpStep_withRet same _)
  | synFtm => exact OutcomeStep_next (OpStep_of_stream (synFtm_step s))
  | synSusp p => exact OutcomeStep_toOutcome fun t ht => OpStep_of_stream (synSusp_step p s t ht)
  | synDone len => exact OutcomeStep_next (OpStep_of_stream (synDone_step _ len s))
  | synAbort => exact OutcomeStep_next (OpStep_of_stream (synAbort_step s))
  | fecCorrect len => exact OutcomeStep_next (OpStep_of_fec (fecCorrect_step _ len s))
  | fecPad len => exact OutcomeStep_next (OpStep_of_fec (fecPad_step len s))
  | fecGather => exact OutcomeStep_next (OpStep_of_fec (fecGather_step s))
  | fecDec k => exact OutcomeStep_next (OpStep_of_fec (fecDec_step _ k s))
  | eccInit sel => exact OutcomeStep_next (OpStep_withStatus ⟨id, fun _ => rfl, id, id, id⟩)
  | fecForce => exact OutcomeStep_next (OpStep_of_fec (fecForce_step s))
  | fecZtrail => exact OutcomeStep_next (OpStep_of_fec (fecZtrail_step s))
  | fecScatter k => exact OutcomeStep_next (OpStep_of_fec (fecScatter_step k s))
  | fecStat ok1 ok2 => exact OutcomeStep_next (OpStep_of_fec (fecStat_step ok1 ok2 s))
  | crcUpd r b => exact OutcomeStep_next (OpStep_withRet same _)
  | crcCalc start n => exact execCrcCalc_outcome start n s
  | crcCheck pos hi =>
    obtain ⟨_, h⟩ := crcCheck_frame pos hi s
    exact OutcomeStep_next (OpStep_withRet (OpStep_withCrc h) _)
  | crcScan =>
    obtain ⟨_, h, _⟩ := crcScan_frame s
    exact OutcomeStep_next (OpStep_withCrc h)
  | crcAuxwalk =>
    obtain ⟨_, _, _, _, _, h, _⟩ := crcAuxwalk_spec s
    exact OutcomeStep_next (OpStep_withCrc h)

/-- Settles O58: the flags' part of what every operation but RESET keeps. -/
theorem stickyFlagsStay : Obligations.StickyFlagsStay := by
  intro s t i hi ht
  have h := (exec_opStep hi s t ht).status
  exact ⟨h.cmderr, h.cfgerr, h.eos⟩

/-- Settles O59: the output's part of what every operation but RESET keeps. -/
theorem outputAppendOnly : Obligations.OutputAppendOnly := by
  intro s t i hi ht
  have h := exec_opStep hi s t ht
  obtain ⟨new, hrec, hcount, hseq, hnew⟩ := h.appends
  exact ⟨new, hrec, hseq, hcount, fun r hr => (hnew r hr).1, h.ptr⟩

end Sys2Proof.Machine

namespace Sys2Proof.Machine

/-! ## One step, from any state -/

/-- An item that can be fetched and whose words decode: the step is the operation on the rest of the port. -/
theorem step_of_decoded {s : State} {p : Pending} {rest : List Pending} {ws : Words} {i : Instr}
    (hp : s.port.pending = p :: rest) (hf : fetchWords s p = .ok ws)
    (hd : decode s.par.val ws = .ok i) : step s = exec i (takePending rest s) := by
  simp only [step, hp, hf, hd]

/-- A tag is read from two bytes of RF, the byte at the lower index the high one (20_memory.md R66). -/
theorem fetchWords_tagAt {s : State} {pos : Nat} (h : pos + 2 ≤ 518) :
    fetchWords s (.tagAt pos) = .ok (.tag16 pos (rfByte s pos ++ rfByte s (pos + 1))) := if_pos h

/-- Settles O4: each kind of item is fetched into its words, and a step runs what they decode to. -/
theorem stepRunsDecoded : Obligations.StepRunsDecoded := by
  intro s rest i
  refine ⟨fun hp => ?idle, fun w hp hd => ?command, fun pos hp hpos hd => ?tag,
    fun hp hd => ?marker, fun label a b hp hd => ?operation⟩
  case idle => simp only [step, hp]
  case command => exact step_of_decoded hp rfl hd
  case tag => exact step_of_decoded hp (fetchWords_tagAt hpos) hd
  case marker => exact step_of_decoded hp rfl hd
  case operation => exact step_of_decoded hp rfl hd

/-- Words that name no operation lead to a next state only as an illegal command word, which is refused. -/
theorem rejectWords_next {e : DecodeError} {s t : State} (h : rejectWords e s = .next t) :
    t = refuse .cmderr s := by
  cases e with
  | illegalOp => injection h with h; exact h.symm
  | noSuchTag => cases h
  | noSuchLabel => cases h
  | operandOutOfRange => cases h

/-- What a step that answers a next state has done: nothing, one operation, or the refusal of an illegal word. -/
theorem step_next_cases {s t : State} (h : step s = .next t) :
    t = s ∨ ∃ rest, (∃ i, exec i (takePending rest s) = .next t)
      ∨ t = refuse .cmderr (takePending rest s) := by
  unfold step at h
  split at h
  next => injection h with h; exact .inl h.symm
  next p rest _ =>
    refine .inr ⟨rest, ?_⟩
    split at h
    next => cases h
    next =>
      split at h
      next i _ => exact .inl ⟨i, h⟩
      next => exact .inr (rejectWords_next h)

/-! ## What every operation keeps, RESET too -/

/-- RESET has no fault and no refusal: its next state is the reset sequence's. -/
theorem exec_reset_next {s t : State} (h : exec .reset s = .next t) : t = resetSequence s := by
  injection h with h
  exact h.symm

theorem resetSequence_buffersWf (s : State) : BuffersWf (resetSequence s) := by
  rw [resetSequence_eq]
  exact reset_buffersWf _ _ _

theorem exec_buffersWf {i : Instr} {s t : State} (w : BuffersWf s) (h : exec i s = .next t) :
    BuffersWf t := by
  by_cases hi : i = .reset
  · subst hi
    exact exec_reset_next h ▸ resetSequence_buffersWf s
  · exact (exec_opStep hi s t h).buffers w

theorem exec_par {i : Instr} {s t : State} (h : exec i s = .next t) : t.par = s.par := by
  by_cases hi : i = .reset
  · subst hi
    rw [exec_reset_next h, resetSequence_eq]
    rfl
  · exact (exec_opStep hi s t h).par

theorem takePending_buffersWf {s : State} (w : BuffersWf s) (rest : List Pending) :
    BuffersWf (takePending rest s) := ⟨w.rf, w.cw1, w.cw2, w.vring, w.varHist⟩

/-- Settles O55: taking an item from the port moves no buffer, every operation keeps the canonical form or resets it, and
a refusal only sets a flag. -/
theorem everyStepKeepsBuffers : Obligations.EveryStepKeepsBuffers := by
  intro s t w h
  rcases step_next_cases h with rfl | ⟨rest, ⟨i, hi⟩ | rfl⟩
  · exact w
  · exact exec_buffersWf (takePending_buffersWf w rest) hi
  · exact (OpStep_refuse .cmderr _).buffers (takePending_buffersWf w rest)

/-- Settles O57: RESET keeps the parameter record; every other operation keeps the configuration of a started session and
the mode of the session as well. -/
theorem configurationLocked : Obligations.ConfigurationLocked := by
  intro s t i h
  refine ⟨exec_par h, fun hs hi => ?_, fun hm hi => (exec_opStep hi s t h).status.inmode hm⟩
  have k := exec_opStep hi s t h
  obtain ⟨hcfg, hrate⟩ := k.locked hs
  exact ⟨hcfg, hrate, k.status.started hs⟩

/-! ## Indices outside their buffers -/

@[simp] theorem andThen_error {α β : Type} (e : Fault) (f : α → Res β) :
    andThen (.error e) f = .error e := rfl

@[simp] theorem toOutcome_error (e : Fault) : toOutcome (.error e) = .fault e := rfl

theorem demVar_outside (y : Rat) {s : State} (h : 8192 ≤ s.dem.vpos) :
    demVar y s = .error (.noSuchIndex .vring s.dem.vpos) := if_neg (Nat.not_lt.mpr h)

theorem synSusp_outside {s : State} {p : Nat} (ha : cfgAlt s.cfg = true) (h : 518 ≤ p) :
    synSusp p s = .error (.noSuchIndex .varHist p) := by
  rw [synSusp, if_pos ha]
  exact if_neg (Nat.not_lt.mpr h)

theorem rfSetChecked_outside (s : State) {a : Nat} (v : Byte) (h : 518 ≤ a) :
    rfSetChecked s a v = .error (.noSuchIndex .rf a) := if_neg (Nat.not_lt.mpr h)

/-- The byte is stored before anything else happens, so its index alone decides. -/
theorem synByte_outside (ecc : Ecc) {s : State} (h : 518 ≤ s.syn.byteIndex) :
    synByte ecc s = .error (.noSuchIndex .rf s.syn.byteIndex) := by
  simp only [synByte, rfSetChecked_outside s _ h, andThen_error]

theorem crcCalc_outside {s : State} {start n : Nat} (hn : n ≠ 0) (h : 518 < start + n) :
    crcCalc start n s = .error (.noSuchIndex .rf (max start 518)) :=
  if_neg (not_or.mpr ⟨hn, Nat.not_le.mpr h⟩)

/-- Settles O60: each of the four operations stops with the fault of its own index test. -/
theorem outsideIndexFaults : Obligations.OutsideIndexFaults := by
  intro s y p start n
  refine ⟨fun h => ?demVar, fun ha h => ?synSusp, fun h => ?synByte, fun hn h => ?crcCalc⟩
  case demVar => exact congrArg toOutcome (demVar_outside y h)
  case synSusp => exact congrArg toOutcome (synSusp_outside ha h)
  case synByte => exact congrArg toOutcome (synByte_outside _ h)
  case crcCalc =>
    simp only [exec, execCrcCalc, crcCalc_outside hn h, andThen_error, toOutcome_error]

end Sys2Proof.Machine

namespace Sys2Proof.Machine

/-! ## Command words (30_encoding.md R91 to R94) -/

/-- OP of a command word. -/
theorem commandWord_op (op : BitVec 8) (arg : BitVec 24) :
    (commandWord op arg).extractLsb' 24 8 = op := Laws.commandWord_key op arg

/-- A field inside ARG is read from ARG. -/
theorem commandWord_field (op : BitVec 8) (arg : BitVec 24) {start len : Nat}
    (h : start + len ≤ 24) :
    (commandWord op arg).extractLsb' start len = arg.extractLsb' start len :=
  BitVec.extractLsb'_append_eq_of_add_le h

/-- A field written at bit 0 of ARG with zeros above it is read back. -/
theorem extract_setWidth {v w : Nat} (x : BitVec v) (h : v ≤ w) :
    (x.setWidth w).extractLsb' 0 v = x := by
  rw [BitVec.extractLsb'_setWidth_of_le (by omega), BitVec.extractLsb'_eq_self]

section
variable (P : Params) (arg : BitVec 24)

theorem decode_nop : decode P (.cmd32 (commandWord 0x00 arg)) = .ok .nop := by
  simp [decode, decodeCommand, commandWord_op]

theorem decode_reset : decode P (.cmd32 (commandWord 0x01 arg)) = .ok .reset := by
  simp [decode, decodeCommand, commandWord_op]

theorem decode_cfgw : decode P (.cmd32 (commandWord 0x02 arg)) = .ok (.cfgw (arg.extractLsb' 0 8)) := by
  simp [decode, decodeCommand, commandWord_op, commandWord_field]

theorem decode_spbw : decode P (.cmd32 (commandWord 0x03 arg))
    = .ok (.spbw (arg.extractLsb' 8 16) (arg.extractLsb' 0 8)) := by
  simp [decode, decodeCommand, commandWord_op, commandWord_field]

theorem decode_sample : decode P (.cmd32 (commandWord 0x10 arg))
    = .ok (.sample (arg.extractLsb' 0 16)) := by
  simp [decode, decodeCommand, commandWord_op, commandWord_field]

theorem decode_eos : decode P (.cmd32 (commandWord 0x11 arg)) = .ok .eos := by
  simp [decode, decodeCommand, commandWord_op]

theorem decode_bit : decode P (.cmd32 (commandWord 0x12 arg))
    = .ok (.bit (bitOfField (arg.extractLsb' 0 2))) := by
  simp [decode, decodeCommand, commandWord_op, commandWord_field]

theorem decode_fload : decode P (.cmd32 (commandWord 0x13 arg))
    = .ok (.fload (arg.extractLsb' 8 10) (arg.extractLsb' 0 8)) := by
  simp [decode, decodeCommand, commandWord_op, commandWord_field]

theorem decode_frun : decode P (.cmd32 (commandWord 0x14 arg))
    = .ok (.frun (arg.extractLsb' 0 10)) := by
  simp [decode, decodeCommand, commandWord_op, commandWord_field]

theorem decode_ack : decode P (.cmd32 (commandWord 0x20 arg)) = .ok .ack := by
  simp [decode, decodeCommand, commandWord_op]

theorem decode_illegalOp {w : BitVec 32} (h : w.extractLsb' 24 8
      ∉ [0x00#8, 0x01#8, 0x02#8, 0x03#8, 0x10#8, 0x11#8, 0x12#8, 0x13#8, 0x14#8, 0x20#8]) :
    decode P (.cmd32 w) = .error .illegalOp := by
  simp only [List.mem_cons, List.not_mem_nil, or_false, not_or] at h
  simp only [decode, decodeCommand, h, if_false]

end

/-- BIT and SYN.BIT read back the symbol the encoder writes (30_encoding.md R110). -/
theorem bitOfField_fieldOfBit (b : Bit3) : bitOfField (fieldOfBit b) = b := by cases b <;> rfl

/-- Bit 1 of the field of BIT alone makes the symbol X, whatever bit 0 is. -/
theorem bitOfField_x {arg : BitVec 24} (h : arg.getLsbD 1 = true) :
    bitOfField (arg.extractLsb' 0 2) = .x :=
  if_pos (by simpa [BitVec.getLsbD_extractLsb'] using h)

/-- Settles O2: one equation per OP of the table, and no branch of the decoder is left for any other. -/
theorem commandWordsDecode : Obligations.CommandWordsDecode := by
  refine ⟨fun P _ h => decode_illegalOp P h, fun P arg => ⟨decode_nop P arg, decode_reset P arg,
    decode_cfgw P arg, decode_spbw P arg, decode_sample P arg, decode_eos P arg, fun h => ?zero,
    fun h => ?one, fun h => ?x, decode_fload P arg, decode_frun P arg, decode_ack P arg⟩⟩
  case zero => exact (decode_bit P arg).trans (by rw [h]; rfl)
  case one => exact (decode_bit P arg).trans (by rw [h]; rfl)
  case x => exact (decode_bit P arg).trans (by rw [bitOfField_x h])

/-- The word of a command decodes to it: its OP selects the command, and each field is read back from its place. -/
theorem decode_of_encode_cmd32 {P : Params} {i : Instr} {w : BitVec 32}
    (he : encode P i = .cmd32 w) : decode P (.cmd32 w) = .ok i := by
  cases i <;> cases he
  case nop => exact decode_nop P 0
  case reset => exact decode_reset P 0
  case cfgw c => rw [decode_cfgw, extract_setWidth c (by decide)]
  case spbw n d =>
    rw [decode_spbw, BitVec.extractLsb'_append_eq_left, BitVec.extractLsb'_append_eq_right]
  case sample v => rw [decode_sample, extract_setWidth v (by decide)]
  case eos => exact decode_eos P 0
  case bit b => rw [decode_bit, extract_setWidth (fieldOfBit b) (by decide), bitOfField_fieldOfBit]
  case fload idx val =>
    rw [decode_fload, BitVec.extractLsb'_setWidth_of_le (by decide),
      BitVec.extractLsb'_setWidth_of_le (by decide), BitVec.extractLsb'_append_eq_left,
      BitVec.extractLsb'_append_eq_right]
  case frun len => rw [decode_frun, extract_setWidth len (by decide)]
  case ack => exact decode_ack P 0

/-! ## Operands in range -/

theorem inRange_of_wf {i : Instr} (h : i.wf = true) : inRange i = .ok i := if_pos h

/-- A tag decodes to the check it selects, where its position is in range. -/
theorem decode_tag16 {P : Params} {pos : Nat} {w : BitVec 16} {i : Instr}
    (h : decodeTag P pos w = .ok i) (hi : i.wf = true) : decode P (.tag16 pos w) = .ok i := by
  simp only [decode, h, inRange_of_wf hi]

/-- A label decodes to the operation it names, where the operands are in range. -/
theorem decode_uop8 {P : Params} {label : BitVec 8} {a b : BitVec 32} {i : Instr}
    (h : decodeLabel label a b = some i) (hi : i.wf = true) : decode P (.uop8 label a b) = .ok i := by
  simp only [decode, h, inRange_of_wf hi]

/-! ## Sub-block tags (30_encoding.md R99 to R101) -/

/-- The high byte of a tag written with length 0. -/
theorem tagHi_tagWord (hi : Byte) : tagHi (tagWord hi) = hi := Laws.tagWord_key hi 0

/-- The seven high tag bytes differ, listed with the one the decoder compares first at the end. -/
theorem tagsDistinct_reverse {P : Params} (h : P.tagsDistinct = true) :
    [P.tagZeroHi, P.tagAuxHi, tagHi P.tagGps3, tagHi P.tagGps2, tagHi P.tagGps1, tagHi P.tagPtu,
      tagHi P.tagFrame].Nodup :=
  List.nodup_reverse.mpr (of_decide_eq_true h)

/-- The tag of a check selects it: no kind the decoder compares earlier has its high byte. -/
theorem decodeTag_of_encode {P : Params} {i : Instr} {pos : Nat} {w : BitVec 16}
    (hd : P.tagsDistinct = true) (he : encode P i = .tag16 pos w) : decodeTag P pos w = .ok i := by
  have ne := tagsDistinct_reverse hd
  simp only [List.nodup_cons, List.mem_cons, List.not_mem_nil, or_false, not_or] at ne
  cases i <;> cases he
  case chkFrame | chkPtu | chkGps1 | chkGps2 | chkGps3 => simp [decodeTag, ne]
  case chkAux | chkZero => simp [decodeTag, tagHi_tagWord, ne]

/-! ## The frame-type marker (30_encoding.md R104) -/

/-- The marker of a class selects it; any other byte keeps its value. -/
theorem decodeMarker_of_encode {P : Params} {i : Instr} {m : Byte} (hi : i.wf = true)
    (he : encode P i = .ftm8 m) : decodeMarker m = i := by
  cases i <;> cases he
  case ftmStd | ftmExt => rfl
  case ftmOther =>
    simp only [Instr.wf, Bool.and_eq_true, decide_eq_true_eq] at hi
    obtain ⟨hstd, hext⟩ := hi
    rw [decodeMarker, if_neg hstd, if_neg hext]

/-! ## Operand words of the internal operations -/

/-- A filtered sample is read back from its word: three times the sample is an integer of 32 bits. -/
theorem sampleOfWord_wordOfSample {y : Rat} (h : sampleOperandOk y = true) :
    sampleOfWord (wordOfSample y) = y := by
  simp only [sampleOperandOk, Bool.and_eq_true, decide_eq_true_eq] at h
  obtain ⟨hden, hnum⟩ := h
  have hthree : y.den * (3 / y.den) = 3 := by rcases hden with hd | hd <;> rw [hd]
  have hquot : 3 / y.den ≠ 0 := fun hz => by rw [hz] at hthree; omega
  have hfit : (BitVec.ofInt 32 (y.num * ((3 / y.den : Nat) : Int))).toInt
      = y.num * ((3 / y.den : Nat) : Int) := by
    rcases hden with hd | hd <;> rw [hd] at hnum ⊢ <;>
      exact BitVec.toInt_ofInt_eq_self (by decide) (by omega) (by omega)
  calc sampleOfWord (wordOfSample y)
      = mkRat (y.num * ((3 / y.den : Nat) : Int)) 3 := by rw [sampleOfWord, wordOfSample, hfit]
    _ = mkRat (y.num * ((3 / y.den : Nat) : Int)) (y.den * (3 / y.den)) := by rw [hthree]
    _ = mkRat y.num y.den := Rat.mkRat_mul_right hquot
    _ = y := Rat.mkRat_self y

/-- A run length is read back from its two words. -/
theorem lengthOfWords_encode {l : Rat} (h : lengthOperandOk l = true) :
    lengthOfWords (BitVec.ofNat 32 l.num.toNat) (BitVec.ofNat 32 (l.den - 1)) = l := by
  simp only [lengthOperandOk, Bool.and_eq_true, decide_eq_true_eq] at h
  obtain ⟨⟨hpos, hnum⟩, hden⟩ := h
  have hd := l.den_pos
  rw [lengthOfWords, toNat_ofNat_field (by omega), toNat_ofNat_field (by omega),
    Int.toNat_of_nonneg hpos, Nat.sub_add_cancel hd, Rat.mkRat_self]

theorem cwOfWord_wordOfCw (k : CwSel) : cwOfWord (wordOfCw k) = k := by cases k <;> rfl

theorem wordOfBool_getLsbD (b : Bool) : (wordOfBool b).getLsbD 0 = b := by cases b <;> rfl

/-- A narrow operand is read back from its word. -/
theorem setWidth_operand {v : Nat} (x : BitVec v) (h : v ≤ 32) : (x.setWidth 32).setWidth v = x := by
  rw [BitVec.setWidth_setWidth_of_le x h, BitVec.setWidth_eq]

/-- A bit symbol is read back from its word. -/
theorem bitOperand (b : Bit3) : bitOfField (((fieldOfBit b).setWidth 32).setWidth 2) = b := by
  rw [setWidth_operand _ (by decide), bitOfField_fieldOfBit]

/-- A natural is read back from its operand word. -/
theorem natOperand_toNat {n : Nat} (h : natOperandOk n = true) : (BitVec.ofNat 32 n).toNat = n :=
  toNat_ofNat_field (of_decide_eq_true h)

/-- An index or a length of RF fits an operand word. -/
theorem natOperandOk_of_le {n : Nat} (h : n ≤ Config.frameLen) : natOperandOk n = true :=
  decide_eq_true (Nat.lt_of_le_of_lt h (by decide))

/-- The label of an internal operation selects it, and each operand is read back from its word. -/
theorem decodeLabel_of_encode {P : Params} {i : Instr} {label : BitVec 8} {a b : BitVec 32}
    (hi : i.wf = true) (he : encode P i = .uop8 label a b) : decodeLabel label a b = some i := by
  cases i <;> cases he
  case demEos | synCmp | synAcq | synPack | synByte | synFtm | synAbort | fecGather | fecForce
    | fecZtrail | crcScan | crcAuxwalk => rfl
  case dscXor v n =>
    exact congrArg₂ (some <| Instr.dscXor · ·) (setWidth_operand v (by decide)) (natOperand_toNat hi)
  case demSample raw => exact congrArg (some <| Instr.demSample ·) (setWidth_operand raw (by decide))
  case demAvg raw => exact congrArg (some <| Instr.demAvg ·) (setWidth_operand raw (by decide))
  case demZc => exact congrArg (some <| Instr.demZc ·) (sampleOfWord_wordOfSample hi)
  case demLen => exact congrArg (some <| Instr.demLen ·) (sampleOfWord_wordOfSample hi)
  case demEmit => exact congrArg (some <| Instr.demEmit ·) (lengthOfWords_encode hi)
  case demEnterint => exact congrArg (some <| Instr.demEnterint ·) (sampleOfWord_wordOfSample hi)
  case demInt => exact congrArg (some <| Instr.demInt ·) (sampleOfWord_wordOfSample hi)
  case demIntchk => exact congrArg (some <| Instr.demIntchk ·) (sampleOfWord_wordOfSample hi)
  case demLeaveint => exact congrArg (some <| Instr.demLeaveint ·) (sampleOfWord_wordOfSample hi)
  case demVar => exact congrArg (some <| Instr.demVar ·) (sampleOfWord_wordOfSample hi)
  case synBit s => exact congrArg (some <| Instr.synBit ·) (bitOperand s)
  case synShift s => exact congrArg (some <| Instr.synShift ·) (bitOperand s)
  case synScore m => exact congrArg (some <| Instr.synScore ·) (setWidth_operand m (by decide))
  case synSusp =>
    exact congrArg (some <| Instr.synSusp ·)
      (natOperand_toNat (natOperandOk_of_le (Nat.le_of_lt (of_decide_eq_true hi))))
  case synDone => exact congrArg (some <| Instr.synDone ·) (natOperand_toNat hi)
  case fecCorrect => exact congrArg (some <| Instr.fecCorrect ·) (natOperand_toNat hi)
  case fecPad =>
    exact congrArg (some <| Instr.fecPad ·)
      (natOperand_toNat (natOperandOk_of_le (of_decide_eq_true hi)))
  case fecDec k => exact congrArg (some <| Instr.fecDec ·) (cwOfWord_wordOfCw k)
  case eccInit => exact congrArg (some <| Instr.eccInit ·) (natOperand_toNat hi)
  case fecScatter k => exact congrArg (some <| Instr.fecScatter ·) (cwOfWord_wordOfCw k)
  case fecStat ok1 ok2 =>
    exact congrArg₂ (some <| Instr.fecStat · ·) (wordOfBool_getLsbD ok1) (wordOfBool_getLsbD ok2)
  case crcUpd r c =>
    exact congrArg₂ (some <| Instr.crcUpd · ·) (setWidth_operand r (by decide))
      (setWidth_operand c (by decide))
  case crcCalc start n =>
    simp only [Instr.wf, Bool.and_eq_true, decide_eq_true_eq] at hi
    obtain ⟨_, hend⟩ := hi
    exact congrArg₂ (some <| Instr.crcCalc · ·)
      (natOperand_toNat (natOperandOk_of_le (Nat.le_of_add_right_le hend)))
      (natOperand_toNat (natOperandOk_of_le (Nat.le_of_add_left_le hend)))
  case crcCheck _ tag =>
    exact congrArg₂ (some <| Instr.crcCheck · ·) (natOperand_toNat hi) (setWidth_operand tag (by decide))

/-! ## Every format -/

/-- Settles O1: in each of the four formats the fixed bits select the operation, and its operands are read back. -/
theorem decodeEncodeAgree : Obligations.DecodeEncodeAgree := by
  intro P i hd hi
  cases he : encode P i with
  | cmd32 w => exact decode_of_encode_cmd32 he
  | tag16 pos w => exact decode_tag16 (decodeTag_of_encode hd he) hi
  | ftm8 m => exact congrArg Except.ok (decodeMarker_of_encode hi he)
  | uop8 label a b => exact decode_uop8 (decodeLabel_of_encode hi he) hi

/-- Settles O3: the command words are OP and ARG written out, the tags, markers and labels are read by evaluation. -/
theorem specWordsDecode : Obligations.SpecWordsDecode :=
  ⟨decode_spbw _ 0x009310, decode_sample _ 0x00FC18, decode_fload _ 0x00380F, decode_bit _ 0x000002,
    decode_tag16 rfl rfl, decode_tag16 rfl rfl, decode_tag16 rfl rfl, rfl, rfl, decode_uop8 rfl rfl,
    decode_uop8 rfl rfl⟩

end Sys2Proof.Machine

namespace Sys2Proof.Machine

/-! ## The marker classes run alone (30_encoding.md R104, 42_synchronizer.md R180) -/

/-- LENMODE is AUTO exactly when its field is 0 (10_state.md R21). -/
theorem cfgLenMode_eq_auto (c : BitVec 8) : cfgLenMode c = .auto ↔ c.extractLsb' 3 2 = 0#2 := by
  unfold cfgLenMode
  split_ifs with h <;> simp [h]

theorem decideLength_auto (len : Nat) {s : State} (h : s.cfg.extractLsb' 3 2 = 0#2) :
    decideLength len s = s.withSyn { s.syn with targetLen := len } :=
  if_pos ((cfgLenMode_eq_auto s.cfg).mpr h)

theorem decideLength_forced (len : Nat) {s : State} (h : s.cfg.extractLsb' 3 2 ≠ 0#2) :
    decideLength len s = s := if_neg (mt (cfgLenMode_eq_auto s.cfg).mp h)

/-- Settles O35: a pure marker's class is the length decision of its length, any other's is its score. -/
theorem markerClasses : Obligations.MarkerClasses := fun _ =>
  ⟨fun h => ⟨congrArg Host.Outcome.next (decideLength_auto 320 h),
      congrArg Host.Outcome.next (decideLength_auto 518 h)⟩,
    fun h => ⟨congrArg Host.Outcome.next (decideLength_forced 320 h),
      congrArg Host.Outcome.next (decideLength_forced 518 h)⟩,
    fun _ => ⟨rfl, rfl⟩⟩

/-! ## The data-selected checks run alone (30_encoding.md R100, 44_crc.md R234, R236) -/

/-- CRC.CHECK leaves CRC_MASK alone. -/
theorem crcCheck_mask (pos : Nat) (hi : Byte) (s : State) :
    (crcCheck pos hi s).st.crc.mask = s.crc.mask := by
  obtain ⟨r, hr⟩ := crcCheck_frame pos hi s
  rw [hr, State.withCrc_crc]

theorem checkBlock_of_ok (bit : Nat) {pos : Nat} {hi : Byte} {s : State}
    (h : (crcCheck pos hi s).res = .ok) : checkBlock bit pos hi s = crcCheck pos hi s := if_pos h

theorem checkBlock_of_not_ok (bit : Nat) {pos : Nat} {hi : Byte} {s : State}
    (h : (crcCheck pos hi s).res ≠ .ok) :
    checkBlock bit pos hi s = ⟨maskFail bit (crcCheck pos hi s).st, (crcCheck pos hi s).res⟩ :=
  if_neg h

/-- An instruction that runs a line of CRC.SCAN runs CRC.CHECK and changes, beside it, the line's bit of CRC_MASK alone:
it is set unless the answer is OK. -/
theorem checkLine_effect {i : Instr} {s : State} (bit pos : Nat) (hi : Byte) (hbit : bit < 7)
    (hline : exec i s = checkedNext (checkBlock bit pos hi s)) :
    ∃ c r t, exec (.crcCheck pos hi) s = .next c ∧ c.port.ret = .check r
      ∧ exec i s = .next t ∧ t = { c with crc := { c.crc with mask := t.crc.mask } }
      ∧ (∀ k, k < 7 → t.crc.mask.getLsbD k
          = (s.crc.mask.getLsbD k || (decide (k = bit) && decide (r ≠ .ok)))) := by
  by_cases h : (crcCheck pos hi s).res = .ok
  · rw [checkBlock_of_ok bit h] at hline
    refine ⟨_, _, _, rfl, rfl, hline, rfl, fun k _ => ?_⟩
    rw [State.withRet_crc, crcCheck_mask]
    simp [h]
  · rw [checkBlock_of_not_ok bit h] at hline
    refine ⟨_, _, _, rfl, rfl, hline, rfl, fun k hk => ?_⟩
    rw [State.withRet_crc, maskFail, State.withCrc_crc, setMaskBit_getLsbD _ _ _ hbit hk,
      crcCheck_mask]
    simp [h]

/-- Settles O50: each of the six operations runs its line of CRC.SCAN. -/
theorem subBlockChecks : Obligations.SubBlockChecks := by
  intro s pos line hline
  simp only [List.mem_cons, List.not_mem_nil, or_false] at hline
  rcases hline with rfl | rfl | rfl | rfl | rfl | rfl
  · exact checkLine_effect 0 s.par.val.posFrame (tagHi s.par.val.tagFrame) (by decide) rfl
  · exact checkLine_effect 1 s.par.val.posPtu (tagHi s.par.val.tagPtu) (by decide) rfl
  · exact checkLine_effect 2 s.par.val.posGps1 (tagHi s.par.val.tagGps1) (by decide) rfl
  · exact checkLine_effect 3 s.par.val.posGps2 (tagHi s.par.val.tagGps2) (by decide) rfl
  · exact checkLine_effect 4 s.par.val.posGps3 (tagHi s.par.val.tagGps3) (by decide) rfl
  · exact checkLine_effect 6 pos s.par.val.tagZeroHi (by decide) rfl

end Sys2Proof.Machine

namespace Sys2Proof.Machine

/-! ## The descrambler (40_descrambler.md R130, R132) -/

/-- The keystream byte depends on the index alone, so the second application cancels the first. -/
theorem dscXor_dscXor (P : Params) (b : Byte) (i : Nat) : dscXor P (dscXor P b i) i = b :=
  calc (b ^^^ maskAt P i) ^^^ maskAt P i
    _ = b ^^^ (maskAt P i ^^^ maskAt P i) := BitVec.xor_assoc ..
    _ = b ^^^ 0#8 := congrArg (b ^^^ ·) BitVec.xor_self
    _ = b := BitVec.xor_zero

/-- DSC.XOR writes the port's answer and no other field. -/
theorem exec_dscXor (v : Byte) (i : Nat) (s : State) :
    exec (.dscXor v i) s = .next (s.withRet (.byte (dscXor s.par.val v i))) := rfl

/-- Settles O17: the answer is the byte under its keystream byte, and XOR with the same byte undoes it. -/
theorem descrambling : Obligations.Descrambling :=
  ⟨fun s v i => exec_dscXor v i s, dscXor_dscXor⟩

end Sys2Proof.Machine

namespace Sys2Proof.Machine

/-! ## The demodulator's operations, case by case (41_demodulator.md) -/

theorem quotient_of_ne {a b : Rat} (h : b ≠ 0) : quotient a b = a / b := if_neg h

theorem cast_toNat_ne_zero {w : Nat} {v : BitVec w} (h : v ≠ 0) : (v.toNat : Rat) ≠ 0 :=
  Nat.cast_ne_zero.mpr fun e => h (BitVec.eq_of_toNat_eq e)

/-- SPB is the written ratio. -/
theorem samplesPerBit_eq {s : State} (hd : s.rate.spbd ≠ 0) :
    samplesPerBit s = (s.rate.spbn.toNat : Rat) / s.rate.spbd.toNat :=
  quotient_of_ne (cast_toNat_ne_zero hd)

theorem samplesPerBit_pos {s : State} (hn : s.rate.spbn ≠ 0) (hd : s.rate.spbd ≠ 0) :
    0 < samplesPerBit s := by
  rw [samplesPerBit_eq hd]
  exact div_pos (lt_of_le_of_ne (Nat.cast_nonneg _) (cast_toNat_ne_zero hn).symm)
    (lt_of_le_of_ne (Nat.cast_nonneg _) (cast_toNat_ne_zero hd).symm)

/-- SPBD is never 0: it is 1 until a legal ratio is written (10_state.md R22). -/
theorem ConfigOk.spbd_ne_zero {s : State} (h : ConfigOk s) : s.rate.spbd ≠ 0 := by
  rcases h.rate with ⟨_, hd, _⟩ | ⟨hr, _⟩
  · rw [hd]
    decide
  · obtain ⟨hd, _⟩ := (ratioIllegal_eq_false _ _).mp hr
    exact fun e => hd (by rw [e]; rfl)

/-- DEM.LEN counts whole samples outside precision mode. -/
theorem demLen_plain {s : State} (y : Rat) (hp : cfgPrec s.cfg = false) :
    demLen y s = ⟨s, quotient s.dem.runN (samplesPerBit s)⟩ := if_neg (by simp [hp])

/-- DEM.LEN interpolates both ends of the run in precision mode. -/
theorem demLen_precise {s : State} (y : Rat) (hp : cfgPrec s.cfg = true) :
    demLen y s = ⟨s.withDem { s.dem with x0 := quotient y (y - s.dem.yPrev) },
      quotient (s.dem.runN + s.dem.x0 - quotient y (y - s.dem.yPrev)) (samplesPerBit s)⟩ := if_pos hp

/-- DEM.LEN moves at most X0, from any state. -/
theorem demLen_frame (y : Rat) (s : State) :
    ∃ x, (demLen y s).st = s.withDem { s.dem with x0 := x } := by
  cases hp : cfgPrec s.cfg with
  | false => exact ⟨s.dem.x0, congrArg Measured.st (demLen_plain y hp)⟩
  | true => exact ⟨_, congrArg Measured.st (demLen_precise y hp)⟩

theorem applyPolarity_eq_xor (c : BitVec 8) (b : Bool) :
    applyPolarity (cfgPol c) b = xor b (c.getLsbD 0) := by
  unfold applyPolarity cfgPol
  cases c.getLsbD 0 <;> cases b <;> rfl

theorem quotaReached_iff (s : State) : quotaReached s = true
    ↔ s.dem.intK * s.rate.spbn.toNat ≤ s.dem.intN * s.rate.spbd.toNat := decide_eq_true_iff

/-! ## The tier 1 rules -/

/-- Settles O15: each operation writes the two sequencing registers of its unit. -/
theorem endOfStream : Obligations.EndOfStream := fun _ =>
  ⟨rfl, rfl, fun h => if_pos h, fun h => if_neg (by simp [h])⟩

/-- The ring of three after a sample, entry by entry. -/
theorem shiftIn_three (x : BitVec 16) (v : Vector (BitVec 16) 3) : shiftIn x v = #v[x, v[0], v[1]] := by
  ext i hi
  match i with
  | 0 => simp [shiftIn_zero]
  | 1 => simp [shiftIn_succ]
  | 2 => simp [shiftIn_succ]

theorem ringMean_three (a b c : BitVec 16) :
    ringMean #v[a, b, c] = ((a.toInt + b.toInt + c.toInt : Int) : Rat) / 3 := by
  simp [ringMean, sampleValue, add_assoc]

/-- Settles O18: the ring holds the three newest samples, whose mean is handed back. -/
theorem movingAverage : Obligations.MovingAverage := by
  intro s raw
  show Host.Outcome.next ((demAvg raw s).st.withRet (.rational (demAvg raw s).y)) = _
  rw [demAvg, shiftIn_three, ringMean_three]
  rfl

/-- Settles O19: no divisor of the rule is 0. -/
theorem runLength : Obligations.RunLength := by
  intro s y hn hd
  have hspb := (samplesPerBit_pos hn hd).ne'
  refine ⟨fun hp => ?plain, fun hp hy => ?precise⟩
  all_goals show Host.Outcome.next ((demLen y s).st.withRet (.rational (demLen y s).len)) = _
  case plain =>
    rw [demLen_plain y hp, quotient_of_ne hspb, samplesPerBit_eq hd]
    rfl
  case precise =>
    rw [demLen_precise y hp, quotient_of_ne hspb, samplesPerBit_eq hd, quotient_of_ne (sub_ne_zero.mpr hy)]
    rfl

/-- Settles O21: the event is a value of the step, built from the ended run's registers. -/
theorem bitEventOfRun : Obligations.BitEventOfRun := by
  intro s l
  refine ⟨rfl, ?_⟩
  rw [demEmit, applyPolarity_eq_xor]
  rfl

/-- DEM.VAR completes at every position of VRING. -/
theorem demVar_inside (y : Rat) {s : State} (hv : s.dem.vpos ≤ 8191) :
    demVar y s = .ok (s.withDem { s.dem with
      vring := cellsSet ratReset s.dem.vring s.dem.vpos y
      vpos := nextVpos s.rate.vwin s.dem.vpos
      vs1 := s.dem.vs1 + y - vringAt s s.dem.vpos
      vs2 := s.dem.vs2 + y * y - vringAt s s.dem.vpos * vringAt s s.dem.vpos }) :=
  if_pos (Nat.lt_succ_of_le hv)

/-- Settles O25: one write to VRING, and VPOS moves on inside the window. -/
theorem varianceWindowStep : Obligations.VarianceWindowStep := by
  intro s y hv
  exact ⟨_, congrArg toOutcome (demVar_inside y hv), rfl,
    fun i => cellsGet_set ratReset s.dem.vring s.dem.vpos y i, fun hw => if_neg hw⟩

/-! ## What DEM.LEN measures (41_demodulator.md R144) -/

/-- A run that has begun holds a sample, and the offsets at its ends lie in [0, 1], so its length is not negative. -/
theorem demLen_len_nonneg {y : Rat} {s : State} (hn : s.rate.spbn ≠ 0) (hd : s.rate.spbd ≠ 0)
    (hr : s.dem.runN ≠ 0) (hf : sgn y ≠ s.dem.runSign) (ht : TrackerOk s) : 0 ≤ (demLen y s).len := by
  have hspb := samplesPerBit_pos hn hd
  have hone : (1 : Rat) ≤ s.dem.runN := Nat.one_le_cast.mpr (Nat.one_le_iff_ne_zero.mpr hr)
  cases hp : cfgPrec s.cfg with
  | false =>
    rw [demLen_plain y hp, quotient_of_ne hspb.ne']
    exact div_nonneg (Nat.cast_nonneg _) hspb.le
  | true =>
    rw [← ht.sign hr] at hf
    obtain ⟨hne, _, hx1⟩ := crossing_bounds y s.dem.yPrev hf
    rw [demLen_precise y hp, quotient_of_ne hspb.ne', quotient_of_ne hne]
    exact div_nonneg (by linarith [ht.x0.1]) hspb.le

/-- Settles O20: the tracker's part of the invariant bounds the offsets, the configuration's gives a ratio. -/
theorem runLengthBounds : Obligations.RunLengthBounds := by
  intro s t y l hs hn hr hf ht hl
  obtain ⟨x, hx, hx0, hx1⟩ := demLen_spec y s hr hf hs.tracker
  injection ht with ht
  rw [← ht] at hl ⊢
  injection hl with hl
  rw [← hl, State.withRet_dem, hx]
  exact ⟨demLen_len_nonneg hn hs.config.spbd_ne_zero hr hf hs.tracker, hx0, hx1⟩

/-! ## The scaled variance (41_demodulator.md R153) -/

/-- Settles O27: the square of a sum is at most the number of its terms times the sum of their squares. -/
theorem varianceNonnegative : Obligations.VarianceNonnegative := by
  intro s h
  have cauchy : (∑ i ∈ Finset.range s.rate.vwin, vringAt s i) ^ 2
      ≤ (Finset.range s.rate.vwin).card * ∑ i ∈ Finset.range s.rate.vwin, vringAt s i ^ 2 :=
    sq_sum_le_card_mul_sum_sq
  rw [Finset.card_range] at cauchy
  simp only [pow_two] at cauchy
  rw [h.sum, h.squares]
  exact sub_nonneg.mpr cauchy

end Sys2Proof.Machine

namespace Sys2Proof.Machine

/-! ## Bits delivered by the demodulator complete (41_demodulator.md R143, R149) -/

/-- The sequencing state is a matter of the synchroniser and the parameters. -/
theorem SeqOk_congr {s t : State} (hp : t.par = s.par) (hy : t.syn = s.syn) (h : SeqOk s) : SeqOk t := by
  obtain ⟨search, index, below, target, suspect⟩ := h
  constructor
  all_goals rw [hy]
  · rw [hp]
    exact search
  · rw [hp]
    exact index
  · exact below
  · exact target
  · exact suspect

theorem SeqOk_withDem {s : State} (d : Dem) (h : SeqOk s) : SeqOk (s.withDem d) := SeqOk_congr (s := s) rfl rfl h

/-- Delivering `n` bits is running SYN.BIT `n` times. -/
theorem execTimes_synBit (b : Bit3) (n : Nat) :
    ∀ s, execTimes (.synBit b) n s = toOutcome (synBits Config.eccDecode b n s) := by
  induction n with
  | zero => exact fun _ => rfl
  | succ n ih =>
    intro s
    rw [execTimes, synBits, show exec (.synBit b) s = toOutcome (synBit Config.eccDecode b s) from rfl]
    cases synBit Config.eccDecode b s with
    | ok t => exact ih t
    | error e => rfl

theorem demIntchk_below_quota (ecc : Ecc) (y : Rat) {s : State} (hq : quotaReached s = false) :
    demIntchk ecc y s = .ok s := if_neg (by simp [hq])

/-- At the quota DEM.INTCHK delivers one bit, and a completed frame ends integrate mode. -/
theorem demIntchk_at_quota (ecc : Ecc) (y : Rat) {s : State} (hq : quotaReached s = true)
    (hi : s.syn.byteIndex ≤ 517) :
    ∃ u, synBit ecc (bit3OfBool (integratedSymbol s))
        (s.withDem { s.dem with intSum := 0, intK := s.dem.intK + 1 }) = .ok u
      ∧ demIntchk ecc y s = .ok (if u.syn.syncState = .search then demLeaveint y u else u) := by
  obtain ⟨u, hu⟩ := synBit_completes ecc (bit3OfBool (integratedSymbol s))
    (s.withDem { s.dem with intSum := 0, intK := s.dem.intK + 1 }) hi
  refine ⟨u, hu, ?_⟩
  rw [demIntchk, if_pos hq]
  exact (andThen_eq_ok _ _ _).mpr ⟨u, hu, rfl⟩

theorem demIntchk_completes (ecc : Ecc) (y : Rat) {s : State} (hi : s.syn.byteIndex ≤ 517) :
    ∃ t, demIntchk ecc y s = .ok t := by
  cases hq : quotaReached s with
  | false => exact ⟨s, demIntchk_below_quota ecc y hq⟩
  | true =>
    obtain ⟨u, _, hu⟩ := demIntchk_at_quota ecc y hq hi
    exact ⟨_, hu⟩

theorem demEnterint_completes (ecc : Ecc) (y : Rat) {s : State} (hi : s.syn.byteIndex ≤ 517) :
    ∃ t, demEnterint ecc y s = .ok t := demIntchk_completes ecc y hi

theorem demInt_completes (ecc : Ecc) (y : Rat) {s : State} (hi : s.syn.byteIndex ≤ 517) :
    ∃ t, demInt ecc y s = .ok t := demIntchk_completes ecc y hi

/-- Settles O23: the two sides of the quota test. -/
theorem integratedBit : Obligations.IntegratedBit := by
  intro s y
  refine ⟨fun hlt => ?below, fun hle hi => ?reached⟩
  case below =>
    have hq : quotaReached s = false := by
      rw [Bool.eq_false_iff, ne_eq, quotaReached_iff]
      exact Nat.not_le.mpr hlt
    exact congrArg toOutcome (demIntchk_below_quota Config.eccDecode y hq)
  case reached =>
    obtain ⟨u, hu, ht⟩ := demIntchk_at_quota Config.eccDecode y ((quotaReached_iff s).mpr hle) hi
    refine ⟨_, u, _, rfl, applyPolarity_eq_xor s.cfg _, rfl, congrArg toOutcome hu, congrArg toOutcome ht, ?_⟩
    split_ifs <;> rfl

/-- Settles O24: both operations of integrate mode are DEM.INTCHK on the updated accumulator. -/
theorem integrateMode : Obligations.IntegrateMode := by
  intro s y
  refine ⟨fun hi => ?enter, fun hi => ?run, rfl⟩
  case enter =>
    obtain ⟨t, ht⟩ := demEnterint_completes Config.eccDecode y hi
    exact ⟨t, congrArg toOutcome ht, congrArg toOutcome ht⟩
  case run =>
    obtain ⟨t, ht⟩ := demInt_completes Config.eccDecode y hi
    exact ⟨t, congrArg toOutcome ht, congrArg toOutcome ht⟩

/-! ## The zero-crossing step (41_demodulator.md R143) -/

theorem demZc_first (ecc : Ecc) (y : Rat) {s : State} (h0 : s.dem.runN = 0) :
    demZc ecc y s = .ok (startRun y s) := if_pos h0

theorem demZc_same (ecc : Ecc) {y : Rat} {s : State} (hr : s.dem.runN ≠ 0) (he : sgn y = s.dem.runSign) :
    demZc ecc y s = .ok (extendRun y s) := (if_neg hr).trans (if_pos he)

theorem demZc_flip (ecc : Ecc) {y : Rat} {s : State} (hr : s.dem.runN ≠ 0) (hf : sgn y ≠ s.dem.runSign) :
    demZc ecc y s = endRun ecc y s := (if_neg hr).trans (if_neg hf)

/-- The new run begins beside the offset that DEM.LEN has left. -/
theorem startRun_demLen (y : Rat) (s : State) : startRun y (demLen y s).st
    = s.withDem { (demLen y s).st.dem with runSign := sgn y, runN := 1, yPrev := y } := by
  obtain ⟨x, hx⟩ := demLen_frame y s
  rw [hx]
  rfl

/-- The event of the run that a flip sample `y` ends. -/
def runEvent (y : Rat) (s : State) : BitEvent := demEmit (demLen y s).len (demLen y s).st

/-- The flip branch in its two parts: the bits of the ended run, then, with ALT and a frame in progress, the entry into
integrate mode. -/
theorem endRun_parts (ecc : Ecc) (y : Rat) {s : State} (h : SeqOk s) :
    ∃ u t, synBits ecc (bit3OfBool (runEvent y s).symbol) (runEvent y s).count.toNat
        (startRun y (demLen y s).st) = .ok u
      ∧ (if cfgAlt s.cfg = true ∧ u.syn.syncState = .assemble then demEnterint ecc y u = .ok t else t = u)
      ∧ endRun ecc y s = .ok t := by
  have hseq : SeqOk (startRun y (demLen y s).st) := by
    rw [startRun_demLen]
    exact SeqOk_withDem _ h
  obtain ⟨u, hu, hk⟩ := synBits_completes ecc (bit3OfBool (runEvent y s).symbol)
    (runEvent y s).count.toNat _ hseq
  have hcfg : u.cfg = s.cfg := by
    rw [(synBits_step ecc _ _ _ u hu).cfg, startRun_demLen]
    rfl
  have hrun : endRun ecc y s
      = if cfgAlt s.cfg = true ∧ u.syn.syncState = .assemble then demEnterint ecc y u else .ok u := by
    rw [← hcfg]
    rw [show endRun ecc y s = andThen (synBits ecc (bit3OfBool (runEvent y s).symbol)
      (runEvent y s).count.toNat (startRun y (demLen y s).st)) _ from rfl, hu]
    rfl
  rw [hrun]
  by_cases hc : cfgAlt s.cfg = true ∧ u.syn.syncState = .assemble
  · obtain ⟨t, ht⟩ := demEnterint_completes ecc y hk.index.2
    exact ⟨u, t, hu, by rwa [if_pos hc], by rwa [if_pos hc]⟩
  · exact ⟨u, u, hu, by rw [if_neg hc], by rw [if_neg hc]⟩

/-- Settles O22: the three branches of DEM.ZC. -/
theorem zeroCrossingStep : Obligations.ZeroCrossingStep := by
  intro s y
  refine ⟨fun h0 => congrArg toOutcome (demZc_first _ y h0),
    fun hr he => congrArg toOutcome (demZc_same _ hr he), fun hs hr hf => ?flip⟩
  case flip =>
    obtain ⟨u, t, hu, hmode, ht⟩ := endRun_parts Config.eccDecode y hs.sequencing.seqOk
    refine ⟨(demLen y s).st.withRet (.rational (demLen y s).len), (demLen y s).len, _, u, t, rfl, rfl, rfl, rfl,
      ?bits, ?mode, ?whole⟩
    case bits =>
      rw [startRun_demLen] at hu
      exact (execTimes_synBit _ _ _).trans (congrArg toOutcome hu)
    case mode =>
      split_ifs at hmode ⊢
      · exact congrArg toOutcome hmode
      · exact hmode
    case whole => exact congrArg toOutcome ((demZc_flip _ hr hf).trans ht)

/-! ## One sample (41_demodulator.md R140) -/

/-- The zero-crossing step completes from every sequencing state. -/
theorem demZc_completes (ecc : Ecc) (y : Rat) {s : State} (h : SeqOk s) : ∃ t, demZc ecc y s = .ok t := by
  by_cases h0 : s.dem.runN = 0
  · exact ⟨_, demZc_first ecc y h0⟩
  by_cases he : sgn y = s.dem.runSign
  · exact ⟨_, demZc_same ecc h0 he⟩
  · obtain ⟨_, t, _, _, ht⟩ := endRun_parts ecc y h
    exact ⟨t, (demZc_flip ecc h0 he).trans ht⟩

/-- The step of the mode, the last part of DEM.SAMPLE. -/
def modeStep (ecc : Ecc) (y : Rat) (s : State) : Res State :=
  if s.dem.mode = .zc then demZc ecc y s else demInt ecc y s

theorem modeStep_completes (ecc : Ecc) (y : Rat) {s : State} (h : SeqOk s) :
    ∃ t, modeStep ecc y s = .ok t := by
  unfold modeStep
  split_ifs
  · exact demZc_completes ecc y h
  · exact demInt_completes ecc y h.index.2

/-- SAMPLE_COUNT counts the sample. -/
def countSample (s : State) : State := s.withDem { s.dem with sampleCount := s.dem.sampleCount + 1 }

/-- DEM.SAMPLE is the filter, the count, the variance tracker and the step of the mode, in this order. -/
theorem demSample_eq (ecc : Ecc) (raw : BitVec 16) (s : State) :
    demSample ecc raw s
      = andThen (trackVariance (filterSample raw s).y (countSample (filterSample raw s).st))
          (modeStep ecc (filterSample raw s).y) := by
  have hmode : (fun t : State => match t.dem.mode with
      | .zc => demZc ecc (filterSample raw s).y t
      | .int => demInt ecc (filterSample raw s).y t) = modeStep ecc (filterSample raw s).y := by
    funext t
    unfold modeStep
    cases t.dem.mode <;> rfl
  rw [← hmode]
  rfl

/-- The filter writes AVG_RING alone. -/
theorem filterSample_frame (raw : BitVec 16) (s : State) :
    ∃ r, (filterSample raw s).st = s.withDem { s.dem with avgRing := r } := by
  unfold filterSample
  split_ifs
  · exact ⟨_, rfl⟩
  · exact ⟨s.dem.avgRing, rfl⟩

/-- The filter as DEM.AVG run alone, or the sample itself. -/
theorem filterSample_run (raw : BitVec 16) (s : State) :
    ∃ f, f.dem = (filterSample raw s).st.dem
      ∧ if s.cfg.getLsbD 6 then exec (.demAvg raw) s = .next f
          ∧ f.port.ret = .rational (filterSample raw s).y
        else f = s ∧ (filterSample raw s).y = ((raw.toInt : Int) : Rat) := by
  unfold filterSample cfgAvg
  split_ifs
  · exact ⟨(demAvg raw s).st.withRet (.rational (demAvg raw s).y), rfl, rfl, rfl⟩
  · exact ⟨s, rfl, rfl, rfl⟩

/-- VPOS stays inside VRING, whether or not a ratio has been written. -/
theorem ConfigOk.vpos_le {s : State} (h : ConfigOk s) : s.dem.vpos ≤ 8191 := by
  have hw : s.rate.vwin ≤ 8192 := by
    rcases h.rate with ⟨_, _, hw⟩ | ⟨hr, hw⟩
    · omega
    · obtain ⟨hd, hlo, hhi⟩ := (ratioIllegal_eq_false _ _).mp hr
      exact hw ▸ (windowLength_bounds _ _ hd hlo hhi).2
  rcases h.vpos with hv | hv <;> omega

/-- The variance tracker completes at every position of VRING, and neither moves the mode nor the synchroniser. -/
theorem trackVariance_completes (y : Rat) {s : State} (hv : s.dem.vpos ≤ 8191) :
    ∃ v, trackVariance y s = .ok v ∧ v.dem.mode = s.dem.mode ∧ v.par = s.par ∧ v.syn = s.syn := by
  unfold trackVariance
  split_ifs
  · exact ⟨_, demVar_inside y hv, rfl, rfl, rfl⟩
  · exact ⟨s, rfl, rfl, rfl, rfl⟩

/-- The variance tracker as DEM.VAR run alone, or nothing. -/
theorem trackVariance_run {y : Rat} {s v : State} (h : trackVariance y s = .ok v) :
    if s.cfg.getLsbD 2 then exec (.demVar y) s = .next v else v = s := by
  unfold trackVariance cfgAlt at h
  split_ifs at h ⊢
  · exact congrArg toOutcome h
  · injection h with h
    exact h.symm

/-- The step of the mode as DEM.ZC or DEM.INT run alone. -/
theorem modeStep_run {y : Rat} {s t : State} (h : modeStep Config.eccDecode y s = .ok t) :
    if s.dem.mode = .zc then exec (.demZc y) s = .next t else exec (.demInt y) s = .next t := by
  unfold modeStep at h
  split_ifs at h ⊢
  · exact congrArg toOutcome h
  · exact congrArg toOutcome h

/-- Settles O26: each of the four parts completes under the invariant. -/
theorem oneSample : Obligations.OneSample := by
  intro s raw h
  obtain ⟨f, hf, hfilter⟩ := filterSample_run raw s
  obtain ⟨r, hr⟩ := filterSample_frame raw s
  have hdem : f.dem = { s.dem with avgRing := r } := by
    rw [hf, hr]
    rfl
  have hcount : countSample (filterSample raw s).st
      = s.withDem { f.dem with sampleCount := s.dem.sampleCount + 1 } := by
    rw [hr, hdem]
    rfl
  have hwhole := demSample_eq Config.eccDecode raw s
  rw [hcount] at hwhole
  generalize (filterSample raw s).y = y at hfilter hwhole
  obtain ⟨v, hv, hmode, hpar, hsyn⟩ := trackVariance_completes y
    (s := s.withDem { f.dem with sampleCount := s.dem.sampleCount + 1 })
    (by rw [hdem]; exact h.config.vpos_le)
  obtain ⟨t, ht⟩ := modeStep_completes Config.eccDecode y
    (SeqOk_congr hpar hsyn (SeqOk_withDem _ h.sequencing.seqOk))
  rw [hv, andThen_ok, ht] at hwhole
  refine ⟨f, y, v, t, hfilter, trackVariance_run hv, congrArg toOutcome hwhole, ?mode⟩
  case mode =>
    have hm : v.dem.mode = s.dem.mode := hmode.trans (by rw [hdem]; rfl)
    rw [← hm]
    exact modeStep_run ht

end Sys2Proof.Machine

namespace Sys2Proof.Machine

/-! ## The branches of a bit and of a byte (42_synchronizer.md R170, R177) -/

/-- What SYN.BYTE writes for the collected byte itself: its place in RF, and BYTE_INDEX (42_synchronizer.md R177). -/
def storeByte (s : State) : State :=
  (rfSet s s.syn.byteIndex (dscXor s.par.val (rawByte (synPack s)) s.syn.byteIndex)).withSyn
    { s.syn with byteIndex := s.syn.byteIndex + 1 }

/-- SYN.BYTE without the variance gate. -/
theorem synByte_of_not_alt (ecc : Ecc) {s : State} (ha : cfgAlt s.cfg = false) (hi : s.syn.byteIndex < 518) :
    synByte ecc s = .ok (completeIfFull ecc (markerDecision s.syn.byteIndex (storeByte s))) := by
  have hsusp : synSusp s.syn.byteIndex (storeByte s) = .ok (storeByte s) :=
    if_neg (by rw [show (storeByte s).cfg = s.cfg from rfl, ha]; decide)
  have hset : ∀ v, rfSetChecked s s.syn.byteIndex v = .ok (rfSet s s.syn.byteIndex v) := fun _ => if_pos hi
  unfold synByte
  dsimp only
  rw [hset, andThen_ok]
  exact congrArg (andThen · _) hsusp

/-- The last bit of a byte. -/
theorem collectBit_last (ecc : Ecc) (b : Bit3) {s : State} (h7 : s.syn.bitCount.val = 7) :
    collectBit ecc b s = synByte ecc (s.withSyn { s.syn with
      bitbuf := s.syn.bitbuf.set s.syn.bitCount.val b, bitCount := 0 }) := if_pos h7

theorem collectBit_more (ecc : Ecc) (b : Bit3) {s : State} (h7 : s.syn.bitCount.val ≠ 7) :
    collectBit ecc b s = .ok (s.withSyn { s.syn with
      bitbuf := s.syn.bitbuf.set s.syn.bitCount.val b, bitCount := s.syn.bitCount + 1 }) := if_neg h7

/-- What SYN.BIT writes in both branches: BIT_COUNTER and CORR (42_synchronizer.md R170, R172). -/
def countBit (b : Bit3) (s : State) : State := synShift b (s.withSyn { s.syn with bitCounter := s.syn.bitCounter + 1 })

theorem synBit_search (ecc : Ecc) (b : Bit3) {s : State} (hs : s.syn.syncState = .search) :
    synBit ecc b s = .ok (if synCmp (countBit b s) then synAcq (countBit b s) else countBit b s) := by
  rw [synBit, hs]
  rfl

theorem synBit_assemble (ecc : Ecc) (b : Bit3) {s : State} (hs : s.syn.syncState = .assemble) :
    synBit ecc b s = collectBit ecc b (countBit b s) := by
  rw [synBit, hs]
  rfl

/-! ## FEC and CRC do not read the demodulator -/

/-- `f` commutes with every change of the demodulator's registers. -/
def DemBlind (f : State → State) : Prop := ∀ s d, f (s.withDem d) = (f s).withDem d

theorem DemBlind_ite {f g : State → State} (c : State → Prop) [∀ s, Decidable (c s)]
    (hc : ∀ s d, c (s.withDem d) ↔ c s) (hf : DemBlind f) (hg : DemBlind g) :
    DemBlind fun s => if c s then f s else g s := by
  intro s d
  by_cases h : c s
  · simp only [if_pos h, if_pos ((hc s d).mpr h), hf s d]
  · simp only [if_neg h, if_neg (mt (hc s d).mp h), hg s d]

theorem DemBlind_comp {f g : State → State} (hg : DemBlind g) (hf : DemBlind f) :
    DemBlind fun s => g (f s) := fun s d => by simp only [hf s d, hg (f s) d]

theorem cwWriteRun_dem (k : CwSel) (s : State) (d : Dem) (n : Nat) (addr : Nat → Nat) (val : Nat → Byte) :
    cwWriteRun k (s.withDem d) n addr val = (cwWriteRun k s n addr val).withDem d := by cases k <;> rfl

theorem rfWriteRun_dem (s : State) (d : Dem) (n : Nat) (addr : Nat → Nat) (val : Nat → Byte) :
    rfWriteRun (s.withDem d) n addr val = (rfWriteRun s n addr val).withDem d := rfl

theorem withFec_dem (s : State) (d : Dem) (f : Fec) : (s.withDem d).withFec f = (s.withFec f).withDem d := rfl

theorem fecGather_dem : DemBlind fecGather := by
  intro s d
  unfold fecGather gatherOne
  simp only [cwWriteRun_dem]
  rfl

theorem fecDec_dem (ecc : Ecc) (k : CwSel) (s : State) (d : Dem) : fecDec ecc k (s.withDem d)
    = ⟨(fecDec ecc k s).st.withDem d, (fecDec ecc k s).ok, (fecDec ecc k s).err⟩ := by
  have hw : cwWord k (s.withDem d) = cwWord k s := by cases k <;> rfl
  unfold fecDec
  rw [hw, State.withDem_status]
  cases ecc s.status.eccReady (cwWord k s) with
  | corrected word e => exact congrArg (Decoded.mk · true _) (cwWriteRun_dem k s d _ _ _)
  | failure => rfl

/-- The demodulator of a pass is the one it was given. -/
theorem fecPass_dem (ecc : Ecc) (s : State) (d : Dem) : fecPass ecc (s.withDem d)
    = ⟨(fecPass ecc s).st.withDem d, (fecPass ecc s).ok1, (fecPass ecc s).ok2⟩ := by
  simp only [fecPass, fecGather_dem s d, fecDec_dem, State.withDem_fec, withFec_dem]

theorem fecForce_dem : DemBlind fecForce := fun _ _ => rfl

theorem fecRetry_dem (ecc : Ecc) (s : State) (d : Dem) : fecRetry ecc (s.withDem d)
    = ⟨(fecRetry ecc s).st.withDem d, (fecRetry ecc s).ok1, (fecRetry ecc s).ok2⟩ := by
  have hzero : DemBlind fun t => if looksStandard t then fecZtrail t else t :=
    DemBlind_ite _ (fun _ _ => Iff.rfl) (fun _ _ => rfl) fun _ _ => rfl
  have hforce : DemBlind fun t => fecForce (t.withFec { t.fec with retried := true }) :=
    DemBlind_comp (f := fun t => t.withFec { t.fec with retried := true }) fecForce_dem fun _ _ => rfl
  exact (congrArg (fecPass ecc) (DemBlind_comp hzero hforce s d)).trans (fecPass_dem ecc _ d)

theorem fecScatter_dem (k : CwSel) : DemBlind (fecScatter k) := by
  intro s d
  have hbyte : ∀ i, cwByte k (s.withDem d) i = cwByte k s i := fun _ => by cases k <;> rfl
  simp only [fecScatter, hbyte, rfWriteRun_dem, State.withDem_par]

theorem fecFinish_dem (p : FecPass) (d : Dem) :
    fecFinish ⟨p.st.withDem d, p.ok1, p.ok2⟩ = (fecFinish p).withDem d := by
  have hscatter : ∀ (k : CwSel) (ok : Bool), DemBlind fun t => if ok then fecScatter k t else t :=
    fun k _ => DemBlind_ite _ (fun _ _ => Iff.rfl) (fecScatter_dem k) fun _ _ => rfl
  exact congrArg (fecStat p.ok1 p.ok2) (DemBlind_comp (hscatter .cw2 p.ok2) (hscatter .cw1 p.ok1) p.st d)

theorem fecCorrect_dem (ecc : Ecc) (len : Nat) : DemBlind (fecCorrect ecc len) := by
  intro s d
  have hpad : fecPad (min len Config.frameLen) (s.withDem d)
      = (fecPad (min len Config.frameLen) s).withDem d := rfl
  simp only [fecCorrect, hpad, fecPass_dem, State.withDem_fec, withFec_dem, State.withDem_cfg, fecRetry_dem]
  split
  · exact fecFinish_dem _ d
  · exact fecFinish_dem ⟨_, _, _⟩ d

theorem crcCheck_dem (pos : Nat) (hi : Byte) (s : State) (d : Dem) :
    crcCheck pos hi (s.withDem d) = ⟨(crcCheck pos hi s).st.withDem d, (crcCheck pos hi s).res⟩ := by
  have hbyte : ∀ a, rfByte (s.withDem d) a = rfByte s a := fun _ => rfl
  have hlen : declaredLen (s.withDem d) pos = declaredLen s pos := rfl
  have hrun : ∀ a n, crcRun a n (s.withDem d) = (crcRun a n s).withDem d := fun _ _ => rfl
  have hstored : ∀ n, storedCrc (s.withDem d) pos n = storedCrc s pos n := fun _ => rfl
  simp only [crcCheck, hbyte, hlen, hrun, hstored, State.withDem_crc]
  split_ifs <;> rfl

theorem checkBlock_dem (bit pos : Nat) (hi : Byte) (s : State) (d : Dem) : checkBlock bit pos hi (s.withDem d)
    = ⟨(checkBlock bit pos hi s).st.withDem d, (checkBlock bit pos hi s).res⟩ := by
  unfold checkBlock
  rw [crcCheck_dem]
  dsimp only
  split_ifs <;> rfl

theorem auxBlock_dem (pos : Nat) (s : State) (d : Dem) :
    auxBlock pos (s.withDem d) = ⟨(auxBlock pos s).st.withDem d, (auxBlock pos s).res⟩ := by
  unfold auxBlock
  rw [crcCheck_dem]
  dsimp only [State.withDem_par]
  split_ifs <;> rfl

theorem auxChain_dem (n : Nat) : ∀ (pos : Nat) (s : State) (d : Dem), auxChain n pos (s.withDem d)
    = ⟨(auxChain n pos s).st.withDem d, (auxChain n pos s).pos, (auxChain n pos s).failed⟩ := by
  induction n with
  | zero => exact fun _ _ _ => rfl
  | succ n ih =>
    intro pos s d
    have hcont : auxContinues pos (s.withDem d) = auxContinues pos s := rfl
    have hlen : declaredLen (s.withDem d) pos = declaredLen s pos := rfl
    unfold auxChain
    rw [hcont, hlen, auxBlock_dem]
    dsimp only
    split_ifs
    · exact ih _ _ d
    · rfl
    · rfl

theorem crcAuxwalk_dem : DemBlind crcAuxwalk := by
  intro s d
  unfold crcAuxwalk
  rw [State.withDem_par, auxChain_dem]
  dsimp only
  rw [checkBlock_dem]
  split_ifs <;> rfl

theorem crcScan_dem : DemBlind crcScan := by
  have hlines : ∀ l : List (Nat × Nat × Byte),
      DemBlind fun t => l.foldl (fun t b => (checkBlock b.1 b.2.1 b.2.2 t).st) t := by
    intro l
    induction l with
    | nil => exact fun _ _ => rfl
    | cons b l ih =>
      have hline : DemBlind fun t => (checkBlock b.1 b.2.1 b.2.2 t).st := fun t d => by
        simp only [checkBlock_dem]
      exact DemBlind_comp ih hline
  intro s d
  exact DemBlind_comp crcAuxwalk_dem (hlines (fixedBlocks s.par.val)) s d

/-! ## With CFG.ALT = 0 the synchroniser does not read the demodulator (41_demodulator.md R155) -/

theorem synDone_dem (ecc : Ecc) (len : Nat) : DemBlind (synDone ecc len) := by
  have hcorrect : DemBlind fun s => fecCorrect ecc (min len Config.frameLen)
      (s.withCrc { s.crc with mask := 0, auxCount := 0 }) :=
    DemBlind_comp (f := fun s => s.withCrc { s.crc with mask := 0, auxCount := 0 })
      (fecCorrect_dem ecc _) fun _ _ => rfl
  exact DemBlind_comp (g := fun s => backToSearch (emitRecord (min len Config.frameLen) s)) (fun _ _ => rfl)
    (DemBlind_comp crcScan_dem hcorrect)

theorem completeIfFull_dem (ecc : Ecc) : DemBlind (completeIfFull ecc) := by
  intro s d
  exact DemBlind_ite (f := synDone ecc s.syn.targetLen) (g := id) (fun t => t.syn.targetLen ≤ t.syn.byteIndex)
    (fun _ _ => Iff.rfl) (synDone_dem ecc _) (fun _ _ => rfl) s d

theorem markerDecision_dem (p : Nat) : DemBlind (markerDecision p) :=
  DemBlind_ite _ (fun _ _ => Iff.rfl) (DemBlind_ite _ (fun _ _ => Iff.rfl) (DemBlind_ite _ (fun _ _ => Iff.rfl)
    (fun _ _ => rfl) (DemBlind_ite _ (fun _ _ => Iff.rfl) (fun _ _ => rfl) fun _ _ => rfl)) fun _ _ => rfl)
    fun _ _ => rfl

theorem storeByte_dem : DemBlind storeByte := fun _ _ => rfl

theorem synByte_dem {ecc : Ecc} {s t : State} (ha : cfgAlt s.cfg = false) (h : synByte ecc s = .ok t) (d : Dem) :
    synByte ecc (s.withDem d) = .ok (t.withDem d) := by
  have hi : s.syn.byteIndex < 518 := by
    by_contra hge
    rw [synByte_outside ecc (Nat.le_of_not_lt hge)] at h
    cases h
  rw [synByte_of_not_alt ecc ha hi] at h
  injection h with h
  have hfinish := DemBlind_comp (completeIfFull_dem ecc)
    (DemBlind_comp (markerDecision_dem s.syn.byteIndex) storeByte_dem) s d
  rw [synByte_of_not_alt ecc (s := s.withDem d) ha hi, ← h]
  exact congrArg Except.ok hfinish

theorem collectBit_dem {ecc : Ecc} {b : Bit3} {s t : State} (ha : cfgAlt s.cfg = false)
    (h : collectBit ecc b s = .ok t) (d : Dem) : collectBit ecc b (s.withDem d) = .ok (t.withDem d) := by
  by_cases h7 : s.syn.bitCount.val = 7
  · rw [collectBit_last ecc b h7] at h
    have hbyte := synByte_dem (s := s.withSyn { s.syn with
      bitbuf := s.syn.bitbuf.set s.syn.bitCount.val b, bitCount := 0 }) ha h d
    exact (collectBit_last ecc b (s := s.withDem d) h7).trans hbyte
  · rw [collectBit_more ecc b h7] at h
    injection h with h
    rw [← h]
    exact collectBit_more ecc b (s := s.withDem d) h7

theorem synBit_dem {ecc : Ecc} {b : Bit3} {s t : State} (ha : cfgAlt s.cfg = false)
    (h : synBit ecc b s = .ok t) (d : Dem) : synBit ecc b (s.withDem d) = .ok (t.withDem d) := by
  have hcount : countBit b (s.withDem d) = (countBit b s).withDem d := rfl
  have hacquire : DemBlind fun t => if synCmp t then synAcq t else t :=
    DemBlind_ite _ (fun _ _ => Iff.rfl) (fun _ _ => rfl) fun _ _ => rfl
  cases hs : s.syn.syncState with
  | search =>
    rw [synBit_search ecc b hs] at h
    rw [synBit_search ecc b (s := s.withDem d) hs, hcount, ← Except.ok.inj h]
    exact congrArg Except.ok (hacquire (countBit b s) d)
  | assemble =>
    rw [synBit_assemble ecc b hs] at h
    rw [synBit_assemble ecc b (s := s.withDem d) hs, hcount]
    exact collectBit_dem (s := countBit b s) ha h d

theorem synBits_dem {ecc : Ecc} {b : Bit3} (n : Nat) : ∀ {s t : State}, cfgAlt s.cfg = false →
    synBits ecc b n s = .ok t → ∀ d, synBits ecc b n (s.withDem d) = .ok (t.withDem d) := by
  induction n with
  | zero =>
    intro s t _ h d
    injection h with h
    rw [← h]
    rfl
  | succ n ih =>
    intro s t ha h d
    obtain ⟨u, hu, h⟩ := (andThen_eq_ok _ _ _).mp h
    have hau : cfgAlt u.cfg = false := by rw [(synBit_step ecc b s u hu).cfg, ha]
    exact (andThen_eq_ok _ _ _).mpr ⟨_, synBit_dem ha hu d, ih hau h d⟩

/-! ## Samples of one sign class (41_demodulator.md R155) -/

/-- The sign class of a sample is that of its 16 bits. -/
theorem sgn_sampleValue_congr {v w : BitVec 16} (h : 0 ≤ v.toInt ↔ 0 ≤ w.toInt) :
    sgn (sampleValue w) = sgn (sampleValue v) := by
  simp only [sgn, sampleValue, Int.cast_nonneg_iff, h]

/-- A state with another previous sample. -/
def withYPrev (q : Rat) (s : State) : State := s.withDem { s.dem with yPrev := q }

/-- A new run keeps the sign class of its first sample, and the sample itself in Y_PREV alone. -/
theorem startRun_withYPrev {y z : Rat} (hyz : sgn z = sgn y) (q : Rat) (s : State) :
    startRun z (withYPrev q s) = withYPrev z (startRun y s) := by
  rw [startRun, hyz]
  rfl

/-- Outside precision mode the event of a run does not depend on the samples around its end. -/
theorem runEvent_withYPrev (y z q : Rat) {s : State} (hp : cfgPrec s.cfg = false) :
    runEvent z (withYPrev q s) = runEvent y s := by
  rw [runEvent, runEvent, demLen_plain y hp, demLen_plain (s := withYPrev q s) z hp]
  rfl

/-- With ALT = 0 and outside precision mode a run's end is the delivery of its bits. -/
theorem endRun_plain (ecc : Ecc) (y : Rat) {s : State} (hp : cfgPrec s.cfg = false)
    (ha : cfgAlt s.cfg = false) : endRun ecc y s
      = synBits ecc (bit3OfBool (runEvent y s).symbol) (runEvent y s).count.toNat (startRun y s) := by
  have hst : (demLen y s).st = s := congrArg Measured.st (demLen_plain y hp)
  have hrun : endRun ecc y s = andThen
      (synBits ecc (bit3OfBool (runEvent y s).symbol) (runEvent y s).count.toNat (startRun y (demLen y s).st))
      fun u => if cfgAlt u.cfg = true ∧ u.syn.syncState = .assemble then demEnterint ecc y u else .ok u := rfl
  rw [hrun, hst]
  cases hu : synBits ecc (bit3OfBool (runEvent y s).symbol) (runEvent y s).count.toNat (startRun y s) with
  | error e => rfl
  | ok u =>
    have hau : cfgAlt u.cfg = false := by rw [(synBits_step ecc _ _ _ u hu).cfg, ← ha]; rfl
    rw [andThen_ok, if_neg (by simp [hau])]

/-- Without precision mode and variance gate DEM.ZC carries a sample's magnitude into Y_PREV and nowhere else. -/
theorem demZc_magnitude {ecc : Ecc} {y z : Rat} {s t : State} (hp : cfgPrec s.cfg = false)
    (ha : cfgAlt s.cfg = false) (hyz : sgn z = sgn y) (h : demZc ecc y s = .ok t) (q : Rat) :
    demZc ecc z (withYPrev q s) = .ok (withYPrev z t) := by
  by_cases h0 : s.dem.runN = 0
  · rw [demZc_first ecc y h0] at h
    rw [demZc_first ecc z (s := withYPrev q s) h0, ← Except.ok.inj h, startRun_withYPrev hyz]
  by_cases he : sgn y = s.dem.runSign
  · rw [demZc_same ecc h0 he] at h
    rw [demZc_same ecc (s := withYPrev q s) h0 (hyz.trans he), ← Except.ok.inj h]
    rfl
  · rw [demZc_flip ecc h0 he, endRun_plain ecc y hp ha] at h
    have hdem : t.dem = (startRun y s).dem := (synBits_step ecc _ _ _ t h).dem
    rw [demZc_flip ecc (s := withYPrev q s) h0 (fun e => he (hyz.symm.trans e)),
      endRun_plain ecc z (s := withYPrev q s) hp ha, runEvent_withYPrev y z q hp, startRun_withYPrev hyz]
    rw [withYPrev, withYPrev, hdem]
    exact synBits_dem _ (s := startRun y s) ha h _

/-- In zero-crossing mode without filter and variance gate a sample is counted and goes to DEM.ZC. -/
theorem demSample_plain (ecc : Ecc) (raw : BitVec 16) {s : State} (hf : cfgAvg s.cfg = false)
    (ha : cfgAlt s.cfg = false) (hm : s.dem.mode = .zc) :
    demSample ecc raw s = demZc ecc (sampleValue raw) (countSample s) := by
  have hfilter : filterSample raw s = ⟨s, sampleValue raw⟩ := if_neg (by simp [hf])
  have htrack : trackVariance (sampleValue raw) (countSample s) = .ok (countSample s) :=
    if_neg (by rw [show (countSample s).cfg = s.cfg from rfl, ha]; decide)
  rw [demSample_eq, hfilter, htrack, andThen_ok, modeStep]
  exact if_pos hm

/-- Settles O28: Y_PREV is the one register that a sample's magnitude reaches. -/
theorem bitsDependOnSignsOnly : Obligations.BitsDependOnSignsOnly := by
  intro s t v w q hp hf ha hm hsign h
  have h : execSample v s = .next t := h
  show ∃ p, execSample w (withYPrev q s) = .next (withYPrev p t)
  unfold execSample at h ⊢
  rw [show inputGuardRefuses .samples (withYPrev q s) = inputGuardRefuses .samples s from rfl,
    show (withYPrev q s).rate = s.rate from rfl]
  split_ifs at h ⊢ with hg hn
  · injection h with h
    exact ⟨q, by rw [← h]; rfl⟩
  · injection h with h
    exact ⟨q, by rw [← h]; rfl⟩
  · have ht := (toOutcome_eq_next _ _).mp h
    rw [demSample_plain _ v (s := inputAccept .samples s) hf ha hm] at ht
    have hz := demZc_magnitude (s := countSample (inputAccept .samples s)) hp ha (sgn_sampleValue_congr hsign) ht q
    exact ⟨_, congrArg toOutcome
      ((demSample_plain _ w (s := inputAccept .samples (withYPrev q s)) hf ha hm).trans hz)⟩

end Sys2Proof.Machine

namespace Sys2Proof.Machine

/-! ## The correlator and the acquisition (42_synchronizer.md R172 to R174) -/

/-- A symbol of the reference pattern is binary. -/
theorem refSymbol_ne_x (P : Params) (i : Nat) : refSymbol P i ≠ .x := by
  unfold refSymbol bit3OfBool
  split <;> nofun

/-- Settles O29: the shift register's two laws, and the comparison with a window that holds no X. -/
theorem correlator : Obligations.Correlator := by
  intro s b
  refine ⟨⟨synShift b s, rfl, rfl, shiftIn_zero b s.syn.corr (by decide),
    fun i => shiftIn_succ b s.syn.corr i.val (Nat.succ_lt_succ i.isLt)⟩,
    synCmp s, rfl, synCmp_iff s, fun ⟨i, hx⟩ => ?_⟩
  rw [Bool.eq_false_iff, ne_eq, synCmp_iff]
  exact fun hall => refSymbol_ne_x _ _ ((hall i).symm.trans hx)

/-- LENMODE is STD exactly when its field is 1 (10_state.md R21). -/
theorem cfgLenMode_eq_std (c : BitVec 8) : cfgLenMode c = .std ↔ c.extractLsb' 3 2 = 1#2 := by
  unfold cfgLenMode
  split_ifs with h0 h1 <;> simp [*]

/-- Settles O30: TARGET_LEN is chosen by the field of LENMODE. -/
theorem acquirePreamble : Obligations.AcquirePreamble := by
  intro s
  have htarget : initialTarget s.cfg = if s.cfg.extractLsb' 3 2 = 1#2 then 320 else 518 := by
    simp only [initialTarget, cfgLenMode_eq_std]
  rw [← htarget]
  rfl

/-! ## Packing a byte (42_synchronizer.md R175) -/

/-- The sum of the powers of two at the places where `f` holds is the number with these bits. -/
theorem sum_two_pow_eq_ofBits {n : Nat} (f : Fin n → Bool) :
    ((List.finRange n).map fun j => if f j then 2 ^ j.val else 0).sum = Nat.ofBits f := by
  induction n with
  | zero => rfl
  | succ n ih =>
    have hdouble : ∀ j : Fin n, (if f j.succ then 2 ^ (j.val + 1) else 0)
        = 2 * if (f ∘ Fin.succ) j then 2 ^ j.val else 0 := fun j => by
      rw [Function.comp_apply, pow_succ']
      split <;> rfl
    rw [List.finRange_succ, List.map_cons, List.sum_cons, List.map_map, Nat.ofBits_succ,
      ← ih (f ∘ Fin.succ), ← List.sum_map_mul_left, Nat.add_comm]
    congr 1
    · exact congrArg List.sum (List.map_congr_left fun j _ => hdouble j)
    · cases f 0 <;> rfl

/-- The packed value has the symbols as its low bits, the first received the least significant. -/
theorem packBits_getLsbD (v : Vector Bit3 8) (i : Nat) :
    (packBits v).getLsbD i = if h : i < 8 then decide (v[i] = .one) else false := by
  have hvalue : packBits v = BitVec.ofNat 9 (Nat.ofBits fun j : Fin 8 => decide (v[j] = .one)) := by
    simp only [← sum_two_pow_eq_ofBits, decide_eq_true_eq]
    rfl
  rw [hvalue, BitVec.getLsbD_ofNat]
  split
  · next h => simp [h, Nat.lt_succ_of_lt h]
  · next h => simp [Nat.testBit_ofBits_ge _ _ (Nat.le_of_not_lt h)]

theorem synPack_of_x {s : State} (h : ∃ i : Fin 8, s.syn.bitbuf[i] = .x) : synPack s = 0x100#9 :=
  if_pos (List.any_eq_true.mpr (h.imp fun i hi => ⟨List.mem_finRange i, decide_eq_true hi⟩))

theorem synPack_of_binary {s : State} (h : ∀ i : Fin 8, s.syn.bitbuf[i] ≠ .x) :
    synPack s = packBits s.syn.bitbuf :=
  if_neg fun hany => by
    obtain ⟨i, _, hi⟩ := List.any_eq_true.mp hany
    exact h i (of_decide_eq_true hi)

/-- Settles O32: eight symbols with an X, and eight binary ones. -/
theorem packByte : Obligations.PackByte := by
  intro s
  refine ⟨synPack s, rfl, synPack_of_x, fun hbin => ?_⟩
  rw [synPack_of_binary hbin]
  exact ⟨packBits_getLsbD _ 8, fun i => (packBits_getLsbD _ i.val).trans (dif_pos i.isLt)⟩

/-! ## The score and the length decision (42_synchronizer.md R179, R180) -/

theorem popcount_eq_countP {w : Nat} (v : BitVec w) : popcount v = (List.range w).countP v.getLsbD :=
  List.countP_eq_length_filter.symm

theorem popcount_le {w : Nat} (v : BitVec w) : popcount v ≤ w := by
  rw [popcount_eq_countP]
  exact List.countP_le_length.trans_eq List.length_range

/-- Every bit set: the whole width is counted. -/
theorem popcount_eq_width {w : Nat} (v : BitVec w) : popcount v = w ↔ v = BitVec.allOnes w := by
  have hlen : popcount v = w ↔ ∀ i ∈ List.range w, v.getLsbD i = true := by
    rw [popcount_eq_countP, ← List.countP_eq_length, List.length_range]
  rw [hlen, BitVec.eq_of_getLsbD_eq_iff]
  simp +contextual

theorem popcount_eq_zero {w : Nat} (v : BitVec w) : popcount v = 0 ↔ v = 0#w := by
  rw [popcount_eq_countP, List.countP_eq_zero, BitVec.eq_of_getLsbD_eq_iff]
  simp

theorem popcount_nibble (v : BitVec 4) : (popcount v : Int)
    = (v.getLsbD 0).toNat + (v.getLsbD 1).toNat + (v.getLsbD 2).toNat + (v.getLsbD 3).toNat := by
  have hbit : ∀ b : Bool, (if b = true then 1 else 0) = b.toNat := by decide
  rw [popcount_eq_countP, show List.range 4 = [0, 1, 2, 3] from rfl]
  simp only [List.countP_cons, List.countP_nil, hbit]
  omega

/-- A byte is its two nibbles. -/
theorem byte_eq_iff_nibbles (a b : Byte) :
    a = b ↔ a.extractLsb' 0 4 = b.extractLsb' 0 4 ∧ a.extractLsb' 4 4 = b.extractLsb' 4 4 := by
  have hjoin : ∀ c : Byte, c = c.extractLsb' 4 4 ++ c.extractLsb' 0 4 := fun c =>
    (BitVec.extractLsb'_eq_self (x := c)).symm.trans
      (BitVec.extractLsb'_append_extractLsb'_eq_extractLsb' (len₁ := 4) (len₂ := 4) rfl).symm
  refine ⟨fun h => by rw [h]; exact ⟨rfl, rfl⟩, fun ⟨hlo, hhi⟩ => ?_⟩
  rw [hjoin a, hjoin b, hlo, hhi]

theorem frameScore_bounds (m : Byte) : -4 ≤ frameScore m ∧ frameScore m ≤ 4 := by
  have hlo := popcount_le (m.extractLsb' 0 4)
  have hhi := popcount_le (m.extractLsb' 4 4)
  unfold frameScore
  omega

/-- Only the pure standard marker has the highest score. -/
theorem frameScore_eq_four (m : Byte) : frameScore m = 4 ↔ m = 0x0F#8 := by
  have hlo := popcount_le (m.extractLsb' 0 4)
  calc frameScore m = 4
    _ ↔ popcount (m.extractLsb' 0 4) = 4 ∧ popcount (m.extractLsb' 4 4) = 0 := by
      unfold frameScore
      omega
    _ ↔ m.extractLsb' 0 4 = BitVec.allOnes 4 ∧ m.extractLsb' 4 4 = 0#4 :=
      and_congr (popcount_eq_width _) (popcount_eq_zero _)
    _ ↔ m = 0x0F#8 := (byte_eq_iff_nibbles m 0x0F#8).symm

/-- Only the pure extended marker has the lowest. -/
theorem frameScore_eq_neg_four (m : Byte) : frameScore m = -4 ↔ m = 0xF0#8 := by
  have hhi := popcount_le (m.extractLsb' 4 4)
  calc frameScore m = -4
    _ ↔ popcount (m.extractLsb' 0 4) = 0 ∧ popcount (m.extractLsb' 4 4) = 4 := by
      unfold frameScore
      omega
    _ ↔ m.extractLsb' 0 4 = 0#4 ∧ m.extractLsb' 4 4 = BitVec.allOnes 4 :=
      and_congr (popcount_eq_zero _) (popcount_eq_width _)
    _ ↔ m = 0xF0#8 := (byte_eq_iff_nibbles m 0xF0#8).symm

/-- The score bit by bit. -/
theorem frameScore_eq_bits (m : Byte) : frameScore m
    = ((m.getLsbD 0).toNat + (m.getLsbD 1).toNat + (m.getLsbD 2).toNat + (m.getLsbD 3).toNat : Int)
      - ((m.getLsbD 4).toNat + (m.getLsbD 5).toNat + (m.getLsbD 6).toNat + (m.getLsbD 7).toNat : Int) := by
  rw [frameScore, popcount_nibble, popcount_nibble]
  simp

theorem synFtm_forced {s : State} (h : s.cfg.extractLsb' 3 2 ≠ 0#2) : synFtm s = s :=
  if_neg (mt (cfgLenMode_eq_auto s.cfg).mp h)

/-- Under AUTO the marker decides as its class does. -/
theorem synFtm_standard {s : State} (h : s.cfg.extractLsb' 3 2 = 0#2)
    (hm : rfByte s s.par.val.posFtype = 0x0F#8) : synFtm s = s.withSyn { s.syn with targetLen := 320 } :=
  (if_pos ((cfgLenMode_eq_auto s.cfg).mpr h)).trans (if_pos hm)

theorem synFtm_extended {s : State} (h : s.cfg.extractLsb' 3 2 = 0#2)
    (hm : rfByte s s.par.val.posFtype = 0xF0#8) : synFtm s = s.withSyn { s.syn with targetLen := 518 } :=
  (if_pos ((cfgLenMode_eq_auto s.cfg).mpr h)).trans
    ((if_neg (by rw [hm]; decide)).trans (if_pos hm))

/-- A marker of neither pure pattern decides nothing in any mode. -/
theorem synFtm_other {s : State} (hstd : rfByte s s.par.val.posFtype ≠ 0x0F#8)
    (hext : rfByte s s.par.val.posFtype ≠ 0xF0#8) : synFtm s = s := by
  unfold synFtm
  rw [if_neg hstd, if_neg hext, ite_self]

/-- Settles O34: the score by its nibbles' counts, and the decision by mode and marker. -/
theorem markerScoreAndDecision : Obligations.MarkerScoreAndDecision :=
  ⟨fun _ m => ⟨frameScore m, rfl, frameScore_eq_bits m, frameScore_eq_four m, frameScore_eq_neg_four m,
      frameScore_bounds m⟩,
    fun _ => ⟨fun h => congrArg Host.Outcome.next (synFtm_forced h),
      fun h hm => congrArg Host.Outcome.next (synFtm_standard h hm),
      fun h hm => congrArg Host.Outcome.next (synFtm_extended h hm),
      fun hstd hext => congrArg Host.Outcome.next (synFtm_other hstd hext)⟩⟩

end Sys2Proof.Machine

namespace Sys2Proof.Machine

/-! ## Accepting a bit (42_synchronizer.md R170) -/

theorem synBit_match (ecc : Ecc) (b : Bit3) {s : State} (hs : s.syn.syncState = .search)
    (hm : synCmp (countBit b s) = true) : synBit ecc b s = .ok (synAcq (countBit b s)) := by
  rw [synBit_search ecc b hs, if_pos hm]

theorem synBit_no_match (ecc : Ecc) (b : Bit3) {s : State} (hs : s.syn.syncState = .search)
    (hm : synCmp (countBit b s) = false) : synBit ecc b s = .ok (countBit b s) := by
  rw [synBit_search ecc b hs, hm]
  rfl

/-- Settles O31: the two answers of the search, and the two places of a bit in its byte. -/
theorem acceptBit : Obligations.AcceptBit := by
  intro s b hi
  obtain ⟨t, ht⟩ := synBit_completes Config.eccDecode b s hi
  refine ⟨countBit b s, _, synCmp (countBit b s), t, rfl, rfl, rfl, congrArg toOutcome ht,
    fun hs hm => ?acquire, fun hs hm => ?search, fun hs hlt => ?collect, fun hs h7 => ?last⟩
  case acquire =>
    rw [synBit_match _ b hs hm] at ht
    exact congrArg toOutcome ht
  case search =>
    rw [synBit_no_match _ b hs hm] at ht
    exact (Except.ok.inj ht).symm
  case collect =>
    rw [synBit_assemble _ b hs, collectBit_more (s := countBit b s) _ b (Nat.ne_of_lt hlt)] at ht
    exact (Except.ok.inj ht).symm
  case last =>
    rw [synBit_assemble _ b hs, collectBit_last (s := countBit b s) _ b h7] at ht
    exact congrArg toOutcome ht

/-! ## Storing a byte (42_synchronizer.md R177) -/

/-- What RF reads after the byte is stored. -/
theorem rfByte_storeByte (s : State) (i : Nat) : rfByte (storeByte s) i
    = if i = s.syn.byteIndex then rawByte (synPack s) ^^^ maskAt s.par.val i else rfByte s i := by
  have hset : rfByte (storeByte s) i = if i = s.syn.byteIndex
      then dscXor s.par.val (rawByte (synPack s)) s.syn.byteIndex else rfByte s i := rfByte_rfSet s _ _ i
  rw [hset]
  split
  · next h => rw [h, dscXor]
  · rfl

/-- SYN.BYTE inside RF in its parts: the suspect logic completes on the stored byte, the marker's decision and the
completion test follow. -/
theorem synByte_parts (ecc : Ecc) {s : State} (hi : s.syn.byteIndex ≤ 517) :
    ∃ b, synSusp s.syn.byteIndex (storeByte s) = .ok b
      ∧ synByte ecc s = .ok (completeIfFull ecc (markerDecision s.syn.byteIndex b)) := by
  have hlt : s.syn.byteIndex < 518 := Nat.lt_succ_of_le hi
  obtain ⟨b, hb, _⟩ := synSusp_seq s.syn.byteIndex hlt (storeByte s)
  exact ⟨b, hb, (andThen_eq_ok _ _ _).mpr ⟨_, if_pos hlt, (andThen_eq_ok _ _ _).mpr ⟨b, hb, rfl⟩⟩⟩

/-- The suspect logic inside SYN.BYTE as SYN.SUSP run alone, or nothing. -/
theorem synSusp_run {p : Nat} {a b : State} (h : synSusp p a = .ok b) :
    if cfgAlt a.cfg then exec (.synSusp p) a = .next b else b = a := by
  split
  · exact congrArg toOutcome h
  · next hc =>
    rw [synSusp, if_neg hc] at h
    exact (Except.ok.inj h).symm

/-- The marker's decision inside SYN.BYTE as SYN.FTM run alone, or nothing. -/
theorem markerDecision_run (p : Nat) (b : State) :
    if cfgLenMode b.cfg = .auto ∧ p = b.par.val.posFtype then exec .synFtm b = .next (markerDecision p b)
    else markerDecision p b = b := by
  unfold markerDecision
  split_ifs <;> rfl

/-- The completion test inside SYN.BYTE as SYN.DONE run alone, or nothing. -/
theorem completeIfFull_run (c : State) :
    if c.syn.targetLen ≤ c.syn.byteIndex
    then exec (.synDone c.syn.targetLen) c = .next (completeIfFull Config.eccDecode c)
    else completeIfFull Config.eccDecode c = c := by
  unfold completeIfFull
  split_ifs <;> rfl

/-- Settles O33: the parts of SYN.BYTE, each as its operation run alone. -/
theorem storeByteInOrder : Obligations.StoreByte := by
  intro s hi
  obtain ⟨b, hsusp, hbyte⟩ := synByte_parts Config.eccDecode hi
  have hkeep := synSusp_step _ _ _ hsusp
  have hmarker := markerDecision_run s.syn.byteIndex b
  rw [hkeep.cfg, hkeep.par] at hmarker
  exact ⟨_, synPack s, storeByte s, b, markerDecision s.syn.byteIndex b, _, rfl, rfl, rfl, rfByte_storeByte s,
    synSusp_run hsusp, hmarker, congrArg toOutcome hbyte, completeIfFull_run _⟩

/-! ## The suspect logic (42_synchronizer.md R181, R182) -/

/-- When a byte is suspect: beyond the standard length, with a byte VAR_LAG before it inside the frame, and a variance
above 3/2 of that byte's. -/
theorem isSuspect_iff (p : Nat) (s : State) : isSuspect p s = true
    ↔ 320 ≤ p ∧ s.par.val.framestart + 300 ≤ p ∧ 3 * varHistAt s (p - 300) < 2 * varHistAt s p := by
  simp [isSuspect, and_assoc]

theorem scoreOpen_iff (s : State) :
    scoreOpen s = true ↔ (frameScore (rfByte s s.par.val.posFtype)).natAbs < 4 := decide_eq_true_iff

/-- Recording a variance writes one entry of VAR_HIST. -/
theorem varHistAt_recordVariance (p : Nat) (s : State) (q : Nat) :
    varHistAt (recordVariance p s) q = if q = p then scaledVariance s else varHistAt s q :=
  cellsGet_set ..

theorem synSusp_of_not_alt (p : Nat) {s : State} (h : cfgAlt s.cfg = false) : synSusp p s = .ok s :=
  if_neg (by rw [h]; decide)

theorem synSusp_of_alt {p : Nat} {s : State} (h : cfgAlt s.cfg = true) (hp : p ≤ 517) :
    synSusp p s = .ok (judgeSuspect p (recordVariance p s)) :=
  (if_pos h).trans (if_pos (Nat.lt_succ_of_le hp))

/-- Settles O36: without ALT nothing runs; with it the byte is judged on the recorded variances. -/
theorem suspectLogic : Obligations.SuspectLogic := by
  intro s p
  refine ⟨fun ha => congrArg toOutcome (synSusp_of_not_alt p ha), fun ha hp => ?_⟩
  have hjudge := judgeSuspect_eq p (recordVariance p s) _ rfl
  refine ⟨judgeSuspect p (recordVariance p s), congrArg toOutcome (synSusp_of_alt ha hp), ?_⟩
  rw [hjudge]
  refine ⟨rfl, varHistAt_recordVariance p s, fun hsus => ?suspect, fun hsus => ?clear, ?target⟩
  case suspect => exact if_pos ((isSuspect_iff _ _).mpr hsus)
  case clear => exact if_neg (mt (isSuspect_iff _ _).mp hsus)
  case target =>
    simp only [State.withSyn_syn, scoreOpen_iff, cfgLenMode_eq_auto]
    rfl

/-! ## The end of a frame (42_synchronizer.md R184) -/

/-- FEC.CORRECT and CRC.SCAN leave the parameters, the output and the synchroniser. -/
theorem correctAndScan_keeps (ecc : Ecc) (len : Nat) (s : State) :
    (crcScan (fecCorrect ecc len s)).par = s.par ∧ (crcScan (fecCorrect ecc len s)).out = s.out
      ∧ (crcScan (fecCorrect ecc len s)).syn = s.syn := by
  obtain ⟨hpar, _, _, _, _, _, hout, hsyn, _⟩ := FecStep_keeps (fecCorrect_step ecc len s)
  obtain ⟨c, hscan, _⟩ := crcScan_frame (fecCorrect ecc len s)
  rw [hscan]
  exact ⟨hpar, hout, hsyn⟩

/-- A record holds RF from index 0 on. -/
theorem rfBytes_zero (s : State) (n : Nat) : rfBytes s 0 n = (List.range n).map (rfByte s) :=
  List.map_congr_left fun i _ => congrArg (rfByte s) (Nat.zero_add i)

/-- SYN.DONE in its parts: the record is that of the corrected and scanned state, which keeps the output, the
synchroniser and the parameters of the state before. -/
theorem synDone_parts (ecc : Ecc) (len : Nat) (s : State) :
    ∃ f, fecCorrect ecc (min len 518) (s.withCrc { s.crc with mask := 0, auxCount := 0 }) = f
      ∧ synDone ecc len s = backToSearch (emitRecord (min len 518) (crcScan f))
      ∧ (crcScan f).par = s.par ∧ (crcScan f).out = s.out ∧ (crcScan f).syn = s.syn :=
  ⟨_, rfl, rfl, correctAndScan_keeps ecc _ _⟩

/-- Settles O37: the output, the synchroniser and the parameters that SYN.DONE reads are those of `s`. -/
theorem frameDone : Obligations.FrameDone := by
  intro s len
  obtain ⟨f, hcorrect, hdone, hpar, hout, hsyn⟩ := synDone_parts Config.eccDecode len s
  refine ⟨f, crcScan f, congrArg Host.Outcome.next hcorrect, rfl, ?_⟩
  rw [← hpar, ← hout, ← hsyn, ← rfBytes_zero]
  exact congrArg Host.Outcome.next hdone

end Sys2Proof.Machine

namespace Sys2Proof.Machine

/-! ## The parts of the correction that only write a buffer (43_fec.md R201, R202, R205, R208, R210, R211) -/

/-- Settles O38: both operations are one run of zeros. -/
theorem zeroedRegions : Obligations.ZeroedRegions := fun s =>
  ⟨fun len hlen => ⟨fecPad len s, rfl, rfl, fecPad_byte len hlen s⟩,
    fecZtrail s, rfl, rfl, fecZtrail_byte s⟩

/-- Settles O41: the status by which of the two codewords decoded. -/
theorem eccInitAndStatus : Obligations.EccInitAndStatus := by
  intro s sel ok1 ok2
  refine ⟨rfl, ?_⟩
  cases ok1 <;> cases ok2 <;> rfl

/-- Settles O39: the index map of the gather, which writes the codewords' buffers alone. -/
theorem gatherCodewords : Obligations.GatherCodewords := by
  intro s
  have hbytes := fecGather_byte s
  obtain ⟨m1, m2, hframe⟩ := fecGather_frame s
  rw [hframe] at hbytes
  exact ⟨_, congrArg Host.Outcome.next hframe, rfl, hbytes⟩

/-- Settles O43: the index map of the scatter, at the offset of either codeword. -/
theorem scatterCodeword : Obligations.ScatterCodeword := by
  intro s k off hoff
  obtain rfl : off = cwOffset k := by cases k <;> exact hoff
  have hbytes := fecScatter_byte k s
  obtain ⟨m, hframe⟩ := fecScatter_frame k s
  rw [hframe] at hbytes
  exact ⟨_, congrArg Host.Outcome.next hframe, rfl, hbytes⟩

/-! ## Forcing the tags (43_fec.md R207) -/

/-- A byte after a list of writes to RF is that of the last write to its index. -/
theorem rfByte_foldl_rfSet (ws : List (Nat × Byte)) (s : State) (a : Nat) :
    rfByte (ws.foldl (fun t w => rfSet t w.1 w.2) s) a
      = ((ws.reverse.find? fun w => w.1 = a).map Prod.snd).getD (rfByte s a) := by
  induction ws using List.reverseRecOn with
  | nil => rfl
  | append_singleton ws w ih =>
    rw [List.foldl_append, List.foldl_cons, List.foldl_nil, rfByte_rfSet, List.reverse_concat, List.find?_cons]
    by_cases h : w.1 = a
    · simp [h]
    · simp [h, Ne.symm h, ih]

/-- FEC.FORCE is the ten writes of the rule in a row. -/
theorem fecForce_eq_writes (s : State) : fecForce s
    = ((fixedKinds s.par.val).toList.flatMap fun e => [(e.1, tagHi e.2), (e.1 + 1, tagLo e.2)]).foldl
        (fun t w => rfSet t w.1 w.2) s := by
  rw [List.foldl_flatMap]
  exact fecForce_eq s

/-- Settles O42: a byte is that of the last of the ten writes to its index. -/
theorem forceTags : Obligations.ForceTags := by
  intro s
  have hbyte := rfByte_foldl_rfSet
    ((fixedKinds s.par.val).toList.flatMap fun e => [(e.1, tagHi e.2), (e.1 + 1, tagLo e.2)]) s
  rw [← fecForce_eq_writes] at hbyte
  obtain ⟨m, hframe⟩ := fecForce_frame s
  rw [hframe] at hbyte
  exact ⟨_, congrArg Host.Outcome.next hframe, rfl, hbyte⟩

/-! ## Decoding for every service (43_fec.md R203) -/

/-- Settles O40: the two answers a service can give. -/
theorem decodeCodeword : Obligations.DecodeCodeword := by
  refine ⟨fun s k => ⟨_, rfl, rfl⟩, fun ecc s k => ⟨fecDec ecc k s, rfl, ?_⟩⟩
  rcases fecDec_cases ecc k s with
    ⟨word, e, hans, hok, herr, hbytes, _, m1, m2, hst, hcw1, hcw2⟩ | ⟨hfail, hdec⟩
  case inl =>
    rw [hst] at hbytes ⊢
    refine ⟨rfl, hcw2, hcw1, fun word' e' hans' => ?_, fun hfail => ?_⟩
    · obtain ⟨rfl, rfl⟩ := EccAnswer.corrected.inj (hans.symm.trans hans')
      exact ⟨hbytes, hok, herr⟩
    · exact nomatch hans.symm.trans hfail
  case inr =>
    rw [hdec]
    refine ⟨rfl, fun _ => rfl, fun _ => rfl, fun word e hans => ?_, fun _ => ⟨rfl, rfl, rfl⟩⟩
    exact nomatch hfail.symm.trans hans

/-- A codeword's bytes depend on the two buffers alone. -/
theorem cwByte_congr {s t : State} (h1 : s.fec.cw1 = t.fec.cw1) (h2 : s.fec.cw2 = t.fec.cw2) (k : CwSel) (a : Nat) :
    cwByte k s a = cwByte k t a := by
  cases k
  · exact congrArg (cellsGet cwReset · a) h1
  · exact congrArg (cellsGet cwReset · a) h2

/-- The word submitted to the service depends on the codeword's bytes alone. -/
theorem cwWord_congr {k : CwSel} {s t : State} (h : ∀ i, cwByte k s i = cwByte k t i) :
    cwWord k s = cwWord k t := congrArg Vector.ofFn (funext fun i => h i.val)

/-! ## The correction in its order (43_fec.md R200, R206, R209) -/

/-- The pass of the model is the pass of the rule. -/
theorem passTo_fecPass (ecc : Ecc) (s : State) :
    PassTo ecc s (fecPass ecc s).st (fecPass ecc s).ok1 (fecPass ecc s).ok2 :=
  ⟨fecGather s, _, _, _, _, rfl, rfl, rfl, rfl⟩

/-- The end of the model's correction is that of the rule. -/
theorem finishTo_fecFinish (p : FecPass) : FinishTo p.st (fecFinish p) p.ok1 p.ok2 := by
  have hscatter : ∀ (k : CwSel) (ok : Bool) (s : State),
      if ok then exec (.fecScatter k) s = .next (if ok then fecScatter k s else s)
      else (if ok then fecScatter k s else s) = s := fun k ok s => by cases ok <;> rfl
  exact ⟨_, _, hscatter .cw1 p.ok1 _, hscatter .cw2 p.ok2 _, rfl⟩

/-- FEC.CORRECT without a retry: the first pass is finished. -/
theorem fecCorrect_of_once {ecc : Ecc} {len : Nat} {s : State} {q : FecPass}
    (hq : fecPass ecc (fecPad (min len 518) s) = q)
    (h : ¬(cfgRetry s.cfg = true ∧ q.ok1 = false ∧ q.ok2 = false)) :
    fecCorrect ecc len s = fecFinish ⟨q.st.withFec { q.st.fec with retried := false }, q.ok1, q.ok2⟩ := by
  subst hq
  exact if_neg (by simpa [and_assoc] using h)

/-- FEC.CORRECT with a retry: the second pass is finished. -/
theorem fecCorrect_of_retry {ecc : Ecc} {len : Nat} {s : State} {q : FecPass}
    (hq : fecPass ecc (fecPad (min len 518) s) = q)
    (h : cfgRetry s.cfg = true ∧ q.ok1 = false ∧ q.ok2 = false) :
    fecCorrect ecc len s = fecFinish (fecRetry ecc (q.st.withFec { q.st.fec with retried := false })) := by
  subst hq
  exact if_pos (by simpa [and_assoc] using h)

/-- The retry's test of the marker before FEC.ZTRAIL (43_fec.md R208). -/
theorem looksStandard_iff (s : State) :
    looksStandard s = true ↔ s.par.val.ftRetryStdMin ≤ frameScore (rfByte s s.par.val.posFtype) :=
  decide_eq_true_iff

/-- The retry in the order of the rule: the tags, the trailing region where the marker looks standard, one pass. -/
theorem fecRetry_parts (ecc : Ecc) (s : State) :
    ∃ f z, exec .fecForce { s with fec := { s.fec with retried := true } } = .next f
      ∧ (if s.par.val.ftRetryStdMin ≤ frameScore (rfByte f s.par.val.posFtype)
          then exec .fecZtrail f = .next z else z = f)
      ∧ PassTo ecc z (fecRetry ecc s).st (fecRetry ecc s).ok1 (fecRetry ecc s).ok2 := by
  obtain ⟨f, hforce⟩ : ∃ f, fecForce (s.withFec { s.fec with retried := true }) = f := ⟨_, rfl⟩
  have hpar : f.par = s.par := by rw [← hforce]; exact (FecStep_keeps (fecForce_step _)).1
  have hretry : fecRetry ecc s = fecPass ecc (if looksStandard f then fecZtrail f else f) := by rw [← hforce]; rfl
  refine ⟨f, _, congrArg Host.Outcome.next hforce, ?_, hretry ▸ passTo_fecPass ecc _⟩
  rw [← hpar]
  by_cases hstd : looksStandard f = true
  · rw [if_pos ((looksStandard_iff f).mp hstd), if_pos hstd]
    rfl
  · rw [if_neg (mt (looksStandard_iff f).mpr hstd), if_neg hstd]

/-- Settles O44: one pass, or the retry's second pass behind it, finished. -/
theorem correctFrame : Obligations.CorrectFrame := by
  refine ⟨fun _ _ => rfl, fun ecc s len => ?_⟩
  obtain ⟨q, hq⟩ : ∃ q, fecPass ecc (fecPad (min len 518) s) = q := ⟨_, rfl⟩
  have hpass := passTo_fecPass ecc (fecPad (min len 518) s)
  have hpar := (FecStep_keeps (FecStep_trans (fecPad_step (min len 518) s) (fecPass_step ecc _).1)).1
  rw [hq] at hpass hpar
  refine ⟨_, q.st, q.ok1, q.ok2, _, rfl, hpass, rfl, fun honce => ?once, fun hretry => ?retry⟩
  case once =>
    rw [fecCorrect_of_once hq honce]
    exact finishTo_fecFinish ⟨_, _, _⟩
  case retry =>
    obtain ⟨f, z, hforce, hzero, hagain⟩ :=
      fecRetry_parts ecc (q.st.withFec { q.st.fec with retried := false })
    rw [State.withFec_par, hpar] at hzero
    rw [fecCorrect_of_retry hq hretry]
    exact ⟨f, z, _, _, _, hforce, hzero, hagain, finishTo_fecFinish _⟩

/-! ## Writing both codewords back (43_fec.md R210, R211) -/

/-- Finishing a pass in which both codewords decoded. -/
theorem fecFinish_both (s : State) :
    fecFinish ⟨s, true, true⟩ = fecStat true true (fecScatter .cw2 (fecScatter .cw1 s)) := rfl

/-- FEC.STAT leaves RF. -/
theorem rfByte_fecStat (ok1 ok2 : Bool) (s : State) (a : Nat) : rfByte (fecStat ok1 ok2 s) a = rfByte s a := rfl

/-- FEC.SCATTER leaves the parameters and the FEC unit's registers. -/
theorem fecScatter_keeps (k : CwSel) (s : State) : (fecScatter k s).par = s.par ∧ (fecScatter k s).fec = s.fec := by
  obtain ⟨m, hframe⟩ := fecScatter_frame k s
  rw [hframe]
  exact ⟨rfl, rfl⟩

/-- Finishing a pass in which both codewords decoded writes the sum of the counts as status. -/
theorem fecFinish_both_fec (s : State) :
    (fecFinish ⟨s, true, true⟩).fec = { s.fec with status := s.fec.err1 + s.fec.err2 } := by
  have hfec : (fecScatter .cw2 (fecScatter .cw1 s)).fec = s.fec :=
    (fecScatter_keeps .cw2 _).2.trans (fecScatter_keeps .cw1 s).2
  rw [← hfec]
  rfl

/-- Finishing a pass in which both codewords decoded: every byte of both is back at its place in RF, every byte outside
the parity and message regions reads as before. -/
theorem rfByte_fecFinish_both (s : State) :
    (∀ i, i < 24 → rfByte (fecFinish ⟨s, true, true⟩) (s.par.val.parpos + i) = cwByte .cw1 s i
      ∧ rfByte (fecFinish ⟨s, true, true⟩) (s.par.val.parpos + 24 + i) = cwByte .cw2 s i)
    ∧ (∀ j, j < 231 → rfByte (fecFinish ⟨s, true, true⟩) (s.par.val.msgpos + 2 * j) = cwByte .cw1 s (24 + j)
      ∧ rfByte (fecFinish ⟨s, true, true⟩) (s.par.val.msgpos + 2 * j + 1) = cwByte .cw2 s (24 + j))
    ∧ ∀ a, ¬(s.par.val.parpos ≤ a ∧ a < s.par.val.parpos + 48) →
        ¬(s.par.val.msgpos ≤ a ∧ a < s.par.val.msgpos + 462) →
        rfByte (fecFinish ⟨s, true, true⟩) a = rfByte s a := by
  obtain ⟨hregions, _⟩ := codewordsOk_of_wf s.par
  obtain ⟨par1, msg1, other1⟩ := fecScatter_byte .cw1 s
  obtain ⟨par2, msg2, other2⟩ := fecScatter_byte .cw2 (fecScatter .cw1 s)
  obtain ⟨hpar, hfec⟩ := fecScatter_keeps .cw1 s
  have hcw2 := cwByte_congr (congrArg Fec.cw1 hfec) (congrArg Fec.cw2 hfec) .cw2
  simp only [cwOffset, hpar, hcw2, Nat.mul_zero, Nat.mul_one, Nat.add_zero] at par1 msg1 other1 par2 msg2 other2
  simp only [fecFinish_both, rfByte_fecStat]
  refine ⟨fun i hi => ⟨?_, par2 i hi⟩, fun j hj => ⟨?_, msg2 j hj⟩, fun a hpara hmsga => ?_⟩
  · exact (other2 _ (fun _ _ => by omega) fun _ _ => by omega).trans (par1 i hi)
  · exact (other2 _ (fun _ _ => by omega) fun _ _ => by omega).trans (msg1 j hj)
  · exact (other2 a (fun _ _ => by omega) fun _ _ => by omega).trans
      (other1 a (fun _ _ => by omega) fun _ _ => by omega)

/-! ## A service that meets its contract (43_fec.md R204) -/

/-- What decoding both gathered words of `s` to the codewords `w1` and `w2` leaves in the FEC unit: their distances as
counts, and the codewords in their buffers. -/
structure BothDecoded (s : State) (w1 w2 : Codeword) (f : Fec) : Prop where
  err1 : f.err1 = Codeword.distance (cwWord .cw1 (fecGather s)) w1
  err2 : f.err2 = Codeword.distance (cwWord .cw2 (fecGather s)) w2
  byte1 : ∀ i (hi : i < 255), cwByte .cw1 (s.withFec f) i = w1[i]'hi
  byte2 : ∀ i (hi : i < 255), cwByte .cw2 (s.withFec f) i = w2[i]'hi

section
variable {C : Codeword → Prop} {ecc : Ecc} (hecc : EccContract C ecc)
include hecc

/-- FEC.DEC with a ready service that meets its contract, on a word close to the codeword `w`: `w` is in the buffer, its
distance is the count, and nothing but that buffer changed. -/
theorem fecDec_of_contract {k : CwSel} {s : State} {w : Codeword} (hready : s.status.eccReady = true) (hw : C w)
    (hd : Codeword.distance (cwWord k s) w ≤ 12) :
    ∃ t, fecDec ecc k s = ⟨t, true, Codeword.distance (cwWord k s) w⟩
      ∧ (∀ i (hi : i < 255), cwByte k t i = w[i]'hi) ∧ (∀ l a, l ≠ k → cwByte l t a = cwByte l s a)
      ∧ ∃ m1 m2, t = s.withFec { s.fec with cw1 := m1, cw2 := m2 } := by
  have hanswer := hecc w (cwWord k s) hw hd
  rw [← hready] at hanswer
  rcases fecDec_cases ecc k s with
    ⟨word, e, hans, hok, herr, hbytes, hother, m1, m2, hst, _⟩ | ⟨hfail, _⟩
  case inl =>
    obtain ⟨rfl, rfl⟩ := EccAnswer.corrected.inj (hans.symm.trans hanswer)
    have hcount : (Fin.ofNat (Config.cwT + 1) (Codeword.distance (cwWord k s) word)).val
        = Codeword.distance (cwWord k s) word := by
      rw [Fin.val_ofNat]
      exact Nat.mod_eq_of_lt (Nat.lt_succ_of_le hd)
    rw [hcount] at herr
    refine ⟨_, ?_, fun i hi => hbytes ⟨i, hi⟩, hother, m1, m2, hst⟩
    rw [← hok, ← herr]
  case inr => exact nomatch hfail.symm.trans hanswer

/-- One pass with a ready service that meets its contract, on gathered words close to the codewords `w1` and `w2`. -/
theorem fecPass_of_contract {s : State} {w1 w2 : Codeword} (hready : s.status.eccReady = true) (hw1 : C w1)
    (hw2 : C w2) (hd1 : Codeword.distance (cwWord .cw1 (fecGather s)) w1 ≤ 12)
    (hd2 : Codeword.distance (cwWord .cw2 (fecGather s)) w2 ≤ 12) :
    ∃ f, fecPass ecc s = ⟨s.withFec f, true, true⟩ ∧ BothDecoded s w1 w2 f := by
  obtain ⟨g, hg⟩ : ∃ g, fecGather s = g := ⟨_, rfl⟩
  obtain ⟨_, _, hgather⟩ := fecGather_frame s
  have hgready : g.status.eccReady = true := by rw [← hg, hgather]; exact hready
  rw [hg] at hgather hd1 hd2
  obtain ⟨t1, hdec1, hbytes1, hkeep1, _, _, ht1⟩ := fecDec_of_contract hecc hgready hw1 hd1
  obtain ⟨u, hu⟩ : ∃ u, t1.withFec { t1.fec with err1 := Codeword.distance (cwWord .cw1 g) w1 } = u :=
    ⟨_, rfl⟩
  have hucw : ∀ k a, cwByte k u a = cwByte k t1 a := by rw [← hu]; exact cwByte_congr rfl rfl
  have huready : u.status.eccReady = true := by rw [← hu, ht1]; exact hgready
  have hword2 : cwWord .cw2 u = cwWord .cw2 g := cwWord_congr fun i => (hucw _ i).trans (hkeep1 .cw2 i nofun)
  rw [← hword2] at hd2
  obtain ⟨t2, hdec2, hbytes2, hkeep2, _, _, ht2⟩ := fecDec_of_contract hecc huready hw2 hd2
  obtain ⟨f, hf⟩ : ∃ f, { t2.fec with err2 := Codeword.distance (cwWord .cw2 u) w2 } = f := ⟨_, rfl⟩
  have hcw : ∀ k a, cwByte k (s.withFec f) a = cwByte k t2 a := by rw [← hf]; exact cwByte_congr rfl rfl
  refine ⟨f, ?pass, ?err1, ?err2, fun i hi => ?byte1, fun i hi => (hcw .cw2 i).trans (hbytes2 i hi)⟩
  case pass =>
    unfold fecPass
    dsimp only
    rw [hg, hdec1, hu, hdec2, hf, ht2, ← hu, ht1, hgather]
    rfl
  case err1 =>
    rw [← hf, ht2, ← hu, hg]
    rfl
  case err2 => rw [← hf, hword2, hg]
  case byte1 =>
    calc cwByte .cw1 (s.withFec f) i
      _ = cwByte .cw1 t2 i := hcw .cw1 i
      _ = cwByte .cw1 u i := hkeep2 .cw1 i nofun
      _ = cwByte .cw1 t1 i := hucw .cw1 i
      _ = w1[i]'hi := hbytes1 i hi

/-- FEC.CORRECT with a ready service that meets its contract, on a padded frame whose gathered words are close to the
codewords `w1` and `w2`: the first pass is finished, without a retry. -/
theorem fecCorrect_of_contract {s p : State} {len : Nat} {w1 w2 : Codeword} (hpad : fecPad (min len 518) s = p)
    (hready : s.status.eccReady = true) (hw1 : C w1) (hw2 : C w2)
    (hd1 : Codeword.distance (cwWord .cw1 (fecGather p)) w1 ≤ 12)
    (hd2 : Codeword.distance (cwWord .cw2 (fecGather p)) w2 ≤ 12) :
    ∃ f, fecCorrect ecc len s = fecFinish ⟨p.withFec f, true, true⟩ ∧ f.retried = false
      ∧ BothDecoded p w1 w2 f := by
  have hpready : p.status.eccReady = true := by rw [← hpad]; exact hready
  obtain ⟨f, hpass, herr1, herr2, hbyte1, hbyte2⟩ := fecPass_of_contract hecc hpready hw1 hw2 hd1 hd2
  have honce := fecCorrect_of_once ((congrArg (fecPass ecc) hpad).trans hpass)
    fun ⟨_, hfailed, _⟩ => nomatch hfailed
  have hcw : ∀ k a, cwByte k (p.withFec { f with retried := false }) a = cwByte k (p.withFec f) a :=
    cwByte_congr rfl rfl
  exact ⟨{ f with retried := false }, honce, rfl, herr1, herr2, fun i hi => (hcw .cw1 i).trans (hbyte1 i hi),
    fun i hi => (hcw .cw2 i).trans (hbyte2 i hi)⟩

end

/-- Settles O45: the first pass decodes both codewords, so there is no retry, and both are written back. -/
theorem correctionRestoresFrame : Obligations.CorrectionRestoresFrame := by
  intro C ecc hecc s p g len w1 w2 hready hpad hgather hw1 hw2 hd1 hd2
  obtain rfl : fecGather p = g := Host.Outcome.next.inj hgather
  have hpadded : fecPad (min len 518) s = p := Host.Outcome.next.inj hpad
  obtain ⟨f, hcorrect, hretried, herr1, herr2, hbyte1, hbyte2⟩ :=
    fecCorrect_of_contract hecc hpadded hready hw1 hw2 hd1 hd2
  obtain ⟨hparity, hmessage, hother⟩ := rfByte_fecFinish_both (p.withFec f)
  have hpar : (p.withFec f).par = s.par := by rw [← hpadded]; rfl
  rw [hpar] at hparity hmessage hother
  rw [hcorrect, fecFinish_both_fec, State.withFec_fec]
  refine ⟨herr1, herr2, congrArg₂ (· + ·) herr1 herr2, hretried, fun i => ?parity, fun j => ?message, hother⟩
  case parity =>
    obtain ⟨hcw1, hcw2⟩ := hparity i i.isLt
    have hi : i.val < 255 := i.isLt.trans (by decide)
    exact ⟨hcw1.trans (hbyte1 i hi), hcw2.trans (hbyte2 i hi)⟩
  case message =>
    obtain ⟨hcw1, hcw2⟩ := hmessage j j.isLt
    have hj : 24 + j.val < 255 := Nat.add_lt_add_left j.isLt 24
    exact ⟨hcw1.trans (hbyte1 (24 + j) hj), hcw2.trans (hbyte2 (24 + j) hj)⟩

end Sys2Proof.Machine

namespace Sys2Proof.Machine

/-! ## The checksum (44_crc.md R230, R231, 90_conflicts.md C9) -/

theorem crcShifts_eq_iterate (n : Nat) (r : BitVec 16) : crcShifts n r = crcShift^[n] r := by
  induction n generalizing r with
  | zero => rfl
  | succ n ih => exact ih (crcShift r)

/-- The byte enters at the high end, over a zero byte. -/
theorem setWidth_shiftLeft_byte (b : Byte) : b.setWidth 16 <<< 8 = b ++ 0x00#8 := by
  rw [← BitVec.setWidth_eq (b ++ 0x00#8), BitVec.setWidth_append_eq_shiftLeft_setWidth_or, BitVec.setWidth_zero,
    BitVec.or_zero]

/-- Settles O46: the recursion on the number of bits is the iterate of the one-bit step. -/
theorem crcUpdate : Obligations.CrcUpdate := by
  intro s r b
  refine ⟨crcUpd r b, rfl, ?_⟩
  rw [crcUpd, crcShifts_eq_iterate, setWidth_shiftLeft_byte]
  rfl

theorem crc16_rfBytes (s : State) (start n : Nat) : crc16 (rfBytes s start n)
    = (List.range n).foldl (fun r i => crcUpd r (rfByte s (start + i))) 0xFFFF#16 := List.foldl_map

theorem crcCalc_inside {s : State} {start n : Nat} (h : start + n ≤ 518) :
    crcCalc start n s = .ok (crcRun start n s) := if_pos (.inr h)

/-- Settles O47: inside RF, CRC.CALC runs, and its CRC is a fold over the indexes of the range. -/
theorem crcOfRange : Obligations.CrcOfRange := by
  intro s start n _ hin
  refine ⟨crc16 (rfBytes s start n), crc16_rfBytes s start n, ?_⟩
  simp only [exec, execCrcCalc, crcCalc_inside hin, andThen_ok, toOutcome_ok]
  rfl

theorem crcShift_of_clear {r : BitVec 16} (h : r.getLsbD 15 = false) : crcShift r = r <<< 1 :=
  if_neg (Bool.eq_false_iff.mp h)

/-- While the bits that leave the register are 0, no step takes the polynomial. -/
theorem crcShifts_of_clear {n : Nat} {r : BitVec 16} (h : ∀ i, 16 ≤ i + n → r.getLsbD i = false) :
    crcShifts n r = r <<< n := by
  induction n generalizing r with
  | zero => exact (BitVec.shiftLeft_zero r).symm
  | succ n ih =>
    have hnext : ∀ i, 16 ≤ i + n → (r <<< 1).getLsbD i = false := by
      intro i hi
      rw [BitVec.getLsbD_shiftLeft]
      by_cases h1 : i < 1
      · simp [h1]
      · rw [h (i - 1) (by omega), Bool.and_false]
    calc crcShifts (n + 1) r
      _ = crcShifts n (r <<< 1) := congrArg (crcShifts n) (crcShift_of_clear (h 15 (by omega)))
      _ = r <<< 1 <<< n := ih hnext
      _ = r <<< (n + 1) := by rw [← BitVec.shiftLeft_add, Nat.add_comm]

/-- Its own high byte empties the register's high half, so the eight shifts move the low half up unchanged. -/
theorem crcUpd_own_high (hi lo : Byte) : crcUpd (hi ++ lo) hi = lo ++ 0x00#8 :=
  calc crcUpd (hi ++ lo) hi
    _ = crcShifts 8 ((hi ++ lo) ^^^ (hi ++ 0x00#8)) := by rw [crcUpd, setWidth_shiftLeft_byte]
    _ = crcShifts 8 (0x00#8 ++ lo) := by rw [BitVec.xor_append, BitVec.xor_self, BitVec.xor_zero]
    _ = crcShifts 8 (lo.setWidth 16) := congrArg (crcShifts 8) (BitVec.setWidth_eq_append (by decide)).symm
    _ = lo.setWidth 16 <<< 8 := crcShifts_of_clear fun i hi => by
        rw [BitVec.getLsbD_setWidth, BitVec.getLsbD_of_ge lo i (by omega), Bool.and_false]
    _ = lo ++ 0x00#8 := setWidth_shiftLeft_byte lo

/-- Settles O48: the CRC's high byte moves its low byte up, and the low byte then leaves nothing. -/
theorem crcResidueZero : Obligations.CrcResidueZero := by
  intro bs
  obtain ⟨hi, lo, hsum⟩ : ∃ hi lo : Byte, crc16 bs = hi ++ lo :=
    ⟨_, _, (BitVec.extractLsb'_append_extractLsb' (w := 8) (len := 8)).symm⟩
  rw [hsum, BitVec.extractLsb'_append_eq_left, BitVec.extractLsb'_append_eq_right]
  calc crc16 (bs ++ [hi, lo])
    _ = crcUpd (crcUpd (crc16 bs) hi) lo := List.foldl_append
    _ = crcUpd (lo ++ 0x00#8) lo := by rw [hsum, crcUpd_own_high]
    _ = 0x00#8 ++ 0x00#8 := crcUpd_own_high lo 0x00#8
    _ = 0#16 := BitVec.zero_append_zero

/-! ## CRC.CHECK, by its tests (44_crc.md R232, R233) -/

theorem crcCheck_of_no_tag {pos : Nat} {hi : Byte} {s : State} (h : 518 ≤ pos ∨ rfByte s pos ≠ hi) :
    crcCheck pos hi s = ⟨s, .mismatchMarker⟩ := by
  unfold crcCheck
  rcases h with hpos | htag
  · exact if_pos hpos
  · rw [if_pos htag, ite_self]

/-- A tagged block that does not end inside RF: the test of its tag alone, or that of its declared length. -/
theorem crcCheck_of_outside {pos : Nat} {hi : Byte} {s : State} (hpos : pos < 518) (htag : rfByte s pos = hi)
    (hend : 518 < pos + declaredLen s pos + 4) : crcCheck pos hi s = ⟨s, .crcFail⟩ := by
  unfold crcCheck
  rw [if_neg (Nat.not_le.mpr hpos), if_neg (not_not_intro htag), if_pos hend, ite_self]

theorem crcCheck_of_inside {pos : Nat} {hi : Byte} {s : State} (htag : rfByte s pos = hi)
    (hend : pos + declaredLen s pos + 4 ≤ 518) :
    crcCheck pos hi s = ⟨crcRun (pos + 2) (declaredLen s pos) s,
      if crc16 (rfBytes s (pos + 2) (declaredLen s pos)) = storedCrc s pos (declaredLen s pos) then .ok
      else .crcFail⟩ := by
  have hpos : ¬Config.frameLen ≤ pos := Nat.not_le.mpr (show pos < 518 by omega)
  have htags : ¬Config.frameLen < pos + 4 := Nat.not_lt.mpr (show pos + 4 ≤ 518 by omega)
  unfold crcCheck
  rw [if_neg hpos, if_neg (not_not_intro htag), if_neg htags, if_neg (Nat.not_lt.mpr hend)]
  exact (apply_ite (Checked.mk _) _ _ _).symm

theorem exec_crcCheck {pos : Nat} {hi : Byte} {s : State} {c : Checked} (h : crcCheck pos hi s = c) :
    exec (.crcCheck pos hi) s = .next (c.st.withRet (.check c.res)) := by
  rw [← h]
  rfl

/-- Settles O49: the tests that fail before the sum is formed, and the comparison. -/
theorem crcCheckResult : Obligations.CrcCheckResult := by
  intro s pos hi
  refine ⟨fun h => exec_crcCheck (crcCheck_of_no_tag h), fun hpos htag hend => ?short, ?tagged⟩
  case short => exact exec_crcCheck (crcCheck_of_outside hpos htag (by omega))
  case tagged =>
    rintro len rfl hfit htag
    exact ⟨fun hend => exec_crcCheck (crcCheck_of_outside (by omega) htag hend),
      fun hend => ⟨_, _, _, rfl, rfl, rfl, exec_crcCheck (crcCheck_of_inside htag hend)⟩⟩

/-! ## One pass of the AUX chain run alone (44_crc.md R235) -/

theorem auxContinues_iff (pos : Nat) (s : State) :
    auxContinues pos s = true ↔ pos < 518 ∧ rfByte s pos = s.par.val.tagAuxHi := by
  simp [auxContinues]

theorem execChkAux_of_ends {pos : Nat} {s : State} (h : ¬(pos < 518 ∧ rfByte s pos = s.par.val.tagAuxHi)) :
    execChkAux pos s = .next (s.withRet (.check .mismatchMarker)) :=
  if_neg (mt (auxContinues_iff pos s).mp h)

theorem execChkAux_of_continues {pos : Nat} {s : State} (h : pos < 518 ∧ rfByte s pos = s.par.val.tagAuxHi) :
    execChkAux pos s = checkedNext (auxBlock pos s) := if_pos ((auxContinues_iff pos s).mpr h)

/-- CRC.CHECK leaves AUX_COUNT alone. -/
theorem crcCheck_auxCount (pos : Nat) (hi : Byte) (s : State) :
    (crcCheck pos hi s).st.crc.auxCount = s.crc.auxCount := by
  obtain ⟨r, hr⟩ := crcCheck_frame pos hi s
  rw [hr, State.withCrc_crc]

/-- A pass over a block is CRC.CHECK, then one step of the count or bit 5. -/
theorem auxBlock_eq (pos : Nat) (s : State) :
    auxBlock pos s =
      let c := crcCheck pos s.par.val.tagAuxHi s
      ⟨c.st.withCrc { c.st.crc with
          auxCount := if c.res = .ok then s.crc.auxCount + 1 else s.crc.auxCount
          mask := if c.res = .ok then s.crc.mask else s.crc.mask ||| 0x20#7 }, c.res⟩ := by
  unfold auxBlock
  dsimp only
  rw [← crcCheck_auxCount pos s.par.val.tagAuxHi s, ← crcCheck_mask pos s.par.val.tagAuxHi s]
  by_cases h : (crcCheck pos s.par.val.tagAuxHi s).res = .ok
  · simp only [h, if_true]
  · simp only [h, if_false]
    rfl

/-- Settles O51: the two sides of the loop's condition. -/
theorem auxBlockCheck : Obligations.AuxBlockCheck := by
  intro s pos
  exact ⟨execChkAux_of_ends, fun hpos htag => ⟨_, _, rfl, rfl,
    (execChkAux_of_continues ⟨hpos, htag⟩).trans (congrArg checkedNext (auxBlock_eq pos s))⟩⟩

/-! ## The scan (44_crc.md R234 to R236) -/

/-- What CRC.AUXWALK does along the chain that `s` has: it leaves the bits of the fixed sub-blocks, sets bit 5 iff the
chain failed, and bit 6 iff it failed or no valid zero-padding block follows. -/
theorem crcAuxwalk_effect {s : State} {n last : Nat} {failed : Bool}
    (hchain : AuxChain s s.par.val.posAux n last failed) :
    ∃ r m, crcAuxwalk s = s.withCrc { reg := r, mask := m, auxCount := s.crc.auxCount + n }
      ∧ (∀ k, k < 5 → m.getLsbD k = s.crc.mask.getLsbD k)
      ∧ (m.getLsbD 5 = true ↔ s.crc.mask.getLsbD 5 = true ∨ failed = true)
      ∧ (m.getLsbD 6 = true ↔ s.crc.mask.getLsbD 6 = true ∨ failed = true
          ∨ ¬BlockOk s last s.par.val.tagZeroHi) := by
  obtain ⟨r, m, _, _, _, hwalk, hchain', _, hmask⟩ := crcAuxwalk_spec s
  obtain ⟨rfl, rfl, rfl⟩ := AuxChain_unique hchain hchain'
  refine ⟨r, m, hwalk, fun k hk => Bool.eq_iff_iff.mpr ?low, ?aux, ?zero⟩
  case low =>
    have h5 : k ≠ 5 := by omega
    have h6 : k ≠ 6 := by omega
    simpa [h5, h6] using hmask k (by omega)
  case aux => simpa using hmask 5 (by decide)
  case zero => simpa using hmask 6 (by decide)

theorem fixedBlocks_eq (P : Params) : fixedBlocks P =
    [(0, P.posFrame, tagHi P.tagFrame), (1, P.posPtu, tagHi P.tagPtu), (2, P.posGps1, tagHi P.tagGps1),
      (3, P.posGps2, tagHi P.tagGps2), (4, P.posGps3, tagHi P.tagGps3)] := rfl

theorem fixedBlocks_bit_lt {P : Params} {e : Nat × Nat × Byte} (he : e ∈ fixedBlocks P) : e.1 < 5 := by
  obtain ⟨k, _, rfl⟩ := List.mem_map.mp he
  exact k.isLt

/-- Each mask bit belongs to one line. -/
theorem fixedBlocks_bit_inj {P : Params} {e f : Nat × Nat × Byte} (he : e ∈ fixedBlocks P)
    (hf : f ∈ fixedBlocks P) (h : e.1 = f.1) : e = f :=
  have hbits : ((fixedBlocks P).map Prod.fst).Nodup := show [0, 1, 2, 3, 4].Nodup by decide
  List.inj_on_of_nodup_map hbits he hf h

/-- What the five lines of CRC.SCAN do: each sets its own bit iff its block is not valid, and bits 5 and 6 stay. -/
theorem fixedChecks_effect (s : State) :
    ∃ r m, (fixedBlocks s.par.val).foldl (fun t b => (checkBlock b.1 b.2.1 b.2.2 t).st) s
        = s.withCrc { s.crc with reg := r, mask := m }
      ∧ (∀ e ∈ fixedBlocks s.par.val,
          (m.getLsbD e.1 = true ↔ s.crc.mask.getLsbD e.1 = true ∨ ¬BlockOk s e.2.1 e.2.2))
      ∧ m.getLsbD 5 = s.crc.mask.getLsbD 5 ∧ m.getLsbD 6 = s.crc.mask.getLsbD 6 := by
  have hbit {e : Nat × Nat × Byte} (he : e ∈ fixedBlocks s.par.val) : e.1 < 5 := fixedBlocks_bit_lt he
  obtain ⟨r, m, hst, hmask⟩ :=
    checkBlocks_spec (fixedBlocks s.par.val) s fun e he => (hbit he).trans (by decide)
  have hother : ∀ k < 7, 5 ≤ k → m.getLsbD k = s.crc.mask.getLsbD k := by
    intro k hk h5
    have hnone : ¬∃ e ∈ fixedBlocks s.par.val, e.1 = k ∧ ¬BlockOk s e.2.1 e.2.2 := by
      rintro ⟨e, he, rfl, _⟩
      exact absurd (hbit he) (Nat.not_lt.mpr h5)
    exact Bool.eq_iff_iff.mpr ((hmask k hk).trans (or_iff_left hnone))
  refine ⟨r, m, hst, fun e he => ?_, hother 5 (by decide) (by decide), hother 6 (by decide) (by decide)⟩
  rw [hmask e.1 ((hbit he).trans (by decide))]
  refine or_congr_right ⟨?_, fun hbad => ⟨e, he, rfl, hbad⟩⟩
  rintro ⟨f, hf, hsame, hbad⟩
  exact fixedBlocks_bit_inj hf he hsame ▸ hbad

/-- What CRC.SCAN does along the chain that `s` has: the five lines, then the walk, on separate bits. -/
theorem crcScan_effect {s : State} {n last : Nat} {failed : Bool}
    (hchain : AuxChain s s.par.val.posAux n last failed) :
    ∃ r m, crcScan s = s.withCrc { reg := r, mask := m, auxCount := s.crc.auxCount + n }
      ∧ (∀ e ∈ fixedBlocks s.par.val,
          (m.getLsbD e.1 = true ↔ s.crc.mask.getLsbD e.1 = true ∨ ¬BlockOk s e.2.1 e.2.2))
      ∧ (m.getLsbD 5 = true ↔ s.crc.mask.getLsbD 5 = true ∨ failed = true)
      ∧ (m.getLsbD 6 = true ↔ s.crc.mask.getLsbD 6 = true ∨ failed = true
          ∨ ¬BlockOk s last s.par.val.tagZeroHi) := by
  obtain ⟨r, m, hchecks, hfixed, hfive, hsix⟩ := fixedChecks_effect s
  obtain ⟨u, hu⟩ : ∃ u, s.withCrc { s.crc with reg := r, mask := m } = u := ⟨_, rfl⟩
  have hpar : u.par = s.par := by rw [← hu]; rfl
  have hrf : u.rf = s.rf := by rw [← hu]; rfl
  have hmask : u.crc.mask = m := by rw [← hu]; rfl
  obtain ⟨r', m', hwalk, hlow, haux, hzero⟩ :=
    crcAuxwalk_effect (hpar ▸ AuxChain_congr s u hpar hrf _ _ _ _ hchain)
  rw [hmask] at hlow haux hzero
  rw [hpar, BlockOk_congr s u hpar hrf] at hzero
  refine ⟨r', m', ?_, fun e he => ?_, hfive ▸ haux, hsix ▸ hzero⟩
  · rw [crcScan, hchecks, hu, hwalk, ← hu]
    rfl
  · rw [hlow e.1 (fixedBlocks_bit_lt he)]
    exact hfixed e he

/-- Settles O52: the chain that the walk follows is the state's one chain, for the walk alone and within the scan. -/
theorem scanFrame : Obligations.ScanFrame := by
  intro s
  obtain ⟨_, _, n, last, failed, _, hchain, _⟩ := crcAuxwalk_spec s
  obtain ⟨r, m, hwalk, hlow, haux, hzero⟩ := crcAuxwalk_effect hchain
  obtain ⟨r', m', hscan, hfixed, haux', hzero'⟩ := crcScan_effect hchain
  simp only [fixedBlocks_eq, List.forall_mem_cons] at hfixed
  obtain ⟨hframe, hptu, hgps1, hgps2, hgps3, _⟩ := hfixed
  exact ⟨n, last, failed, _, _, hchain, congrArg Host.Outcome.next hwalk, rfl, rfl, hlow, haux, hzero,
    congrArg Host.Outcome.next hscan, rfl, rfl, hframe, hptu, hgps1, hgps2, hgps3, haux', hzero'⟩

end Sys2Proof.Machine

namespace Sys2Proof.Machine

/-! ## No part of a sample but the count itself moves SAMPLE_COUNT (41_demodulator.md R140) -/

theorem demIntchk_sampleCount {ecc : Ecc} {y : Rat} {s t : State} (h : demIntchk ecc y s = .ok t) :
    t.dem.sampleCount = s.dem.sampleCount := by
  unfold demIntchk at h
  split at h
  · obtain ⟨u, hu, h⟩ := (andThen_eq_ok _ _ _).mp h
    injection h with h
    have hcount : u.dem.sampleCount = s.dem.sampleCount :=
      (congrArg Dem.sampleCount (synBit_step ecc _ _ u hu).dem).trans rfl
    rw [← h]
    split
    · exact hcount
    · exact hcount
  · injection h with h
    rw [h]

theorem demEnterint_sampleCount {ecc : Ecc} {y : Rat} {s t : State} (h : demEnterint ecc y s = .ok t) :
    t.dem.sampleCount = s.dem.sampleCount := (demIntchk_sampleCount h :)

theorem demInt_sampleCount {ecc : Ecc} {y : Rat} {s t : State} (h : demInt ecc y s = .ok t) :
    t.dem.sampleCount = s.dem.sampleCount := (demIntchk_sampleCount h :)

theorem endRun_sampleCount {ecc : Ecc} {y : Rat} {s t : State} (h : endRun ecc y s = .ok t) :
    t.dem.sampleCount = s.dem.sampleCount := by
  obtain ⟨u, hu, h⟩ := (andThen_eq_ok _ _ _).mp h
  obtain ⟨x, hx⟩ := demLen_frame y s
  have hdem := (synBits_step ecc _ _ _ u hu).dem
  rw [hx] at hdem
  have hcount : u.dem.sampleCount = s.dem.sampleCount := (congrArg Dem.sampleCount hdem).trans rfl
  split at h
  · exact (demEnterint_sampleCount h).trans hcount
  · injection h with h
    exact h ▸ hcount

theorem demZc_sampleCount {ecc : Ecc} {y : Rat} {s t : State} (h : demZc ecc y s = .ok t) :
    t.dem.sampleCount = s.dem.sampleCount := by
  unfold demZc at h
  split_ifs at h
  · injection h with h
    rw [← h]
    rfl
  · injection h with h
    rw [← h]
    rfl
  · exact endRun_sampleCount h

theorem modeStep_sampleCount {ecc : Ecc} {y : Rat} {s t : State} (h : modeStep ecc y s = .ok t) :
    t.dem.sampleCount = s.dem.sampleCount := by
  unfold modeStep at h
  split_ifs at h
  · exact demZc_sampleCount h
  · exact demInt_sampleCount h

theorem trackVariance_sampleCount {y : Rat} {s t : State} (h : trackVariance y s = .ok t) :
    t.dem.sampleCount = s.dem.sampleCount := by
  unfold trackVariance demVar at h
  split_ifs at h
  · injection h with h
    rw [← h]
    rfl
  · injection h with h
    rw [h]

/-- DEM.SAMPLE counts one sample wherever it completes, from any state. -/
theorem demSample_sampleCount {ecc : Ecc} {raw : BitVec 16} {s t : State} (h : demSample ecc raw s = .ok t) :
    t.dem.sampleCount = s.dem.sampleCount + 1 := by
  rw [demSample_eq] at h
  obtain ⟨v, hv, ht⟩ := (andThen_eq_ok _ _ _).mp h
  obtain ⟨r, hr⟩ := filterSample_frame raw s
  have htrack := trackVariance_sampleCount hv
  rw [hr] at htrack
  exact (modeStep_sampleCount ht).trans htrack

/-! ## The common guard of the four input commands (45_host_commands.md R260) -/

section
variable {m : InMode} {s : State} {o : Host.Outcome State Fault Refusal}

/-- A command that the guard stops sets CMDERR. -/
theorem guarded_of_refused
    (h : s.status.eos = true ∨ s.status.cfgerr = true ∨ (s.status.inmode ≠ .none ∧ s.status.inmode ≠ m)) :
    (if inputGuardRefuses m s then .next (refuse .cmderr s) else o) = .next (refuse .cmderr s) :=
  if_pos ((inputGuardRefuses_iff m s).mpr h)

/-- A command that the guard admits is its own work. -/
theorem guarded_of_admitted (heos : s.status.eos = false) (hcfg : s.status.cfgerr = false)
    (hmode : s.status.inmode = .none ∨ s.status.inmode = m) :
    (if inputGuardRefuses m s then .next (refuse .cmderr s) else o) = o :=
  if_neg (Bool.eq_false_iff.mp ((inputGuardRefuses_false m s).mpr ⟨heos, hcfg, hmode⟩))

end

/-- A command word that names no operation is taken off the port and refused. -/
theorem step_of_illegal_word {s : State} {w : BitVec 32} {rest : List Pending}
    (hp : s.port.pending = .command w :: rest) (hd : decode s.par.val (.cmd32 w) = .error .illegalOp) :
    step s = .next (refuse .cmderr (takePending rest s)) := by
  simp only [step, hp, fetchWords, hd, rejectWords]

/-- Settles O11: each of the four input commands begins with the common guard. -/
theorem guardRefuses : Obligations.GuardRefuses :=
  ⟨fun _ _ _ hp hd => step_of_illegal_word hp hd, fun _ _ _ _ _ _ =>
    ⟨fun h => guarded_of_refused h, fun h => guarded_of_refused h,
      fun h => ⟨guarded_of_refused h, guarded_of_refused h⟩⟩⟩

/-! ## The input commands past the guard (45_host_commands.md R265 to R268) -/

/-- SAMPLE past the guard: it needs a ratio, and is DEM.SAMPLE in a session of samples. -/
theorem exec_sample_admitted (v : BitVec 16) {s : State} (heos : s.status.eos = false)
    (hcfg : s.status.cfgerr = false) (hmode : s.status.inmode = .none ∨ s.status.inmode = .samples) :
    exec (.sample v) s = if s.rate.spbn = 0 then .next (refuse .cfgerr s)
      else exec (.demSample v) (inputAccept .samples s) :=
  guarded_of_admitted heos hcfg hmode

/-- Settles O12: the marked state keeps the invariant of a session of samples, where DEM.SAMPLE completes. -/
theorem sampleAccepted : Obligations.SampleAccepted := by
  intro s v h heos hcfg hmode
  have hexec := exec_sample_admitted v heos hcfg hmode
  refine ⟨fun hzero => hexec.trans (if_pos hzero), fun hrate => ?run⟩
  case run =>
    have haccept : StateOk (inputAccept .samples s) := StateOk_inputAccept h nofun
      ((inputGuardRefuses_false .samples s).mpr ⟨heos, hcfg, hmode⟩) fun _ => hrate
    obtain ⟨t, ht, _, _⟩ := demSample_spec Config.eccDecode v _ (haccept.sampleOk rfl)
    have hrun : exec (.demSample v) (inputAccept .samples s) = .next t := congrArg toOutcome ht
    exact ⟨t, (hexec.trans (if_neg hrate)).trans hrun, hrun, (demSample_sampleCount ht :)⟩

/-- Settles O13: past the guard the two commands are SYN.BIT and SYN.DONE, and both complete. -/
theorem bitAndFrunAccepted : Obligations.BitAndFrunAccepted := by
  intro s b len heos hcfg
  refine ⟨fun hmode hindex => ?bit, fun hmode => ?frun⟩
  case bit =>
    obtain ⟨t, ht⟩ := synBit_completes Config.eccDecode b (inputAccept .bits s) hindex
    have hrun : exec (.synBit b) (inputAccept .bits s) = .next t := congrArg toOutcome ht
    exact ⟨t, (guarded_of_admitted heos hcfg hmode).trans hrun, hrun⟩
  case frun =>
    exact ⟨synDone Config.eccDecode (min len.toNat 518) (inputAccept .frames s),
      guarded_of_admitted heos hcfg hmode, rfl⟩

/-- FLOAD past the guard: an index outside RF is refused. -/
theorem exec_fload_admitted (idx : BitVec 10) (val : Byte) {s : State} (heos : s.status.eos = false)
    (hcfg : s.status.cfgerr = false) (hmode : s.status.inmode = .none ∨ s.status.inmode = .frames) :
    exec (.fload idx val) s = if 518 ≤ idx.toNat then .next (refuse .cmderr s)
      else .next (rfSet (inputAccept .frames s) idx.toNat val) :=
  guarded_of_admitted heos hcfg hmode

/-- Settles O14: past the guard only the index is left to test, and one write of RF follows. -/
theorem floadStoresByte : Obligations.FloadStoresByte := by
  intro s idx val heos hcfg hmode
  have hexec := exec_fload_admitted idx val heos hcfg hmode
  exact ⟨fun houtside => hexec.trans (if_pos houtside), fun hinside =>
    ⟨_, hexec.trans (if_neg (by omega)), rfl, rfByte_rfSet (inputAccept .frames s) idx.toNat val⟩⟩

/-! ## The commands without the guard (45_host_commands.md R261, R263, R264, R270) -/

/-- Settles O5: NOP returns its state, and ACK tests whether a record is pending. -/
theorem nopAndAck : Obligations.NopAndAck := fun _ =>
  ⟨rfl, fun hpending => if_pos hpending, fun hnone => if_neg (Nat.not_lt.mpr hnone)⟩

/-- LENMODE 3 is the reserved one (10_state.md R21). -/
theorem cfgLenMode_eq_reserved (c : BitVec 8) : cfgLenMode c = .reserved ↔ c.extractLsb' 3 2 = 3#2 := by
  unfold cfgLenMode
  generalize c.extractLsb' 3 2 = field
  revert field
  decide

/-- Which configuration images are reserved (30_encoding.md R98 (b)). -/
theorem cfgReserved_iff (c : BitVec 8) :
    cfgReserved c = true ↔ c.getLsbD 7 = true ∨ c.extractLsb' 3 2 = 3#2 := by
  simp [cfgReserved, cfgLenMode_eq_reserved]

/-- A configuration command that is locked by a started session or finds its operand illegal is refused; otherwise it
writes (45_host_commands.md R263, R264). -/
theorem locked_cases {s : State} {illegal : Bool} {outcome write : Host.Outcome State Fault Refusal}
    (h : outcome = if s.status.started then .next (refuse .cmderr s)
      else if illegal then .next (refuse .cfgerr s) else write) :
    (s.status.started = true → outcome = .next (refuse .cmderr s))
      ∧ (s.status.started = false → illegal = true → outcome = .next (refuse .cfgerr s))
      ∧ (s.status.started = false → illegal = false → outcome = write) := by
  refine ⟨fun hs => h.trans (if_pos hs), fun hs hi => h.trans ?_, fun hs hi => h.trans ?_⟩
  · rw [hs, hi]
    rfl
  · rw [hs, hi]
    rfl

/-- Settles O8: CFGW tests the lock, then the image. -/
theorem cfgwWritesCfg : Obligations.CfgwWritesCfg := by
  intro s c
  obtain ⟨hlock, hillegal, hwrite⟩ := locked_cases (outcome := exec (.cfgw c) s) rfl
  refine ⟨hlock, fun hs hr => hillegal hs ((cfgReserved_iff c).mpr hr), fun hs h7 hm => hwrite hs ?legal⟩
  case legal =>
    exact Bool.eq_false_iff.mpr
      (mt (cfgReserved_iff c).mp (not_or.mpr ⟨Bool.eq_false_iff.mp h7, hm⟩))

/-- When SPBW refuses a ratio (30_encoding.md R98 (c)). -/
theorem ratioIllegal_iff (n : BitVec 16) (d : BitVec 8) : ratioIllegal n d = true
    ↔ d.toNat = 0 ∨ n.toNat < d.toNat ∨ 256 * d.toNat < n.toNat := by
  simp [ratioIllegal, or_assoc]

/-- Settles O9: SPBW tests the lock, then the ratio, and an emptied window reads 0 everywhere. -/
theorem spbwWritesRatio : Obligations.SpbwWritesRatio := by
  intro s n d
  obtain ⟨hlock, hillegal, hwrite⟩ := locked_cases (outcome := exec (.spbw n d) s) rfl
  refine ⟨hlock, fun hs hr => hillegal hs ((ratioIllegal_iff n d).mpr hr), fun hs hd hlo hhi =>
    ⟨writeRate n d s, hwrite hs ((ratioIllegal_eq_false n d).mpr ⟨hd, hlo, hhi⟩), rfl, fun _ => rfl⟩⟩

end Sys2Proof.Machine
